-- ==== Sys2Proof/Word.lean ====
section
/-! DEFINITION. The word types of the 455Aes CORE and the byte strings its rules are written over
(spec/00_scope.md R11, R12, R13). -/

namespace Sys2Proof

/-- A byte: an 8-bit unsigned value (R12). Also the width of KEY_LEN, IV_LEN, NONCE_LEN, TWEAK_LEN,
GF_A, GF_B and GF_R (R36, R37, R43). -/
abbrev Byte := BitVec 8

/-- The 16-bit registers MSG_LEN, AUX_LEN, OUT_LEN and DKLEN (R38, R39, R40, R42). -/
abbrev Half := BitVec 16

/-- A 32-bit bus value, command word or control register (R82, R110). -/
abbrev Word := BitVec 32

/-- A byte string of any length, byte 0 first (R12). -/
abbrev Bytes := List Byte

/-- A byte string of the fixed length `n` (R11). -/
abbrev ByteString (n : Nat) := Vector Byte n

/-- A 16-byte block; as a matrix, `state[row][col]` is byte `4*col + row` (R11, R15). -/
abbrev Block := ByteString 16

/-- A 4-byte word of the key schedule, byte 0 first (R160). -/
abbrev KeyWord := ByteString 4

end Sys2Proof
end

