-- ==== Sys2Proof/Syntax.lean ====
section
/-! DEFINITION. The 31 commands of the 455Aes CORE (spec/30_encoding.md R115): one constructor per row of
spec/opcode_table.json, in the table's order. No command names a register: every operand is an implicit
register or buffer (R113). The one immediate is ADD_ROUND_KEY's ROUND. -/

namespace Sys2Proof

inductive Instr where
  -- unit 0x1: GF(2^8) and S-box
  | gfMul
  | gfInv
  | sboxFwd
  | sboxInv
  -- unit 0x2: key schedule
  | keyExpand
  -- unit 0x3: round transform
  | subBytes
  | invSubBytes
  | shiftRows
  | invShiftRows
  | mixColumns
  | invMixColumns
  /-- `round` is the round-key index, 0..15 (R113, R120). -/
  | addRoundKey (round : Nat)
  -- unit 0x4: block cipher core
  | encBlock
  | decBlock
  -- unit 0x5: modes of operation
  | ecbEnc
  | ecbDec
  | cbcEnc
  | cbcDec
  | ctrEnc
  | ctrDec
  | cfbEnc
  | cfbDec
  | ofbEnc
  | ofbDec
  | xtsEnc
  | xtsDec
  | gcmEnc
  | gcmDec
  -- unit 0x6: GHASH, HMAC and key derivation
  | ghash
  | hmacSha256
  | pbkdf2
  deriving DecidableEq, Repr

end Sys2Proof
end

