-- ==== Sys2Proof/WellFormed.lean ====
section
/-! DEFINITION. Which commands have a command word (spec/30_encoding.md R110, R113, R120): the ROUND field has
four bits, so a round-key index is 0..15. No other command has an operand. -/

namespace Sys2Proof

/-- The command can be written as a command word. -/
def Instr.wellFormed : Instr → Bool
  | .gfMul | .gfInv | .sboxFwd | .sboxInv => true
  | .keyExpand => true
  | .subBytes | .invSubBytes | .shiftRows | .invShiftRows | .mixColumns | .invMixColumns => true
  | .addRoundKey round => decide (round ≤ 15)
  | .encBlock | .decBlock => true
  | .ecbEnc | .ecbDec | .cbcEnc | .cbcDec | .ctrEnc | .ctrDec | .cfbEnc | .cfbDec => true
  | .ofbEnc | .ofbDec | .xtsEnc | .xtsDec | .gcmEnc | .gcmDec => true
  | .ghash | .hmacSha256 | .pbkdf2 => true

end Sys2Proof
end

