-- ==== Sys2Proof/Decode.lean ====
section
/-! DEFINITION. Decoding and encoding command words (spec/30_encoding.md R110–R118). Decoding is by exact match
with the opcode map of R115 and depends on the word alone (R114, R118). A word that matches no row is
rejected by the name of what is wrong with it (R116). -/

namespace Sys2Proof

/-- What makes a command word illegal (R116). Every illegal word has the same effect, UnsupportedMode
(R337); the name only says why. -/
inductive IllegalWord where
  /-- RSVD (bits 31:12) is not 0. -/
  | reservedBitsSet
  /-- OPCODE is in unit 0x0 or 0x7–0xF (R111). -/
  | reservedUnit
  /-- OPCODE is in unit 0x5 with MODE = 7, the unrecognized mode (R112). -/
  | reservedMode
  /-- OPCODE is in an assigned unit and stands in no row of R115. -/
  | unassignedOpcode
  /-- ROUND (bits 11:8) is not 0 and the command is not ADD_ROUND_KEY. -/
  | roundSet
  /-- Fewer than the four bytes of a command word: there is no shorter form (R118). -/
  | truncated
  deriving DecidableEq, Repr

/-- OPCODE, bits 7:0 of a command word (R110). -/
def opcodeField (w : Word) : Byte := w.extractLsb' 0 8

/-- ROUND, bits 11:8 of a command word (R110). -/
def roundField (w : Word) : BitVec 4 := w.extractLsb' 8 4

/-- RSVD, bits 31:12 of a command word (R110). -/
def rsvdField (w : Word) : BitVec 20 := w.extractLsb' 12 20

/-- UNIT, bits 7:4 of OPCODE (R111). -/
def unitField (op : Byte) : BitVec 4 := op.extractLsb' 4 4

/-- MODE, bits 3:1 of OPCODE's function field in unit 0x5 (R112). -/
def modeField (op : Byte) : BitVec 3 := op.extractLsb' 1 3

/-- One row of the opcode map with mask `0xFFFFFFFF`: the whole command word and its command. -/
structure OpcodeRow where
  word : Word
  instr : Instr
  deriving DecidableEq, Repr

/-- R115, every row except ADD_ROUND_KEY's. -/
def opcodeRows : List OpcodeRow :=
  [ ⟨0x00000010, .gfMul⟩, ⟨0x00000011, .gfInv⟩, ⟨0x00000012, .sboxFwd⟩, ⟨0x00000013, .sboxInv⟩,
    ⟨0x00000020, .keyExpand⟩,
    ⟨0x00000030, .subBytes⟩, ⟨0x00000031, .invSubBytes⟩,
    ⟨0x00000032, .shiftRows⟩, ⟨0x00000033, .invShiftRows⟩,
    ⟨0x00000034, .mixColumns⟩, ⟨0x00000035, .invMixColumns⟩,
    ⟨0x00000040, .encBlock⟩, ⟨0x00000041, .decBlock⟩,
    ⟨0x00000050, .ecbEnc⟩, ⟨0x00000051, .ecbDec⟩, ⟨0x00000052, .cbcEnc⟩, ⟨0x00000053, .cbcDec⟩,
    ⟨0x00000054, .ctrEnc⟩, ⟨0x00000055, .ctrDec⟩, ⟨0x00000056, .cfbEnc⟩, ⟨0x00000057, .cfbDec⟩,
    ⟨0x00000058, .ofbEnc⟩, ⟨0x00000059, .ofbDec⟩, ⟨0x0000005A, .xtsEnc⟩, ⟨0x0000005B, .xtsDec⟩,
    ⟨0x0000005C, .gcmEnc⟩, ⟨0x0000005D, .gcmDec⟩,
    ⟨0x00000060, .ghash⟩, ⟨0x00000061, .hmacSha256⟩, ⟨0x00000062, .pbkdf2⟩ ]

/-- The match of ADD_ROUND_KEY's row (R115). -/
def addRoundKeyMatch : Word := 0x00000036

/-- The mask of ADD_ROUND_KEY's row: ROUND is free (R114). -/
def addRoundKeyMask : Word := 0xFFFFF0FF

/-- Why a word that matches no row is illegal, the first of R116's causes that applies: reserved bits,
then the opcode's unit, then the opcode, then ROUND. -/
def whyIllegal (w : Word) : IllegalWord :=
  if rsvdField w ≠ 0 then .reservedBitsSet
  else if unitField (opcodeField w) = 0 ∨ 7 ≤ (unitField (opcodeField w)).toNat then .reservedUnit
  else if unitField (opcodeField w) = 5 ∧ modeField (opcodeField w) = 7 then .reservedMode
  else if opcodeRows.any (fun row => row.word == (opcodeField w).setWidth 32) then .roundSet
  else .unassignedOpcode

/-- Decode a command word by exact match (R114, R337). -/
def decode (w : Word) : Except IllegalWord Instr :=
  if w &&& addRoundKeyMask = addRoundKeyMatch then .ok (.addRoundKey (roundField w).toNat)
  else
    match opcodeRows.find? (fun row => row.word == w) with
    | some row => .ok row.instr
    | none => .error (whyIllegal w)

/-- The 32-bit value whose little-endian byte lanes are four bytes (R83). -/
def wordOfLanes (b0 b1 b2 b3 : Byte) : Word := b3 ++ b2 ++ b1 ++ b0

/-- Decode the first command of a byte list laid out as the bus carries it, lane 0 first (R83, R110), with
the bytes that follow it. -/
def decodeBytes : Bytes → Except IllegalWord (Instr × Bytes)
  | b0 :: b1 :: b2 :: b3 :: rest =>
    match decode (wordOfLanes b0 b1 b2 b3) with
    | .ok i => .ok (i, rest)
    | .error e => .error e
  | _ => .error .truncated

/-- The command word of a command (R115; ADD_ROUND_KEY's is `0x36 | (round << 8)`, R120). -/
def encode : Instr → Word
  | .gfMul => 0x00000010
  | .gfInv => 0x00000011
  | .sboxFwd => 0x00000012
  | .sboxInv => 0x00000013
  | .keyExpand => 0x00000020
  | .subBytes => 0x00000030
  | .invSubBytes => 0x00000031
  | .shiftRows => 0x00000032
  | .invShiftRows => 0x00000033
  | .mixColumns => 0x00000034
  | .invMixColumns => 0x00000035
  | .addRoundKey round => 0x00000036 ||| (BitVec.ofNat 32 round <<< 8)
  | .encBlock => 0x00000040
  | .decBlock => 0x00000041
  | .ecbEnc => 0x00000050
  | .ecbDec => 0x00000051
  | .cbcEnc => 0x00000052
  | .cbcDec => 0x00000053
  | .ctrEnc => 0x00000054
  | .ctrDec => 0x00000055
  | .cfbEnc => 0x00000056
  | .cfbDec => 0x00000057
  | .ofbEnc => 0x00000058
  | .ofbDec => 0x00000059
  | .xtsEnc => 0x0000005A
  | .xtsDec => 0x0000005B
  | .gcmEnc => 0x0000005C
  | .gcmDec => 0x0000005D
  | .ghash => 0x00000060
  | .hmacSha256 => 0x00000061
  | .pbkdf2 => 0x00000062

/-- The four byte lanes of a command word, lane 0 first (R83). -/
def lanesOfWord (w : Word) : Bytes :=
  [w.extractLsb' 0 8, w.extractLsb' 8 8, w.extractLsb' 16 8, w.extractLsb' 24 8]

/-- The word of a table row of `nbits` bits whose bits are `w`, every higher bit 0. -/
def tableWord (nbits w : Nat) : Word := BitVec.ofNat 32 (w % 2 ^ nbits)

/-- The command the decoder reads from a row of spec/opcode_table.json: its word laid out in the bus's byte
lanes and given to `decodeBytes`. -/
def decodeTableWord (nbits w : Nat) : Option Instr :=
  match decodeBytes (lanesOfWord (tableWord nbits w)) with
  | .ok (i, _) => some i
  | .error _ => none

end Sys2Proof
end

