-- ==== Sys2Proof/Config.lean ====
section
/-! DEFINITION. What an implementation of the 455Aes CORE fixes (spec/00_scope.md R9), the constants the
spec gives it, and the free values the spec leaves open (spec/93_implementation_defined.md U2, U3, U5). -/

namespace Sys2Proof

/-- How XTS forms its first tweak mask (R9, R274, U15). -/
inductive XtsBase where
  /-- `T_0 = E(TWEAK)`, the default. -/
  | enc
  /-- `T_0 = TWEAK`. -/
  | raw
  deriving DecidableEq, Repr

/-- The implementation parameters of R9 that change what the core does: the buffer sizes in bytes and
the XTS base. CORE_BASE is `Config.coreBase`, and ITER_RESET is the fixed `Config.iterReset`. -/
structure Config where
  nIn : Nat
  nAux : Nat
  nOut : Nat
  xtsBase : XtsBase
  deriving DecidableEq, Repr

namespace Config

/-- The default of every parameter (R9). -/
def default : Config :=
  { nIn := 4096, nAux := 4096, nOut := 4112, xtsBase := .enc }

/-- The legal range of every parameter (R9). -/
abbrev Legal (c : Config) : Prop :=
  (16 ≤ c.nIn ∧ c.nIn ≤ 8192 ∧ c.nIn % 16 = 0) ∧
  (64 ≤ c.nAux ∧ c.nAux ≤ 8192 ∧ c.nAux % 16 = 0) ∧
  (c.nIn + 16 ≤ c.nOut ∧ c.nOut ≤ 8192 ∧ c.nOut % 16 = 0)

/-- The identification value of the ID register, ASCII "AES1" (R1, R31). -/
def idValue : Word := 0x41455331

/-- The reset value of ITER, 100000 (R9, R41). -/
def iterReset : Word := 100000

/-- Which 32 KiB frame of the platform's address space the core is placed in. OPEN in the spec (R9, D2,
U17): no value is known here. -/
opaque coreBaseIndex : Nat

/-- CORE_BASE, the platform address of the core's offset 0: any 32 KiB-aligned address (R9, R80). -/
def coreBase : Nat := 32768 * coreBaseIndex

/-- The stream of free byte values (FREE VALUE, log entry 2): the data of a read of a byte that holds no
value (R88, U2), of a read of a running command's results (R373, U3), and the answers of the entropy
source (R311, U5). Nothing is known of any of them. The state's `draws` counter says which is next. -/
opaque freeByte : Nat → Byte

/-- How many records of a running command reset lets the trace sink have received, at a value of the state's
`draws` counter (FREE VALUE, log entry 9; R370, U13). Nothing is known of it. -/
opaque freeCount : Nat → Nat

end Config

end Sys2Proof
end

