-- ==== Sys2Proof/Machine/State.lean ====
section
/-! DEFINITION. The state of the 455Aes CORE (spec/10_state.md), its reset (spec/70_reset_and_hazards.md R370), and
the reasons a step can stop. Everything is plain data. -/

namespace Sys2Proof.Machine

/-- The error codes of STATUS.ERRCODE (spec/60_exceptions.md R331). Codes 11–15 are reserved and never
reported. -/
inductive ErrCode where
  | none
  | invalidKeyLength
  | invalidHexInput
  | missingIV
  | missingNonce
  | missingTweak
  | paddingError
  | authenticationFailed
  | unsupportedMode
  | noKeySchedule
  | invalidParameter
  deriving DecidableEq, Repr

/-- CTRL (R32). Its reserved bits 31:2 read 0 and ignore writes (R53), so they are no state. -/
structure Ctrl where
  /-- bit 0, TRACE_EN -/
  traceEn : Bool
  /-- bit 1, IRQ_EN -/
  irqEn : Bool
  deriving DecidableEq, Repr

/-- STATUS (R34) but for BUSY, which is 1 exactly while the pending command latch is full and is
`State.busy`. Its reserved bits read 0. -/
structure Status where
  /-- bit 1, W1C -/
  done : Bool
  /-- bit 2, W1C -/
  err : Bool
  /-- bit 3, W1C, sticky -/
  ovr : Bool
  /-- bit 4 -/
  keyValid : Bool
  /-- bit 5 -/
  tagOk : Bool
  /-- bit 6 -/
  saltGen : Bool
  /-- bits 11:8 -/
  errCode : ErrCode
  /-- bits 19:16 -/
  nr : BitVec 4
  deriving DecidableEq, Repr

/-- The pending command latch (R52 (a)): the accepted command word and CTRL.TRACE_EN at accept. -/
structure Latch where
  word : Word
  traceEn : Bool
  deriving DecidableEq, Repr

/-- The buffers (R49, R50, R51). -/
inductive Buffer where
  | input
  | aux
  | output
  deriving DecidableEq, Repr

/-- The operation of a trace record (spec/43_block_core.md R205). -/
inductive TraceOp where
  | subBytes
  | shiftRows
  | mixColumns
  | addRoundKey
  | invSubBytes
  | invShiftRows
  | invMixColumns
  | input
  deriving DecidableEq, Repr

/-- The direction of a trace record (R205). -/
inductive Direction where
  | encryption
  | decryption
  deriving DecidableEq, Repr

/-- A trace record (R205): block index, round number, operation, direction and state snapshot. Its five
words on the trace port are `TraceRecord.words`. -/
structure TraceRecord where
  block : Nat
  round : Nat
  op : TraceOp
  dir : Direction
  snapshot : Block
  deriving DecidableEq, Repr

/-- One bus transaction of the host (spec/20_memory.md R82) at a core offset of 15 bits (R80). A width other
than 1, 2 or 4 bytes can be asked for and is answered with SLVERR (R85; log entry 16). -/
inductive Access where
  | read (offset : BitVec 15) (width : Nat)
  | write (offset : BitVec 15) (width : Nat) (value : Word)
  deriving DecidableEq, Repr

/-- What the world outside the sequencer does next. The list of these in `State.hostQueue` is the host's
program (spec/30_encoding.md R124) and the scheduler's choices (spec/60_exceptions.md R336) as plain data
(DESIGN CHOICE, log entry 4). -/
inductive HostEvent where
  /-- the host performs one bus transaction -/
  | bus (a : Access)
  /-- the host polls STATUS until BUSY = 0 (R121); `late` is how many polls the scheduler lets see BUSY = 1
  before the sequencer's turn (R379) -/
  | wait (late : Nat)
  /-- the sequencer takes its step before the host's next event (R336, R379) -/
  | coreTurn
  /-- the reset input is asserted (R370) -/
  | reset
  deriving DecidableEq, Repr

/-- The response of a bus transaction (R82). -/
inductive Resp where
  | okay
  | slverr
  deriving DecidableEq, Repr

/-- What the host received for one bus transaction: the response, and for a read its data (R82). -/
structure Reply where
  resp : Resp
  data : Option Word
  deriving DecidableEq, Repr

/-- One bus transaction as it happened: what the host asked for and what it received (R82, R124). -/
structure Transaction where
  access : Access
  reply : Reply
  deriving DecidableEq, Repr

/-- The bytes of IN, AUX and OUT that hold a value, by core offset (R81), in the canonical form of
`Memory.wf`: offsets strictly rising. An offset that is not listed holds no value (R49, R50, R51; log entry
8). -/
abbrev Memory := List Host.Cell

/-- The whole state (R55). `config`, `trace`, `hostQueue`, `hostLog` and `draws` are no registers of the
core: they are the parameters of R9 (log entry 1), what the trace sink and the host have received (log
entries 15, 16), what the host will do (DESIGN CHOICE, log entry 4), and the count of free values taken (DESIGN
CHOICE, log entry 2). BUSY, ID and IRQ are computed (log entry 3), and the mode context lives within one step (log
entry 10). -/
structure State where
  /-- the implementation parameters, written by nothing (R9) -/
  config : Config
  /-- CTRL, 0x004 -/
  ctrl : Ctrl
  /-- LAST_CMD, read at CMD 0x008 -/
  lastCmd : Word
  /-- STATUS, 0x00C -/
  status : Status
  /-- KEY_LEN, 0x010 -/
  keyLen : Byte
  /-- IV_LEN, 0x014 -/
  ivLen : Byte
  /-- NONCE_LEN, 0x018 -/
  nonceLen : Byte
  /-- TWEAK_LEN, 0x01C -/
  tweakLen : Byte
  /-- MSG_LEN, 0x020 -/
  msgLen : Half
  /-- AUX_LEN, 0x024 -/
  auxLen : Half
  /-- OUT_LEN, 0x028 -/
  outLen : Half
  /-- ITER, 0x02C -/
  iter : Word
  /-- DKLEN, 0x030 -/
  dkLen : Half
  /-- GF_A, 0x034 -/
  gfA : Byte
  /-- GF_B, 0x038 -/
  gfB : Byte
  /-- GF_R, 0x03C -/
  gfR : Byte
  /-- KEY, 0x040–0x05F -/
  key : ByteString 32
  /-- IV, 0x060–0x06F -/
  iv : Block
  /-- NONCE, 0x070–0x07F -/
  nonce : Block
  /-- TWEAK, 0x080–0x08F -/
  tweak : Block
  /-- STATE, 0x090–0x09F -/
  block : Block
  /-- TAG, 0x0A0–0x0AF -/
  tag : Block
  /-- RK, 0x100–0x1EF -/
  rk : ByteString 240
  /-- IN, AUX and OUT -/
  mem : Memory
  /-- the pending command latch: empty in IDLE, full in BUSY (R30, R52) -/
  latch : Option Latch
  /-- the records the trace sink has received, oldest first (R205; log entry 15) -/
  trace : List TraceRecord
  /-- what the host and the scheduler do next, first to come first -/
  hostQueue : List HostEvent
  /-- the bus transactions the host has performed, oldest first -/
  hostLog : List Transaction
  /-- how many free values of `Config.freeByte` have been taken -/
  draws : Nat
  deriving DecidableEq, Repr

/-- The machine stops in a fault. -/
inductive Fault where
  /-- A command's BufRead touched a byte of IN or AUX that holds no value, at this offset of the buffer
  (R375, U1). Raised by the commands that read IN or AUX (the mode commands, GHASH, HMAC_SHA256,
  PBKDF2). Safe: the spec names this fault, and nothing of the command is written. -/
  | unwrittenBuffer (buffer : Buffer) (offset : Nat)
  deriving DecidableEq, Repr

/-- An instruction the model gives no meaning. -/
inductive Refusal where
  /-- Raised by `exec` for an instruction whose meaning is not written, named by its mnemonic. Safe: the
  machine stops. -/
  | notModelled (mnemonic : String)
  deriving DecidableEq, Repr

/-- CTRL after reset (R32). -/
def Ctrl.reset : Ctrl := { traceEn := false, irqEn := false }

/-- STATUS after reset (R34): every field 0. -/
def Status.reset : Status :=
  { done := false, err := false, ovr := false, keyValid := false, tagOk := false, saltGen := false,
    errCode := .none, nr := 0 }

/-- The core under a configuration right after reset (R55, R370): every register at its reset value, no byte
of a buffer holding a value, the latch empty. The model's own fields start empty (DESIGN CHOICE, log entries 2 and 4). -/
def State.resetWith (c : Config) : State :=
  { config := c
    ctrl := .reset
    lastCmd := 0
    status := .reset
    keyLen := 0
    ivLen := 0
    nonceLen := 0
    tweakLen := 0
    msgLen := 0
    auxLen := 0
    outLen := 0
    iter := Config.iterReset
    dkLen := 0
    gfA := 0
    gfB := 0
    gfR := 0
    key := Vector.replicate 32 0
    iv := Vector.replicate 16 0
    nonce := Vector.replicate 16 0
    tweak := Vector.replicate 16 0
    block := Vector.replicate 16 0
    tag := Vector.replicate 16 0
    rk := Vector.replicate 240 0
    mem := []
    latch := none
    trace := []
    hostQueue := []
    hostLog := []
    draws := 0 }

/-- The machine right after reset, with every parameter at its default (R9, R370). -/
def State.reset : State := .resetWith .default

end Sys2Proof.Machine
end

