-- ==== Sys2Proof/Machine/Flags.lean ====
section
/-! DEFINITION. STATUS and CTRL as the bus sees them, and every computation of a STATUS flag: accept, completion,
error, W1C, and the IRQ output (spec/10_state.md R32–R35, R57; spec/60_exceptions.md R331–R345). -/

namespace Sys2Proof.Machine

/-- The number of an error code (R331). -/
def ErrCode.code : ErrCode → BitVec 4
  | .none => 0
  | .invalidKeyLength => 1
  | .invalidHexInput => 2
  | .missingIV => 3
  | .missingNonce => 4
  | .missingTweak => 5
  | .paddingError => 6
  | .authenticationFailed => 7
  | .unsupportedMode => 8
  | .noKeySchedule => 9
  | .invalidParameter => 10

/-- One bit. -/
def bit (b : Bool) : BitVec 1 := BitVec.ofBool b

/-- CTRL as a bus value (R32): reserved bits read 0 (R53). -/
def Ctrl.word (c : Ctrl) : Word := (0 : BitVec 30) ++ bit c.irqEn ++ bit c.traceEn

/-- CTRL from a bus value (R32): writes to reserved bits are ignored (R53). -/
def Ctrl.ofWord (v : Word) : Ctrl := { traceEn := v.getLsbD 0, irqEn := v.getLsbD 1 }

/-- STATUS as a bus value (R34), BUSY given. -/
def Status.word (st : Status) (busy : Bool) : Word :=
  (0 : BitVec 12) ++ st.nr ++ (0 : BitVec 4) ++ st.errCode.code ++ (0 : BitVec 1) ++ bit st.saltGen ++
    bit st.tagOk ++ bit st.keyValid ++ bit st.ovr ++ bit st.err ++ bit st.done ++ bit busy

/-- A write of `v` to STATUS (R35): bits 1, 2 and 3 clear DONE, ERR and OVR; all other bits are ignored. -/
def Status.writeOneToClear (st : Status) (v : Word) : Status :=
  { st with
    done := st.done && !v.getLsbD 1
    err := st.err && !v.getLsbD 2
    ovr := st.ovr && !v.getLsbD 3 }

/-- The flags at accept (R334), less BUSY: KEY_VALID, NR and OVR are not changed. -/
def Status.accept (st : Status) : Status :=
  { st with done := false, err := false, errCode := .none, tagOk := false, saltGen := false }

/-- The flags at a completion without error (R335), less BUSY. -/
def Status.complete (st : Status) : Status := { st with done := true }

/-- The flags at a completion with an error (R335), less BUSY. -/
def Status.completeError (st : Status) (e : ErrCode) : Status :=
  { st with done := true, err := true, errCode := e }

/-- A CMD write was refused because BUSY was 1 (R334). -/
def Status.refuse (st : Status) : Status := { st with ovr := true }

/-- The flags a successful key expansion writes (R162). -/
def Status.expanded (st : Status) (rounds : BitVec 4) : Status :=
  { st with nr := rounds, keyValid := true }

/-- STATUS.BUSY: 1 from accept to completion, which is while the latch is full (R34, R52;
DEDUCED, log entry 3). -/
def State.busy (s : State) : Bool := s.latch.isSome

/-- STATUS as the bus reads it (R34). -/
def State.statusWord (s : State) : Word := s.status.word s.busy

/-- The IRQ output, a level: STATUS.DONE AND CTRL.IRQ_EN (R345). -/
def State.irq (s : State) : Bool := s.status.done && s.ctrl.irqEn

end Sys2Proof.Machine
end

