-- ==== Sys2Proof/Machine/Ops.lean ====
section
/-! DEFINITION. The named operations over memory and registers that every command shares: the buffers
(spec/20_memory.md R98), free draws, accept, completion and the raising of an error
(spec/60_exceptions.md R334, R335, R342). The core has no trap (R343): raising an error is the one way a
command ends other than success, and the host's next access is the only return from it (R344). -/

namespace Sys2Proof.Machine

/-- How a command ends. -/
abbrev Out := Host.Outcome State Fault Refusal

/-! ### Memory -/

/-- Offsets strictly rising: the canonical form. An unlisted offset holds no value, so no entry could equal
what an unlisted one reads as. -/
abbrev Memory.wf (m : Memory) : Prop := m.Pairwise (fun a b => a.1 < b.1)

/-- The byte at a core offset, none where it holds no value. -/
def Memory.get? : Memory → Nat → Option Byte
  | [], _ => none
  | (b, v) :: rest, a => if b = a then some v else Memory.get? rest a

/-- Store a byte at a core offset. -/
def Memory.set : Memory → Nat → Byte → Memory
  | [], a, v => [(a, v)]
  | (b, w) :: rest, a, v =>
    if a < b then (a, v) :: (b, w) :: rest
    else if a = b then (a, v) :: rest
    else (b, w) :: Memory.set rest a v

/-- Make the byte at a core offset hold no value. -/
def Memory.erase : Memory → Nat → Memory
  | [], _ => []
  | (b, w) :: rest, a => if b = a then rest else (b, w) :: Memory.erase rest a

/-- The bytes from `a` on, or the position of the first that holds no value. -/
def Memory.readFrom (m : Memory) (a : Nat) : (pos n : Nat) → Except Nat Bytes
  | _, 0 => .ok []
  | pos, n + 1 =>
    match m.get? (a + pos) with
    | none => .error pos
    | some v =>
      match Memory.readFrom m a (pos + 1) n with
      | .error e => .error e
      | .ok vs => .ok (v :: vs)

/-- Store a byte string from `a` on. -/
def Memory.writeFrom : Memory → Nat → Bytes → Memory
  | m, _, [] => m
  | m, a, v :: vs => Memory.writeFrom (m.set a v) (a + 1) vs

/-- Make `n` bytes from `a` on hold no value. -/
def Memory.eraseFrom : Memory → Nat → Nat → Memory
  | m, _, 0 => m
  | m, a, n + 1 => Memory.eraseFrom (m.erase a) (a + 1) n

/-! ### Buffers -/

/-- The core offset of a buffer's byte 0 (R49, R50, R51). -/
def Buffer.base : Buffer → Nat
  | .input => 0x2000
  | .aux => 0x4000
  | .output => 0x6000

/-- The bytes valid in a buffer (R49, R50, R51). -/
def Buffer.size (c : Config) : Buffer → Nat
  | .input => c.nIn
  | .aux => c.nAux
  | .output => c.nOut

/-- `BufRead(B, 0, n)` (R98): the first `n` bytes of a buffer, or the fault of R375 at the lowest offset that
holds no value (DEDUCED, log entry 7). -/
def State.bufRead (s : State) (b : Buffer) (n : Nat) : Except Fault Bytes :=
  match s.mem.readFrom b.base 0 n with
  | .ok vs => .ok vs
  | .error pos => .error (.unwrittenBuffer b pos)

/-- `BufWrite(B, 0, v)` (R98): every other byte is left. -/
def State.bufWrite (s : State) (b : Buffer) (v : Bytes) : State :=
  { s with mem := s.mem.writeFrom b.base v }

/-- The first `n` bytes of a buffer hold no value afterwards (spec/44_modes_basic.md R247). -/
def State.bufVoid (s : State) (b : Buffer) (n : Nat) : State :=
  { s with mem := s.mem.eraseFrom b.base n }

/-! ### Free draws -/

/-- Draw `k` from the free values not yet taken. -/
def State.draw (s : State) (k : Nat) : Byte := Config.freeByte (s.draws + k)

/-- Take `n` free values. -/
def State.drew (s : State) (n : Nat) : State := { s with draws := s.draws + n }

/-- `Draw16()`: one answer of the entropy source (R16, R311). -/
def State.draw16 (s : State) : Bytes := (List.range 16).map s.draw

/-! ### Accept, completion and errors -/

/-- Accept of a command word in IDLE (R334). -/
def State.accept (s : State) (cmd : Word) : State :=
  { s with
    lastCmd := cmd
    latch := some { word := cmd, traceEn := s.ctrl.traceEn }
    status := s.status.accept }

/-- A write to CMD (R334): refused while BUSY, else accepted. -/
def State.issue (s : State) (cmd : Word) : State :=
  if s.busy then { s with status := s.status.refuse } else s.accept cmd

/-- Completion without error (R335): the latch is discarded, so BUSY is 0. -/
def State.complete (s : State) : State :=
  { s with latch := none, status := s.status.complete }

/-- `raise Error(e)` and the completion that reports it (R335, R343): the one shared operation by which a
command ends in an error. What else the error leaves is already in `s` (R342). -/
def State.raise (s : State) (e : ErrCode) : State :=
  { s with latch := none, status := s.status.completeError e }

/-- The number of result bytes (R40). -/
def State.setOutLen (s : State) (n : Nat) : State := { s with outLen := BitVec.ofNat 16 n }

/-- An error of a command that writes OUT sets OUT_LEN to 0 (R40, R342). -/
def State.raiseOut (s : State) (e : ErrCode) : State := (s.setOutLen 0).raise e

/-- Completion of a command whose result goes to OUT (R230, R306, R312). -/
def State.completeOut (s : State) (out : Bytes) : State :=
  ((s.bufWrite .output out).setOutLen out.length).complete

/-! ### The trace port -/

/-- What the trace port lets through: a command's records if the latched trace enable is 1, else nothing
(R205, R334). -/
def State.traced (s : State) (rs : List TraceRecord) : List TraceRecord :=
  match s.latch with
  | some l => if l.traceEn then rs else []
  | none => []

/-- `Emit` of a command's records, in order (R16, R205). -/
def State.emit (s : State) (rs : List TraceRecord) : State :=
  { s with trace := s.trace ++ s.traced rs }

end Sys2Proof.Machine
end

