-- ==== Sys2Proof/Machine/Operands.lean ====
section
/-! DEFINITION. Operands: byte strings and their integer views (spec/00_scope.md R12, R14), the checks a command
makes of its operands and their order (spec/60_exceptions.md R340), and which state each command writes
(spec/10_state.md R56). -/

namespace Sys2Proof.Machine

/-! ### Byte strings -/

/-- Byte `i` of a string; 0 beyond its end, where no rule reads (DESIGN CHOICE, log entry 12). -/
def byteAt (b : Bytes) (i : Nat) : Byte := b.getD i 0

/-- The fixed-length string whose byte `i` is `f i`. -/
def byteString {n : Nat} (f : Fin n → Byte) : ByteString n := ⟨(List.ofFn f).toArray, by simp⟩

/-- The first `n` bytes of a string as a fixed-length string. -/
def ofBytes (n : Nat) (b : Bytes) : ByteString n := byteString fun i => byteAt b i

/-- A fixed-length string as a byte string. -/
def bytesOf {n : Nat} (v : ByteString n) : Bytes := v.toList

/-- `0^n`, `n` zero bytes (R12). -/
def zeros (n : Nat) : Bytes := List.replicate n 0

/-- The block `0^128`. -/
def zeroBlock : Block := Vector.replicate 16 0

/-- Bytewise XOR of strings of one fixed length (R12). -/
def xorV {n : Nat} (a b : ByteString n) : ByteString n := byteString fun i => a[i] ^^^ b[i]

/-- `a XOR_t b`: bytewise XOR, cut to the shorter string (spec/44_modes_basic.md R236). On strings of equal
length it is XOR (R12). -/
def xorT (a b : Bytes) : Bytes := List.zipWith (· ^^^ ·) a b

/-- `BE(s)` as the number of `n` bits: the most significant byte first (R14). -/
def beValue (n : Nat) (b : Bytes) : BitVec n :=
  b.foldl (fun acc x => (acc <<< 8) ||| x.setWidth n) 0

/-- `BE_n(v)`: the `n`-byte big-endian string of `v mod 2^(8n)` (R14). -/
def beBytes : (n : Nat) → (v : Nat) → Bytes
  | 0, _ => []
  | n + 1, v => BitVec.ofNat 8 (v / 2 ^ (8 * n)) :: beBytes n v

/-- `LE(s)` as the number of `n` bits: the least significant byte first (R14). -/
def leValue (n : Nat) (b : Bytes) : BitVec n := beValue n b.reverse

/-- `LE_n(v)`: the `n`-byte little-endian string of `v mod 2^(8n)` (R14). -/
def leBytes (n v : Nat) : Bytes := (beBytes n v).reverse

/-- A block from its big-endian integer. -/
def blockOfBe (v : BitVec 128) : Block := ofBytes 16 (beBytes 16 v.toNat)

/-- A block from its little-endian integer. -/
def blockOfLe (v : BitVec 128) : Block := ofBytes 16 (leBytes 16 v.toNat)

/-- The big-endian integer of a block. -/
def blockBe (b : Block) : BitVec 128 := beValue 128 (bytesOf b)

/-- The little-endian integer of a block. -/
def blockLe (b : Block) : BitVec 128 := leValue 128 (bytesOf b)

/-- `m_i = m[16i : min(16i + 16, n)]` for `i` in `0 .. ceil(n/16) - 1` (spec/44_modes_basic.md R231). -/
def partition (m : Bytes) : List Bytes :=
  (List.range ((m.length + 15) / 16)).map fun i => (m.drop (16 * i)).take 16

/-- The blocks of a message whose length is a multiple of 16. -/
def blocks (m : Bytes) : List Block := (partition m).map (ofBytes 16)

/-- The concatenation of blocks. -/
def concat (bs : List Block) : Bytes := bs.flatMap bytesOf

/-! ### Register operands -/

/-- The key in use, `KEY[0 : KEY_LEN]` (R44). -/
def State.keyBytes (s : State) : Bytes := (bytesOf s.key).take s.keyLen.toNat

/-- GCM's nonce, `IV[0 : IV_LEN]` (spec/45_modes_xts_gcm.md R277). -/
def State.ivBytes (s : State) : Bytes := (bytesOf s.iv).take s.ivLen.toNat

/-! ### The checks of a command -/

/-- The checks of R340, steps 2 to 6, each of one condition. -/
inductive Check where
  /-- 2: KEY_LEN is 16, 24 or 32 -/
  | keyLength
  /-- 3a: KEY_VALID = 1 -/
  | keySchedule
  /-- 3b: ROUND ≤ NR -/
  | round (r : Nat)
  /-- 4a: MSG_LEN ≤ N_IN -/
  | msgFits
  /-- 4b: AUX_LEN ≤ N_AUX -/
  | auxFits
  /-- 4c: ITER ≥ 1 and 1 ≤ DKLEN ≤ N_OUT -/
  | kdfParameters
  /-- 5a: IV_LEN ≠ 0 -/
  | ivPresent
  /-- 5b: NONCE_LEN ≠ 0 -/
  | noncePresent
  /-- 5c: TWEAK_LEN ≠ 0 -/
  | tweakPresent
  /-- 6a: IV_LEN = 16 -/
  | ivIs16
  /-- 6b: IV_LEN ≤ 16 -/
  | ivAtMost16
  /-- 6c: NONCE_LEN = 16 -/
  | nonceIs16
  /-- 6d: TWEAK_LEN = 16 -/
  | tweakIs16
  /-- 6e: MSG_LEN mod 16 = 0 -/
  | msgAligned
  /-- 6f: MSG_LEN ≠ 0 -/
  | msgNonempty
  deriving DecidableEq, Repr

/-- The condition of a check (R340). -/
def Check.passes (s : State) : Check → Bool
  | .keyLength => s.keyLen == 16 || s.keyLen == 24 || s.keyLen == 32
  | .keySchedule => s.status.keyValid
  | .round r => decide (r ≤ s.status.nr.toNat)
  | .msgFits => decide (s.msgLen.toNat ≤ s.config.nIn)
  | .auxFits => decide (s.auxLen.toNat ≤ s.config.nAux)
  | .kdfParameters =>
    decide (1 ≤ s.iter.toNat) && decide (1 ≤ s.dkLen.toNat) && decide (s.dkLen.toNat ≤ s.config.nOut)
  | .ivPresent => s.ivLen != 0
  | .noncePresent => s.nonceLen != 0
  | .tweakPresent => s.tweakLen != 0
  | .ivIs16 => s.ivLen == 16
  | .ivAtMost16 => decide (s.ivLen.toNat ≤ 16)
  | .nonceIs16 => s.nonceLen == 16
  | .tweakIs16 => s.tweakLen == 16
  | .msgAligned => decide (s.msgLen.toNat % 16 = 0)
  | .msgNonempty => s.msgLen != 0

/-- The error a failed check raises (R340). -/
def Check.error : Check → ErrCode
  | .keyLength => .invalidKeyLength
  | .keySchedule => .noKeySchedule
  | .round _ => .invalidParameter
  | .msgFits | .auxFits | .kdfParameters => .invalidParameter
  | .ivPresent => .missingIV
  | .noncePresent => .missingNonce
  | .tweakPresent => .missingTweak
  | .ivIs16 | .ivAtMost16 | .nonceIs16 | .tweakIs16 => .invalidHexInput
  | .msgAligned | .msgNonempty => .invalidHexInput

/-- The error of the first check that fails; no later check is made (R340, R341). -/
def firstError (s : State) : List Check → Option ErrCode
  | [] => none
  | c :: cs => if c.passes s then firstError s cs else some c.error

/-- The checks of a command in the order of R340. The GF commands and the six round transforms other than
ADD_ROUND_KEY pass every step. -/
def checks : Instr → List Check
  | .gfMul | .gfInv | .sboxFwd | .sboxInv => []
  | .keyExpand => [.keyLength]
  | .subBytes | .invSubBytes | .shiftRows | .invShiftRows | .mixColumns | .invMixColumns => []
  | .addRoundKey r => [.keySchedule, .round r]
  | .encBlock | .decBlock => [.keyLength]
  | .ecbEnc | .ecbDec => [.keyLength, .msgFits, .msgAligned]
  | .cbcEnc => [.keyLength, .msgFits, .ivPresent, .ivIs16]
  | .cbcDec => [.keyLength, .msgFits, .ivPresent, .ivIs16, .msgAligned, .msgNonempty]
  | .ctrEnc | .ctrDec => [.keyLength, .msgFits, .noncePresent, .nonceIs16]
  | .cfbEnc | .cfbDec | .ofbEnc | .ofbDec => [.keyLength, .msgFits, .ivPresent, .ivIs16]
  | .xtsEnc | .xtsDec => [.keyLength, .msgFits, .tweakPresent, .tweakIs16, .msgAligned]
  | .gcmEnc | .gcmDec => [.keyLength, .msgFits, .auxFits, .ivPresent, .ivAtMost16]
  | .ghash => [.keyLength, .msgFits]
  | .hmacSha256 => [.msgFits, .auxFits]
  | .pbkdf2 => [.msgFits, .auxFits, .kdfParameters]

/-- The command writes OUT and OUT_LEN (R56, R342): the mode commands, HMAC_SHA256 and PBKDF2. -/
def writesOut : Instr → Bool
  | .gfMul | .gfInv | .sboxFwd | .sboxInv | .keyExpand => false
  | .subBytes | .invSubBytes | .shiftRows | .invShiftRows | .mixColumns | .invMixColumns => false
  | .addRoundKey _ | .encBlock | .decBlock => false
  | .ecbEnc | .ecbDec | .cbcEnc | .cbcDec | .ctrEnc | .ctrDec | .cfbEnc | .cfbDec => true
  | .ofbEnc | .ofbDec | .xtsEnc | .xtsDec | .gcmEnc | .gcmDec => true
  | .ghash => false
  | .hmacSha256 | .pbkdf2 => true

/-- The command expands KEY (R162, R163, R167). -/
def expands : Instr → Bool
  | .gfMul | .gfInv | .sboxFwd | .sboxInv => false
  | .keyExpand => true
  | .subBytes | .invSubBytes | .shiftRows | .invShiftRows | .mixColumns | .invMixColumns => false
  | .addRoundKey _ => false
  | .encBlock | .decBlock => true
  | .ecbEnc | .ecbDec | .cbcEnc | .cbcDec | .ctrEnc | .ctrDec | .cfbEnc | .cfbDec => true
  | .ofbEnc | .ofbDec | .xtsEnc | .xtsDec | .gcmEnc | .gcmDec => true
  | .ghash => true
  | .hmacSha256 | .pbkdf2 => false

/-- Run a command's checks (R340): on the first that fails the command ends with its error and the state
of R342, else it executes. -/
def withChecks (i : Instr) (s : State) (execute : State → Out) : Out :=
  match firstError s (checks i) with
  | some e => .next (if writesOut i then s.raiseOut e else s.raise e)
  | none => execute s

/-! ### What a running command writes -/

/-- The locations a command writes that the host can read (R56), STATUS apart. -/
inductive Result where
  | gfR
  | rk
  | block
  | out
  | outLen
  | tag
  /-- IN[0:16] -/
  | salt
  | msgLen
  deriving DecidableEq, Repr

/-- R56, the column "writes". For PBKDF2, IN[0:16] and MSG_LEN are listed as R373 lists them, whether or not
a salt is generated (DEDUCED, log entry 6). -/
def results : Instr → List Result
  | .gfMul | .gfInv | .sboxFwd | .sboxInv => [.gfR]
  | .keyExpand => [.rk]
  | .subBytes | .invSubBytes | .shiftRows | .invShiftRows | .mixColumns | .invMixColumns => [.block]
  | .addRoundKey _ => [.block]
  | .encBlock | .decBlock => [.rk, .block]
  | .ecbEnc | .ecbDec | .cbcEnc | .cbcDec | .ctrEnc | .ctrDec | .cfbEnc | .cfbDec => [.rk, .out, .outLen]
  | .ofbEnc | .ofbDec | .xtsEnc | .xtsDec => [.rk, .out, .outLen]
  | .gcmEnc => [.rk, .out, .outLen, .tag]
  | .gcmDec => [.rk, .out, .outLen]
  | .ghash => [.rk, .tag]
  | .hmacSha256 => [.out, .outLen]
  | .pbkdf2 => [.out, .outLen, .salt, .msgLen]

/-- The locations the running command writes: none in IDLE, none for an illegal word (R116). -/
def State.running (s : State) : List Result :=
  match s.latch with
  | none => []
  | some l =>
    match decode l.word with
    | .ok i => results i
    | .error _ => []

end Sys2Proof.Machine
end

