-- ==== Sys2Proof/Machine/Bus.lean ====
section
/-! DEFINITION. The host bus: the address map, reads and writes, and what BUSY changes about them
(spec/20_memory.md; spec/10_state.md R31–R54; spec/70_reset_and_hazards.md R372, R373). -/

namespace Sys2Proof.Machine

/-- The core offset of a platform address inside the core's 32 KiB frame (R80); none for an address that
does not select the core (CORE_BASE is OPEN: log entry 11). -/
def offsetOfPlatform (a : Nat) : Option (BitVec 15) :=
  if Config.coreBase ≤ a ∧ a < Config.coreBase + 0x8000 then
    some (BitVec.ofNat 15 (a - Config.coreBase))
  else none

/-! ### The address map -/

/-- The control registers, in the order of their offsets 0x000, 0x004, … 0x03C (R31–R43). -/
inductive CtrlReg where
  | id
  | ctrl
  | cmd
  | status
  | keyLen
  | ivLen
  | nonceLen
  | tweakLen
  | msgLen
  | auxLen
  | outLen
  | iter
  | dkLen
  | gfA
  | gfB
  | gfR
  deriving DecidableEq, Repr

/-- The control register at an offset below 0x40 (R55). -/
def ctrlRegAt (a : Nat) : CtrlReg :=
  match a / 4 with
  | 0 => .id
  | 1 => .ctrl
  | 2 => .cmd
  | 3 => .status
  | 4 => .keyLen
  | 5 => .ivLen
  | 6 => .nonceLen
  | 7 => .tweakLen
  | 8 => .msgLen
  | 9 => .auxLen
  | 10 => .outLen
  | 11 => .iter
  | 12 => .dkLen
  | 13 => .gfA
  | 14 => .gfB
  | _ => .gfR

/-- A byte of the byte regions (R44–R51). -/
inductive ByteLoc where
  | key (i : Fin 32)
  | iv (i : Fin 16)
  | nonce (i : Fin 16)
  | tweak (i : Fin 16)
  | block (i : Fin 16)
  | tag (i : Fin 16)
  | rk (i : Fin 240)
  | buf (b : Buffer) (i : Nat)
  deriving DecidableEq, Repr

/-- `some (f (a - lo))` for an offset of a region of `n` bytes at `lo`. -/
def inRegion (a lo n : Nat) (f : Fin n → ByteLoc) : Option ByteLoc :=
  if h : lo ≤ a ∧ a - lo < n then some (f ⟨a - lo, h.2⟩) else none

/-- The byte of a buffer at an offset, if the offset is one of its valid bytes. -/
def inBuffer (c : Config) (a : Nat) (b : Buffer) : Option ByteLoc :=
  if b.base ≤ a ∧ a - b.base < b.size c then some (.buf b (a - b.base)) else none

/-- The byte at a core offset from 0x40 on; none for a reserved offset (R81, R87). -/
def byteLocAt (c : Config) (a : Nat) : Option ByteLoc :=
  inRegion a 0x40 32 .key <|> inRegion a 0x60 16 .iv <|> inRegion a 0x70 16 .nonce <|>
    inRegion a 0x80 16 .tweak <|> inRegion a 0x90 16 .block <|> inRegion a 0xA0 16 .tag <|>
    inRegion a 0x100 240 .rk <|>
    inBuffer c a .input <|> inBuffer c a .aux <|> inBuffer c a .output

/-- The locations of a run of `n` offsets; none if any is reserved. -/
def byteLocsFrom (c : Config) : (a n : Nat) → Option (List ByteLoc)
  | _, 0 => some []
  | a, n + 1 =>
    match byteLocAt c a, byteLocsFrom c (a + 1) n with
    | some l, some ls => some (l :: ls)
    | _, _ => none

/-- A transaction has a legal width and is aligned (R82, R85). -/
def legalShape (a width : Nat) : Bool :=
  (width == 1 || width == 2 || width == 4) && a % width == 0

/-- Where an access goes. -/
inductive Target where
  /-- one whole control register (R86) -/
  | ctrl (r : CtrlReg)
  /-- the bytes of a byte region, lowest offset first (R83) -/
  | bytes (ls : List ByteLoc)
  /-- nowhere: misaligned, of a wrong width, narrow on a control register, or reserved (R85–R87) -/
  | slverr
  deriving DecidableEq, Repr

/-- Where an access at an offset, of a width in bytes, goes. -/
def target (c : Config) (a width : Nat) : Target :=
  if legalShape a width then
    if a < 0x40 then
      if width = 4 then .ctrl (ctrlRegAt a) else .slverr
    else
      match byteLocsFrom c a width with
      | some ls => .bytes ls
      | none => .slverr
  else .slverr

/-! ### Reading -/

/-- A control register as a bus value: bits it does not have read 0 (R53). -/
def State.readCtrl (s : State) : CtrlReg → Word
  | .id => Config.idValue
  | .ctrl => s.ctrl.word
  | .cmd => s.lastCmd
  | .status => s.statusWord
  | .keyLen => s.keyLen.setWidth 32
  | .ivLen => s.ivLen.setWidth 32
  | .nonceLen => s.nonceLen.setWidth 32
  | .tweakLen => s.tweakLen.setWidth 32
  | .msgLen => s.msgLen.setWidth 32
  | .auxLen => s.auxLen.setWidth 32
  | .outLen => s.outLen.setWidth 32
  | .iter => s.iter
  | .dkLen => s.dkLen.setWidth 32
  | .gfA => s.gfA.setWidth 32
  | .gfB => s.gfB.setWidth 32
  | .gfR => s.gfR.setWidth 32

/-- The byte at a location; none if it holds no value (R49–R51). -/
def State.readByte (s : State) : ByteLoc → Option Byte
  | .key i => some s.key[i]
  | .iv i => some s.iv[i]
  | .nonce i => some s.nonce[i]
  | .tweak i => some s.tweak[i]
  | .block i => some s.block[i]
  | .tag i => some s.tag[i]
  | .rk i => some s.rk[i]
  | .buf b i => s.mem.get? (b.base + i)

/-- The running command writes this control register, so its value is unspecified while BUSY (R373). The
bytes of its field that are then free: MSG_LEN and OUT_LEN have two, GF_R one; its reserved bits read 0
(DEDUCED, log entry 6). -/
def State.unspecifiedCtrl (s : State) : CtrlReg → Nat
  | .outLen => if .outLen ∈ s.running then 2 else 0
  | .msgLen => if .msgLen ∈ s.running then 2 else 0
  | .gfR => if .gfR ∈ s.running then 1 else 0
  | .id | .ctrl | .cmd | .status => 0
  | .keyLen | .ivLen | .nonceLen | .tweakLen | .auxLen => 0
  | .iter | .dkLen | .gfA | .gfB => 0

/-- The running command writes this byte, so its value is unspecified while BUSY (R373). -/
def State.unspecifiedByte (s : State) : ByteLoc → Bool
  | .rk _ => .rk ∈ s.running
  | .block _ => .block ∈ s.running
  | .tag _ => .tag ∈ s.running
  | .buf .output _ => .out ∈ s.running
  | .buf .input i => .salt ∈ s.running && decide (i < 16)
  | .buf .aux _ => false
  | .key _ | .iv _ | .nonce _ | .tweak _ => false

/-- The byte a host read returns, none where it is a free draw: it holds no value (R88), or the running
command writes it (R373). -/
def State.hostByte (s : State) (l : ByteLoc) : Option Byte :=
  if s.unspecifiedByte l then none else s.readByte l

/-- `Σ byte(k) << 8k`: the bus value of bytes, lane 0 first (R83). -/
def lanesValue (bs : Bytes) : Word := leValue 32 bs

/-- Lane `k` of a bus value, `(v >> 8k) & 0xFF` (R83). -/
def lane (v : Word) (k : Nat) : Byte := (v >>> (8 * k)).setWidth 8

/-- The data of a read of bytes: lane `k` is the byte, or the `k`-th free value not yet taken (FREE VALUE, log
entry 2). -/
def State.readLanes (s : State) (ls : List ByteLoc) : Bytes :=
  ls.zipIdx.map fun x => (s.hostByte x.1).getD (s.draw x.2)

/-- A read of a byte region (R83). Free values are taken only if some byte needs one. -/
def State.readBytes (s : State) (ls : List ByteLoc) : State × Reply :=
  ( if ls.all (fun l => (s.hostByte l).isSome) then s else s.drew ls.length,
    { resp := .okay, data := some (lanesValue (s.readLanes ls)) } )

/-- A read of a control register, whose field is a free draw where R373 says so. -/
def State.readReg (s : State) (r : CtrlReg) : State × Reply :=
  ( s.drew (s.unspecifiedCtrl r),
    { resp := .okay
      data := some
        (if s.unspecifiedCtrl r = 0 then s.readCtrl r
         else lanesValue ((List.range (s.unspecifiedCtrl r)).map s.draw)) } )

/-- `MemRead(addr, n)` (R82–R88): a refused read returns data 0. -/
def State.busRead (s : State) (a width : Nat) : State × Reply :=
  match target s.config a width with
  | .ctrl r => s.readReg r
  | .bytes ls => s.readBytes ls
  | .slverr => (s, { resp := .slverr, data := some 0 })

/-! ### Writing -/

/-- A write of an operand register, in IDLE: bits the register does not have are ignored (R53). ID, OUT_LEN
and GF_R are read-only (R54); CTRL, CMD and STATUS are handled before. -/
def State.writeOperand (s : State) (v : Word) : CtrlReg → State
  | .keyLen => { s with keyLen := v.setWidth 8 }
  | .ivLen => { s with ivLen := v.setWidth 8 }
  | .nonceLen => { s with nonceLen := v.setWidth 8 }
  | .tweakLen => { s with tweakLen := v.setWidth 8 }
  | .msgLen => { s with msgLen := v.setWidth 16 }
  | .auxLen => { s with auxLen := v.setWidth 16 }
  | .iter => { s with iter := v }
  | .dkLen => { s with dkLen := v.setWidth 16 }
  | .gfA => { s with gfA := v.setWidth 8 }
  | .gfB => { s with gfB := v.setWidth 8 }
  | .id | .outLen | .gfR => s
  | .ctrl | .cmd | .status => s

/-- A write of a control register: CTRL, CMD and STATUS take effect in IDLE and in BUSY (R372), every
other write is dropped while BUSY. -/
def State.writeCtrl (s : State) (v : Word) : CtrlReg → State
  | .ctrl => { s with ctrl := .ofWord v }
  | .cmd => s.issue v
  | .status => { s with status := s.status.writeOneToClear v }
  | r => if s.busy then s else s.writeOperand v r

/-- A write of one byte, in IDLE. RK and OUT are read-only (R48, R51, R54). -/
def State.writeByte (s : State) (v : Byte) : ByteLoc → State
  | .key i => { s with key := s.key.set i v }
  | .iv i => { s with iv := s.iv.set i v }
  | .nonce i => { s with nonce := s.nonce.set i v }
  | .tweak i => { s with tweak := s.tweak.set i v }
  | .block i => { s with block := s.block.set i v }
  | .tag i => { s with tag := s.tag.set i v }
  | .rk _ => s
  | .buf .input i => { s with mem := s.mem.set (Buffer.input.base + i) v }
  | .buf .aux i => { s with mem := s.mem.set (Buffer.aux.base + i) v }
  | .buf .output _ => s

/-- A write of bytes, lane 0 first (R83), dropped while BUSY (R372). -/
def State.writeBytes (s : State) (v : Word) (ls : List ByteLoc) : State :=
  if s.busy then s
  else ls.zipIdx.foldl (fun s x => s.writeByte (lane v x.2) x.1) s

/-- `MemWrite(addr, n, v)` (R82–R87). -/
def State.busWrite (s : State) (a width : Nat) (v : Word) : State × Reply :=
  match target s.config a width with
  | .ctrl r => (s.writeCtrl v r, { resp := .okay, data := none })
  | .bytes ls => (s.writeBytes v ls, { resp := .okay, data := none })
  | .slverr => (s, { resp := .slverr, data := none })

/-- One bus transaction, performed completely before the next (R82, R93); the host keeps it with its
reply. -/
def State.access (s : State) (a : Access) : State :=
  let r := match a with
    | .read offset width => s.busRead offset.toNat width
    | .write offset width value => s.busWrite offset.toNat width value
  { r.1 with hostLog := r.1.hostLog ++ [{ access := a, reply := r.2 }] }

end Sys2Proof.Machine
end

