-- ==== Sys2Proof/Machine/KeySchedule.lean ====
section
/-! DEFINITION. The key schedule (KSA) and KEY_EXPAND (spec/41_key_schedule.md). -/

namespace Sys2Proof.Machine

/-- `RotWord` (R164). -/
def rotWord (w : KeyWord) : KeyWord := #v[w[1], w[2], w[3], w[0]]

/-- `SubWord` (R165). -/
def subWord (w : KeyWord) : KeyWord := #v[sbox w[0], sbox w[1], sbox w[2], sbox w[3]]

/-- `x^k` in GF(2^8) by repeated doubling. -/
def xPower : Nat → Byte
  | 0 => 0x01
  | k + 1 => gmul (xPower k) 0x02

/-- `Rcon[j] = x^(j-1)` for `j ≥ 1` (R166). -/
def rcon (j : Nat) : Byte := xPower (j - 1)

/-- `T` of R160: what is XORed into `w[i - Nk]` to make `w[i]`, from `t = w[i - 1]`. -/
def scheduleStep (nk i : Nat) (t : KeyWord) : KeyWord :=
  if i % nk = 0 then xorV (subWord (rotWord t)) #v[rcon (i / nk), 0, 0, 0]
  else if nk = 8 ∧ i % 8 = 4 then subWord t
  else t

/-- Word `j` of a list of words. -/
def wordAt (ws : List KeyWord) (j : Nat) : KeyWord := ws.getD j (Vector.replicate 4 0)

/-- Extend a schedule by `n` words (R160). The words so far are held last one first, so `w[i - 1]` is word 0
of the list and `w[i - Nk]` is word `Nk - 1`. -/
def extendSchedule (nk : Nat) : (n : Nat) → (ws : List KeyWord) → List KeyWord
  | 0, ws => ws
  | n + 1, ws =>
    extendSchedule nk n (xorV (wordAt ws (nk - 1)) (scheduleStep nk ws.length (wordAt ws 0)) :: ws)

/-- The first Nk words, `w[i] = key[4i : 4i+4]` (R160). -/
def keyWords (nk : Nat) (key : Bytes) : List KeyWord :=
  (List.range nk).map fun i => ofBytes 4 (key.drop (4 * i))

/-- The number of rounds of a key of `4·Nk` bytes (R10, R160). -/
def roundsOf (nk : Nat) : Nat := nk + 6

/-- The words `w[0] .. w[4·(Nr+1) - 1]` of a key (R160). -/
def expandWords (key : Bytes) : List KeyWord :=
  let nk := key.length / 4
  (extendSchedule nk (4 * (roundsOf nk + 1) - nk) (keyWords nk key).reverse).reverse

/-- The schedule of a key as bytes (R160). -/
def expandKey (key : Bytes) : Bytes := (expandWords key).flatMap bytesOf

/-- A successful expansion of KEY[0 : KEY_LEN] writes RK, NR and KEY_VALID (R162). Bytes of RK past the
schedule become 0 (R48). -/
def State.expand (s : State) : State :=
  { s with
    rk := ofBytes 240 (expandKey s.keyBytes)
    status := s.status.expanded (BitVec.ofNat 4 (roundsOf (s.keyBytes.length / 4))) }

/-- KEY_EXPAND (R167). -/
def execKeyExpand (s : State) : Out :=
  withChecks .keyExpand s fun s => .next s.expand.complete

end Sys2Proof.Machine
end

