-- ==== Sys2Proof/Machine/RoundTransform.lean ====
section
/-! DEFINITION. The round transforms and the seven commands of unit 0x3 (spec/42_round_transform.md). -/

namespace Sys2Proof.Machine

/-- `SubBytes` (R180). -/
def subBytes (s : Block) : Block := byteString fun k => sbox s[k]

/-- `InvSubBytes` (R181). -/
def invSubBytes (s : Block) : Block := byteString fun k => invSbox s[k]

/-- `ShiftRows` (R182), in the byte form of the rule: row `r` moves left by `r` places. -/
def shiftRows (s : Block) : Block :=
  #v[s[0], s[5], s[10], s[15], s[4], s[9], s[14], s[3],
     s[8], s[13], s[2], s[7], s[12], s[1], s[6], s[11]]

/-- `InvShiftRows` (R183), in the byte form of the rule: row `r` moves right by `r` places. -/
def invShiftRows (s : Block) : Block :=
  #v[s[0], s[13], s[10], s[7], s[4], s[1], s[14], s[11],
     s[8], s[5], s[2], s[15], s[12], s[9], s[6], s[3]]

/-- The block of four columns (R15). -/
def ofColumns (c0 c1 c2 c3 : KeyWord) : Block :=
  #v[c0[0], c0[1], c0[2], c0[3], c1[0], c1[1], c1[2], c1[3],
     c2[0], c2[1], c2[2], c2[3], c3[0], c3[1], c3[2], c3[3]]

/-- Apply a function to every column `s[4c .. 4c+3]`, row 0 first (R15). -/
def onColumns (f : KeyWord → KeyWord) (s : Block) : Block :=
  ofColumns (f #v[s[0], s[1], s[2], s[3]]) (f #v[s[4], s[5], s[6], s[7]])
    (f #v[s[8], s[9], s[10], s[11]]) (f #v[s[12], s[13], s[14], s[15]])

/-- One column of `MixColumns` (R184). -/
def mixColumn (a : KeyWord) : KeyWord :=
  #v[gmul 0x02 a[0] ^^^ gmul 0x03 a[1] ^^^ gmul 0x01 a[2] ^^^ gmul 0x01 a[3],
     gmul 0x01 a[0] ^^^ gmul 0x02 a[1] ^^^ gmul 0x03 a[2] ^^^ gmul 0x01 a[3],
     gmul 0x01 a[0] ^^^ gmul 0x01 a[1] ^^^ gmul 0x02 a[2] ^^^ gmul 0x03 a[3],
     gmul 0x03 a[0] ^^^ gmul 0x01 a[1] ^^^ gmul 0x01 a[2] ^^^ gmul 0x02 a[3]]

/-- One column of `InvMixColumns` (R185). -/
def invMixColumn (a : KeyWord) : KeyWord :=
  #v[gmul 0x0E a[0] ^^^ gmul 0x0B a[1] ^^^ gmul 0x0D a[2] ^^^ gmul 0x09 a[3],
     gmul 0x09 a[0] ^^^ gmul 0x0E a[1] ^^^ gmul 0x0B a[2] ^^^ gmul 0x0D a[3],
     gmul 0x0D a[0] ^^^ gmul 0x09 a[1] ^^^ gmul 0x0E a[2] ^^^ gmul 0x0B a[3],
     gmul 0x0B a[0] ^^^ gmul 0x0D a[1] ^^^ gmul 0x09 a[2] ^^^ gmul 0x0E a[3]]

/-- `MixColumns` (R184). -/
def mixColumns (s : Block) : Block := onColumns mixColumn s

/-- `InvMixColumns` (R185). -/
def invMixColumns (s : Block) : Block := onColumns invMixColumn s

/-- Round key `r` of a schedule, `RK[16r : 16r+16]` (R48, R186). -/
def roundKey (rk : ByteString 240) (r : Nat) : Block :=
  byteString fun k => rk[16 * r + k.val]?.getD 0

/-- `AddRoundKey(s, r)` (R186). -/
def addRoundKey (rk : ByteString 240) (r : Nat) (s : Block) : Block := xorV s (roundKey rk r)

/-- A round-transform command: STATE is replaced, then the command completes (section 2). -/
def State.writeBlock (s : State) (b : Block) : Out := .next ({ s with block := b } : State).complete

/-- SUB_BYTES (R187). -/
def execSubBytes (s : State) : Out := s.writeBlock (subBytes s.block)

/-- INV_SUB_BYTES (R188). -/
def execInvSubBytes (s : State) : Out := s.writeBlock (invSubBytes s.block)

/-- SHIFT_ROWS (R189). -/
def execShiftRows (s : State) : Out := s.writeBlock (shiftRows s.block)

/-- INV_SHIFT_ROWS (R190). -/
def execInvShiftRows (s : State) : Out := s.writeBlock (invShiftRows s.block)

/-- MIX_COLUMNS (R191). -/
def execMixColumns (s : State) : Out := s.writeBlock (mixColumns s.block)

/-- INV_MIX_COLUMNS (R192). -/
def execInvMixColumns (s : State) : Out := s.writeBlock (invMixColumns s.block)

/-- ADD_ROUND_KEY (R193): RK is used as it stands. -/
def execAddRoundKey (round : Nat) (s : State) : Out :=
  withChecks (.addRoundKey round) s fun s => s.writeBlock (addRoundKey s.rk round s.block)

end Sys2Proof.Machine
end

