-- ==== Sys2Proof/Machine/BlockCore.lean ====
section
/-! DEFINITION. The block cipher core, its round loop and the round trace (spec/43_block_core.md). -/

namespace Sys2Proof.Machine

/-- One stage of the round loop: its round label and its transform (R200). -/
structure Stage where
  round : Nat
  op : TraceOp
  deriving DecidableEq, Repr

/-- What a stage does to the state. The INPUT pseudo-stage does nothing (R206). -/
def Stage.apply (rk : ByteString 240) (g : Stage) (s : Block) : Block :=
  match g.op with
  | .subBytes => subBytes s
  | .shiftRows => shiftRows s
  | .mixColumns => mixColumns s
  | .addRoundKey => addRoundKey rk g.round s
  | .invSubBytes => invSubBytes s
  | .invShiftRows => invShiftRows s
  | .invMixColumns => invMixColumns s
  | .input => s

/-- A full round of encryption (R201). -/
def fullRound (r : Nat) : List Stage :=
  [⟨r, .subBytes⟩, ⟨r, .shiftRows⟩, ⟨r, .mixColumns⟩, ⟨r, .addRoundKey⟩]

/-- A full round of decryption (R202). -/
def invFullRound (r : Nat) : List Stage :=
  [⟨r, .invShiftRows⟩, ⟨r, .invSubBytes⟩, ⟨r, .addRoundKey⟩, ⟨r, .invMixColumns⟩]

/-- The stages of encryption with `nr` rounds (R201): round 0, the full rounds 1 .. Nr-1, the final round. -/
def encryptStages (nr : Nat) : List Stage :=
  ⟨0, .addRoundKey⟩ :: (List.range (nr - 1)).flatMap (fun i => fullRound (i + 1)) ++
    [⟨nr, .subBytes⟩, ⟨nr, .shiftRows⟩, ⟨nr, .addRoundKey⟩]

/-- The stages of decryption with `nr` rounds (R202): round Nr, the full rounds Nr-1 down to 1, the last
stages, labelled 0. -/
def decryptStages (nr : Nat) : List Stage :=
  ⟨nr, .addRoundKey⟩ :: (List.range (nr - 1)).reverse.flatMap (fun i => invFullRound (i + 1)) ++
    [⟨0, .invShiftRows⟩, ⟨0, .invSubBytes⟩, ⟨0, .addRoundKey⟩]

/-- Run stages over a state. -/
def runStages (rk : ByteString 240) (gs : List Stage) (s : Block) : Block :=
  gs.foldl (fun s g => g.apply rk s) s

/-- `Encrypt(b)` under a schedule (R201). -/
def encrypt (rk : ByteString 240) (nr : Nat) (b : Block) : Block := runStages rk (encryptStages nr) b

/-- `Decrypt(b)` under a schedule (R202). -/
def decrypt (rk : ByteString 240) (nr : Nat) (b : Block) : Block := runStages rk (decryptStages nr) b

/-- `E(b)` under the schedule a state holds (R16). -/
def State.E (s : State) (b : Block) : Block := encrypt s.rk s.status.nr.toNat b

/-- `D(b)` under the schedule a state holds (R16). -/
def State.D (s : State) (b : Block) : Block := decrypt s.rk s.status.nr.toNat b

/-! ### The trace -/

/-- The record after each stage (R205). -/
def stageRecords (rk : ByteString 240) (blk : Nat) (dir : Direction) : List Stage → Block → List TraceRecord
  | [], _ => []
  | g :: gs, s =>
    { block := blk, round := g.round, op := g.op, dir := dir, snapshot := g.apply rk s } ::
      stageRecords rk blk dir gs (g.apply rk s)

/-- The records of `Encrypt(b, blk)`: the INPUT record, labelled 0, and one per stage (R201, R206). -/
def encryptRecords (rk : ByteString 240) (nr blk : Nat) (b : Block) : List TraceRecord :=
  stageRecords rk blk .encryption (⟨0, .input⟩ :: encryptStages nr) b

/-- The records of `Decrypt(b, blk)`: the INPUT record, labelled Nr, and one per stage (R202, R206). -/
def decryptRecords (rk : ByteString 240) (nr blk : Nat) (b : Block) : List TraceRecord :=
  stageRecords rk blk .decryption (⟨nr, .input⟩ :: decryptStages nr) b

/-- The number of an operation in a record (R205). -/
def TraceOp.code : TraceOp → BitVec 3
  | .subBytes => 0
  | .shiftRows => 1
  | .mixColumns => 2
  | .addRoundKey => 3
  | .invSubBytes => 4
  | .invShiftRows => 5
  | .invMixColumns => 6
  | .input => 7

/-- The direction bit of a record (R205). -/
def Direction.code : Direction → BitVec 1
  | .encryption => 0
  | .decryption => 1

/-- The five words of a record on the trace port (R205). -/
def TraceRecord.words (t : TraceRecord) : List Word :=
  ((0 : BitVec 7) ++ t.dir.code ++ (0 : BitVec 1) ++ t.op.code ++ BitVec.ofNat 4 t.round ++
    BitVec.ofNat 16 t.block) ::
    (List.range 4).map fun j => leValue 32 (((bytesOf t.snapshot).drop (4 * j)).take 4)

/-- Send the records of the encryptions of blocks, block 0 first (R205, R209). -/
def State.emitEncryptions (s : State) (bs : List Block) : State :=
  s.emit (bs.zipIdx.flatMap fun x => encryptRecords s.rk s.status.nr.toNat x.2 x.1)

/-- Send the records of the decryptions of blocks, block 0 first (R205, R209). -/
def State.emitDecryptions (s : State) (bs : List Block) : State :=
  s.emit (bs.zipIdx.flatMap fun x => decryptRecords s.rk s.status.nr.toNat x.2 x.1)

/-! ### The commands -/

/-- ENC_BLOCK (R203): KEY is expanded, then STATE is encrypted in place as block 0. -/
def execEncBlock (s : State) : Out :=
  withChecks .encBlock s fun s =>
    let s := s.expand
    (s.emitEncryptions [s.block]).writeBlock (s.E s.block)

/-- DEC_BLOCK (R204): KEY is expanded, then STATE is decrypted in place as block 0. -/
def execDecBlock (s : State) : Out :=
  withChecks .decBlock s fun s =>
    let s := s.expand
    (s.emitDecryptions [s.block]).writeBlock (s.D s.block)

end Sys2Proof.Machine
end

