-- ==== Sys2Proof/Machine/ModesBasic.lean ====
section
/-! DEFINITION. The mode controllers ECB, CBC, CTR, CFB and OFB (spec/44_modes_basic.md). The mode functions take
the block cipher as an argument; the commands give them the one under the schedule of KEY. -/

namespace Sys2Proof.Machine

/-! ### The common frame -/

/-- How a mode function ends. -/
inductive Ending where
  /-- success: the result bytes, and the state with whatever else the function wrote -/
  | output (out : Bytes) (s : State)
  /-- an execution error (R332), and the state it leaves -/
  | raised (e : ErrCode) (s : State)
  /-- the fault of R375 -/
  | fault (f : Fault)

/-- `ModeCommand(F)` (R230): the checks, the implicit expansion, `m`, then `F(m)` to OUT. -/
def modeCommand (i : Instr) (F : State → Bytes → Ending) (s : State) : Out :=
  withChecks i s fun s =>
    match s.expand.bufRead .input s.msgLen.toNat with
    | .error f => .fault f
    | .ok m =>
      match F s.expand m with
      | .output out t => .next (t.completeOut out)
      | .raised e t => .next (t.raiseOut e)
      | .fault f => .fault f

/-! ### ECB -/

/-- ECB_ENC (R232). -/
def execEcbEnc (s : State) : Out :=
  modeCommand .ecbEnc (s := s) fun s m =>
    .output (concat ((blocks m).map s.E)) (s.emitEncryptions (blocks m))

/-- ECB_DEC (R233). -/
def execEcbDec (s : State) : Out :=
  modeCommand .ecbDec (s := s) fun s m =>
    .output (concat ((blocks m).map s.D)) (s.emitDecryptions (blocks m))

/-! ### CBC -/

/-- The number of padding bytes, 1..16 (R234). -/
def padLength (n : Nat) : Nat := 16 - n % 16

/-- `Pad(m)` (R234). -/
def pad (m : Bytes) : Bytes :=
  m ++ List.replicate (padLength m.length) (BitVec.ofNat 8 (padLength m.length))

/-- `Unpad(q)`; none is PaddingError (R238). -/
def unpad (q : Bytes) : Option Bytes :=
  let p := byteAt q (q.length - 1)
  if 1 ≤ p.toNat ∧ p.toNat ≤ 16 ∧ (q.drop (q.length - p.toNat)).all (· == p) then
    some (q.take (q.length - p.toNat))
  else none

/-- The cipher inputs `p_i XOR c_{i-1}` of CBC encryption, with `c_{-1}` given (R235). -/
def cbcInputs (E : Block → Block) : (prev : Block) → List Block → List Block
  | _, [] => []
  | prev, p :: ps => xorV p prev :: cbcInputs E (E (xorV p prev)) ps

/-- CBC encryption of padded blocks (R235). -/
def cbcEncrypt (E : Block → Block) (iv : Block) (ps : List Block) : List Block :=
  (cbcInputs E iv ps).map E

/-- CBC decryption before unpadding (R237). -/
def cbcDecrypt (D : Block → Block) : (prev : Block) → List Block → List Block
  | _, [] => []
  | prev, c :: cs => xorV (D c) prev :: cbcDecrypt D c cs

/-- CBC_ENC (R235). -/
def execCbcEnc (s : State) : Out :=
  modeCommand .cbcEnc (s := s) fun s m =>
    .output (concat (cbcEncrypt s.E s.iv (blocks (pad m))))
      (s.emitEncryptions (cbcInputs s.E s.iv (blocks (pad m))))

/-- CBC_DEC (R237). On PaddingError the records of every block have been sent and OUT[0 : MSG_LEN] holds no
value (R246, R247). -/
def execCbcDec (s : State) : Out :=
  modeCommand .cbcDec (s := s) fun s m =>
    match unpad (concat (cbcDecrypt s.D s.iv (blocks m))) with
    | some out => .output out (s.emitDecryptions (blocks m))
    | none => .raised .paddingError ((s.emitDecryptions (blocks m)).bufVoid .output m.length)

/-! ### CTR -/

/-- `CB_i = BE_16((BE(NONCE) + i) mod 2^128)` (R240). -/
def counterBlock (nonce : Block) (i : Nat) : Block := blockOfBe (blockBe nonce + BitVec.ofNat 128 i)

/-- Counter mode over a sequence of counter blocks: block `i` of the message XORs with `E(cb i)` (R241). -/
def counterMode (E : Block → Block) (cb : Nat → Block) (m : Bytes) : Bytes :=
  (partition m).zipIdx.flatMap fun x => xorT x.1 (bytesOf (E (cb x.2)))

/-- The mode function of both CTR commands (R241). -/
def ctrFunction (s : State) (m : Bytes) : Ending :=
  .output (counterMode s.E (counterBlock s.nonce) m) s

/-- CTR_ENC (R241). -/
def execCtrEnc (s : State) : Out := modeCommand .ctrEnc ctrFunction s

/-- CTR_DEC (R241): the same computation. -/
def execCtrDec (s : State) : Out := modeCommand .ctrDec ctrFunction s

/-! ### CFB and OFB -/

/-- CFB encryption of message blocks: the ciphertext block is fed back (R242). Only a last block can be
partial, and what it feeds back is unused. -/
def cfbEncrypt (E : Block → Block) : (s : Block) → List Bytes → Bytes
  | _, [] => []
  | s, m :: ms => xorT m (bytesOf (E s)) ++ cfbEncrypt E (ofBytes 16 (xorT m (bytesOf (E s)))) ms

/-- CFB decryption: the input ciphertext block is fed back (R243). -/
def cfbDecrypt (E : Block → Block) : (s : Block) → List Bytes → Bytes
  | _, [] => []
  | s, c :: cs => xorT c (bytesOf (E s)) ++ cfbDecrypt E (ofBytes 16 c) cs

/-- OFB: the keystream block is fed back (R244). -/
def ofbMode (E : Block → Block) : (s : Block) → List Bytes → Bytes
  | _, [] => []
  | s, m :: ms => xorT m (bytesOf (E s)) ++ ofbMode E (E s) ms

/-- CFB_ENC (R242). -/
def execCfbEnc (s : State) : Out :=
  modeCommand .cfbEnc (s := s) fun s m => .output (cfbEncrypt s.E s.iv (partition m)) s

/-- CFB_DEC (R243). -/
def execCfbDec (s : State) : Out :=
  modeCommand .cfbDec (s := s) fun s m => .output (cfbDecrypt s.E s.iv (partition m)) s

/-- The mode function of both OFB commands (R244, R245). -/
def ofbFunction (s : State) (m : Bytes) : Ending :=
  .output (ofbMode s.E s.iv (partition m)) s

/-- OFB_ENC (R244). -/
def execOfbEnc (s : State) : Out := modeCommand .ofbEnc ofbFunction s

/-- OFB_DEC (R245): the same computation. -/
def execOfbDec (s : State) : Out := modeCommand .ofbDec ofbFunction s

end Sys2Proof.Machine
end

