-- ==== Sys2Proof/Machine/ModesXtsGcm.lean ====
section
/-! DEFINITION. XTS, GCM and the GHASH authenticator (spec/45_modes_xts_gcm.md). -/

namespace Sys2Proof.Machine

/-! ### GF(2^128) -/

/-- `xts_double(T)`, the string read little-endian (R271). -/
def xtsDouble (t : Block) : Block :=
  blockOfLe ((blockLe t <<< 1) ^^^ (if (blockLe t).getLsbD 127 then 0x87 else 0))

/-- The multiplication loop of R272 over big-endian integers, `n` bits of `x` left, its top bit next. -/
def gcmMulLoop : (n : Nat) → (x z v : BitVec 128) → BitVec 128
  | 0, _, z, _ => z
  | n + 1, x, z, v =>
    gcmMulLoop n (x <<< 1) (if x.getLsbD 127 then z ^^^ v else z)
      ((v >>> 1) ^^^ (if v.getLsbD 0 then (0xE1 : BitVec 128) <<< 120 else 0))

/-- `X • Y`, GCM's bit-reflected product (R272). -/
def gcmMul (x y : Block) : Block := blockOfBe (gcmMulLoop 128 (blockBe x) 0 (blockBe y))

/-- `GHASH_H(X)` (R273). -/
def ghashFold (h : Block) (x : Bytes) : Block :=
  (blocks x).foldl (fun y b => gcmMul (xorV y b) h) zeroBlock

/-- `ZPad(s)` (R273). -/
def zpad (s : Bytes) : Bytes := s ++ zeros ((16 - s.length % 16) % 16)

/-! ### XTS -/

/-- The first mask `T_0` (R274). -/
def xtsFirstMask (s : State) : Block :=
  match s.config.xtsBase with
  | .enc => s.E s.tweak
  | .raw => s.tweak

/-- XTS over blocks, each masked before and after the cipher `C` (R275, R276). -/
def xtsMode (C : Block → Block) : (t : Block) → List Block → List Block
  | _, [] => []
  | t, b :: bs => xorV (C (xorV b t)) t :: xtsMode C (xtsDouble t) bs

/-- XTS_ENC (R275). -/
def execXtsEnc (s : State) : Out :=
  modeCommand .xtsEnc (s := s) fun s m => .output (concat (xtsMode s.E (xtsFirstMask s) (blocks m))) s

/-- XTS_DEC (R276): the masks are those of encryption. -/
def execXtsDec (s : State) : Out :=
  modeCommand .xtsDec (s := s) fun s m => .output (concat (xtsMode s.D (xtsFirstMask s) (blocks m))) s

/-! ### GCM -/

/-- `H = E(0^128)` (R277). -/
def hashSubkey (E : Block → Block) : Block := E zeroBlock

/-- `J0` of a nonce (R277). -/
def gcmJ0 (h : Block) (n : Bytes) : Block :=
  if n.length = 12 then ofBytes 16 (n ++ [0, 0, 0, 1])
  else ghashFold h (zpad n ++ zeros 8 ++ beBytes 8 (8 * n.length))

/-- `inc32` added `k` times: only the last four bytes count (R278). -/
def gcmCounter (b : Block) (k : Nat) : Block :=
  ofBytes 16 ((bytesOf b).take 12 ++
    beBytes 4 (beValue 32 ((bytesOf b).drop 12) + BitVec.ofNat 32 k).toNat)

/-- `inc32(X)` (R278). -/
def inc32 (b : Block) : Block := gcmCounter b 1

/-- `GCTR(ICB, X)` (R278). -/
def gctr (E : Block → Block) (icb : Block) (x : Bytes) : Bytes := counterMode E (gcmCounter icb) x

/-- The tag of associated data `a` and ciphertext `c` (R279). -/
def gcmTag (E : Block → Block) (j0 : Block) (a c : Bytes) : Block :=
  xorV (E j0)
    (ghashFold (hashSubkey E)
      (zpad a ++ zpad c ++ beBytes 8 (8 * a.length) ++ beBytes 8 (8 * c.length)))

/-- `TagEqual`: no byte differs (R282). -/
def tagEqual (a b : Block) : Bool := (bytesOf (xorV a b)).foldl (· ||| ·) 0 == 0

/-- `J0` of the command's nonce (R277). -/
def State.j0 (s : State) : Block := gcmJ0 (hashSubkey s.E) s.ivBytes

/-- GCM_ENC (R280). -/
def execGcmEnc (s : State) : Out :=
  modeCommand .gcmEnc (s := s) fun s m =>
    match s.bufRead .aux s.auxLen.toNat with
    | .error f => .fault f
    | .ok a =>
      let c := gctr s.E (inc32 s.j0) m
      .output c { s with tag := gcmTag s.E s.j0 a c }

/-- GCM_DEC (R281): the tag is verified before any output. -/
def execGcmDec (s : State) : Out :=
  modeCommand .gcmDec (s := s) fun s c =>
    match s.bufRead .aux s.auxLen.toNat with
    | .error f => .fault f
    | .ok a =>
      if tagEqual (gcmTag s.E s.j0 a c) s.tag then
        .output (gctr s.E (inc32 s.j0) c) { s with status := { s.status with tagOk := true } }
      else .raised .authenticationFailed s

/-! ### GHASH -/

/-- GHASH, the command (R283). -/
def execGhash (s : State) : Out :=
  withChecks .ghash s fun s =>
    match s.expand.bufRead .input s.msgLen.toNat with
    | .error f => .fault f
    | .ok m =>
      .next ({ s.expand with tag := ghashFold (hashSubkey s.expand.E) (zpad m) } : State).complete

end Sys2Proof.Machine
end

