-- ==== Sys2Proof/Machine/HmacKdf.lean ====
section
/-! DEFINITION. SHA-256, the HMAC-SHA256 engine and the PBKDF2 iterator (spec/46_hmac_kdf.md). -/

namespace Sys2Proof.Machine

/-! ### SHA-256 -/

/-- The eight working variables, also the hash value `h[0] .. h[7]` (R303). -/
structure Hash where
  a : Word
  b : Word
  c : Word
  d : Word
  e : Word
  f : Word
  g : Word
  h : Word
  deriving DecidableEq, Repr

/-- The initial hash value `H0` (R300). -/
def sha256Initial : Hash :=
  ⟨0x6a09e667, 0xbb67ae85, 0x3c6ef372, 0xa54ff53a, 0x510e527f, 0x9b05688c, 0x1f83d9ab, 0x5be0cd19⟩

/-- The round constants `K` (R300). -/
def sha256K : List Word :=
  List.flatten [
    [ 0x428a2f98, 0x71374491, 0xb5c0fbcf, 0xe9b5dba5, 0x3956c25b, 0x59f111f1, 0x923f82a4, 0xab1c5ed5 ],
    [ 0xd807aa98, 0x12835b01, 0x243185be, 0x550c7dc3, 0x72be5d74, 0x80deb1fe, 0x9bdc06a7, 0xc19bf174 ],
    [ 0xe49b69c1, 0xefbe4786, 0x0fc19dc6, 0x240ca1cc, 0x2de92c6f, 0x4a7484aa, 0x5cb0a9dc, 0x76f988da ],
    [ 0x983e5152, 0xa831c66d, 0xb00327c8, 0xbf597fc7, 0xc6e00bf3, 0xd5a79147, 0x06ca6351, 0x14292967 ],
    [ 0x27b70a85, 0x2e1b2138, 0x4d2c6dfc, 0x53380d13, 0x650a7354, 0x766a0abb, 0x81c2c92e, 0x92722c85 ],
    [ 0xa2bfe8a1, 0xa81a664b, 0xc24b8b70, 0xc76c51a3, 0xd192e819, 0xd6990624, 0xf40e3585, 0x106aa070 ],
    [ 0x19a4c116, 0x1e376c08, 0x2748774c, 0x34b0bcb5, 0x391c0cb3, 0x4ed8aa4a, 0x5b9cca4f, 0x682e6ff3 ],
    [ 0x748f82ee, 0x78a5636f, 0x84c87814, 0x8cc70208, 0x90befffa, 0xa4506ceb, 0xbef9a3f7, 0xc67178f2 ] ]

/-- `σ0` (R302). -/
def smallSigma0 (x : Word) : Word := x.rotateRight 7 ^^^ x.rotateRight 18 ^^^ (x >>> 3)

/-- `σ1` (R302). -/
def smallSigma1 (x : Word) : Word := x.rotateRight 17 ^^^ x.rotateRight 19 ^^^ (x >>> 10)

/-- `Σ0` (R302). -/
def bigSigma0 (x : Word) : Word := x.rotateRight 2 ^^^ x.rotateRight 13 ^^^ x.rotateRight 22

/-- `Σ1` (R302). -/
def bigSigma1 (x : Word) : Word := x.rotateRight 6 ^^^ x.rotateRight 11 ^^^ x.rotateRight 25

/-- `Ch` (R302). -/
def choose (x y z : Word) : Word := (x &&& y) ^^^ (~~~x &&& z)

/-- `Maj` (R302). -/
def majority (x y z : Word) : Word := (x &&& y) ^^^ (x &&& z) ^^^ (y &&& z)

/-- Word `j` of a list of words; 0 beyond its end, where no rule reads. -/
def shaWord (ws : List Word) (j : Nat) : Word := ws.getD j 0

/-- Extend a message schedule by `n` words (R302). The words so far are held last one first, so `W[i - k]` is
word `k - 1` of the list. -/
def shaExtend : (n : Nat) → (ws : List Word) → List Word
  | 0, ws => ws
  | n + 1, ws =>
    shaExtend n ((smallSigma1 (shaWord ws 1) + shaWord ws 6 + smallSigma0 (shaWord ws 14) +
      shaWord ws 15) :: ws)

/-- The message schedule `W[0..63]` of a 64-byte block (R302). -/
def shaSchedule (m : Bytes) : List Word :=
  (shaExtend 48
    ((List.range 16).map fun i => beValue 32 ((m.drop (4 * i)).take 4)).reverse).reverse

/-- One round of the compression, with `K[i]` and `W[i]` given (R303). -/
def shaRound (v : Hash) (kw : Word × Word) : Hash :=
  let t1 := v.h + bigSigma1 v.e + choose v.e v.f v.g + kw.1 + kw.2
  let t2 := bigSigma0 v.a + majority v.a v.b v.c
  { a := t1 + t2, b := v.a, c := v.b, d := v.c, e := v.d + t1, f := v.e, g := v.f, h := v.g }

/-- Wordwise addition of hash values (R303). -/
def Hash.add (x y : Hash) : Hash :=
  { a := x.a + y.a, b := x.b + y.b, c := x.c + y.c, d := x.d + y.d,
    e := x.e + y.e, f := x.f + y.f, g := x.g + y.g, h := x.h + y.h }

/-- Compress one 64-byte block into the hash value (R303). -/
def shaCompress (h : Hash) (m : Bytes) : Hash :=
  h.add ((sha256K.zip (shaSchedule m)).foldl shaRound h)

/-- `Pad256(M)` (R301). -/
def shaPad (m : Bytes) : Bytes :=
  m ++ [0x80] ++ zeros ((119 - m.length % 64) % 64) ++ beBytes 8 (8 * m.length)

/-- The 64-byte blocks of a padded message (R301). -/
def shaBlocks (m : Bytes) : List Bytes :=
  (List.range (m.length / 64)).map fun i => (m.drop (64 * i)).take 64

/-- The 32 bytes of a hash value (R304). -/
def Hash.bytes (h : Hash) : Bytes :=
  [h.a, h.b, h.c, h.d, h.e, h.f, h.g, h.h].flatMap fun w => beBytes 4 w.toNat

/-- `SHA256(M)` (R304). -/
def sha256 (m : Bytes) : Bytes := ((shaBlocks (shaPad m)).foldl shaCompress sha256Initial).bytes

/-! ### HMAC -/

/-- `K0`: the key, hashed first if longer than 64 bytes, with zero bytes up to 64 (R305). -/
def hmacKey (k : Bytes) : Bytes :=
  let k0 := if 64 < k.length then sha256 k else k
  k0 ++ zeros (64 - k0.length)

/-- `HMAC(K, M)` (R305). -/
def hmac (k m : Bytes) : Bytes :=
  sha256 ((hmacKey k).map (· ^^^ 0x5c) ++ sha256 ((hmacKey k).map (· ^^^ 0x36) ++ m))

/-- HMAC_SHA256, the command (R306): the key is AUX[0 : AUX_LEN], the message IN[0 : MSG_LEN]. -/
def execHmacSha256 (s : State) : Out :=
  withChecks .hmacSha256 s fun s =>
    match s.bufRead .aux s.auxLen.toNat with
    | .error f => .fault f
    | .ok k =>
      match s.bufRead .input s.msgLen.toNat with
      | .error f => .fault f
      | .ok m => .next (s.completeOut (hmac k m))

/-! ### PBKDF2 -/

/-- `n` further iterations: `U_j = HMAC(P, U_(j-1))`, XORed into the accumulator (R307). -/
def kdfLoop (p : Bytes) : (n : Nat) → (u acc : Bytes) → Bytes
  | 0, _, acc => acc
  | n + 1, u, acc => kdfLoop p n (hmac p u) (xorT acc (hmac p u))

/-- `F(P, S, c, i)` for `c ≥ 1` (R307, R310). -/
def kdfBlock (p salt : Bytes) (c i : Nat) : Bytes :=
  let u1 := hmac p (salt ++ beBytes 4 i)
  kdfLoop p (c - 1) u1 u1

/-- `PBKDF2(P, S, c, dkLen)` (R308). -/
def pbkdf2 (p salt : Bytes) (c dkLen : Nat) : Bytes :=
  (((List.range ((dkLen + 31) / 32)).flatMap fun i => kdfBlock p salt c (i + 1))).take dkLen

/-- A generated salt is written to IN[0:16], with MSG_LEN and SALT_GEN (R311). -/
def State.salted (s : State) (salt : Bytes) : State :=
  { (s.bufWrite .input salt).drew 16 with
    msgLen := 16
    status := { s.status with saltGen := true } }

/-- Salt generation when none is supplied (R311): the salt is one answer of the entropy source. -/
def State.generateSalt (s : State) : State :=
  if s.msgLen = 0 then s.salted s.draw16 else s

/-- PBKDF2, the command (R312): the password is AUX[0 : AUX_LEN], the salt IN[0 : MSG_LEN], read in the rule's
order (DEDUCED, log entry 7). -/
def execPbkdf2 (s : State) : Out :=
  withChecks .pbkdf2 s fun s =>
    match s.generateSalt.bufRead .aux s.auxLen.toNat with
    | .error f => .fault f
    | .ok p =>
      match s.generateSalt.bufRead .input s.generateSalt.msgLen.toNat with
      | .error f => .fault f
      | .ok salt => .next (s.generateSalt.completeOut (pbkdf2 p salt s.iter.toNat s.dkLen.toNat))

end Sys2Proof.Machine
end

