-- ==== Sys2Proof/Machine/Sequencer.lean ====
section
/-! DEFINITION. The core sequencer and the host's events: the two agents that change the core
(spec/00_scope.md R7; spec/60_exceptions.md R334–R337; spec/70_reset_and_hazards.md R370, R379). -/

namespace Sys2Proof.Machine

/-- The sequencer's turn (R336, R337). In BUSY it decodes the latched word and performs the command as one
step; a word that matches no row completes with UnsupportedMode and changes only STATUS (R116). In IDLE it
waits, and every register keeps its value (R30, R356). -/
def coreTurn (s : State) : Out :=
  match s.latch with
  | none => .next s
  | some l =>
    match decode l.word with
    | .ok i => exec i s
    | .error _ => .next (s.raise .unsupportedMode)

/-- The whole records of a running command that the trace sink has received when reset cuts it off: the first
ones, how many is free (R370, U13; FREE VALUE, log entry 9). -/
def State.recordsBeforeReset (s : State) : List TraceRecord :=
  match coreTurn s with
  | .next t => (t.trace.drop s.trace.length).take (Config.freeCount s.draws)
  | .fault _ | .refused _ => []

/-- Reset asserted (R370): every register at its reset value, the buffers without values, the latch empty, so
a pending command is abandoned and sends no further record. The configuration, what the host will do, and
what the host and the trace sink have received are not the core's and stay (DESIGN CHOICE, log entry 9). -/
def State.hardReset (s : State) : State :=
  { State.resetWith s.config with
    trace := s.trace ++ s.recordsBeforeReset
    hostQueue := s.hostQueue
    hostLog := s.hostLog
    draws := s.draws + 1 }

/-- The host at a `WAIT` (R121). With BUSY = 0 it reads STATUS once and is done. With BUSY = 1 it reads STATUS
`late` times before the sequencer takes its turn, and once after it (R379; DESIGN CHOICE of the form, log
entry 4). -/
def State.wait (s : State) (late : Nat) : State :=
  if s.busy then
    match late with
    | 0 => { s with hostQueue := .coreTurn :: .wait 0 :: s.hostQueue }
    | n + 1 => { s.access (.read 0x00C 4) with hostQueue := .wait n :: s.hostQueue }
  else s.access (.read 0x00C 4)

/-- One event, already taken from the queue. -/
def event (e : HostEvent) (s : State) : Out :=
  match e with
  | .bus a => .next (s.access a)
  | .wait late => .next (s.wait late)
  | .coreTurn => coreTurn s
  | .reset => .next s.hardReset

/-- The next event of the queue, or the sequencer's turn when the host has none left (R379; DESIGN CHOICE, log
entry 4). -/
def advance (s : State) : Out :=
  match s.hostQueue with
  | [] => coreTurn s
  | e :: rest => event e { s with hostQueue := rest }

/-- The state in which the next step runs the command of a table word and nothing else: the word has just
been accepted (R334), and the sequencer's turn is the next event (log entry 5). -/
def fetchFrom (s : State) (w : Word) : State :=
  { s.accept w with hostQueue := .coreTurn :: s.hostQueue }

end Sys2Proof.Machine
end

