-- ==== Sys2Proof/Machine/HostProgram.lean ====
section
/-! DEFINITION. Host programs, their encoding as bus transactions, and the results they keep (spec/30_encoding.md
R119–R124). A program comes to run by being put in `State.hostQueue` (log entry 5). -/

namespace Sys2Proof.Machine

/-- A statement of a host program (R119–R123), with the name under which a read's result is kept. -/
inductive HostStmt where
  | wr32 (off : BitVec 15) (v : Word)
  | wr16 (off : BitVec 15) (v : Half)
  | wr8 (off : BitVec 15) (v : Byte)
  /-- `RD32 off`, with `-> name` when the result is kept -/
  | rd32 (off : BitVec 15) (name : Option String)
  /-- `RD8 off`, with `-> name` when the result is kept -/
  | rd8 (off : BitVec 15) (name : Option String)
  /-- `CMD mnemonic` and `CMD ADD_ROUND_KEY, r` -/
  | cmd (i : Instr)
  | wait
  /-- `BYTES off, h` -/
  | bytes (off : BitVec 15) (h : Bytes)
  /-- `READ off, n -> name` -/
  | read (off : BitVec 15) (n : Nat) (name : String)
  deriving DecidableEq, Repr

/-- The offset of CMD (R33). -/
def cmdOffset : BitVec 15 := 0x008

/-- The core offset `off + k`. A sum past 0x7FFF is no core offset in the spec; the model wraps it to the low
offsets (DESIGN CHOICE, log entry 19). -/
def offsetPlus (off : BitVec 15) (k : Nat) : BitVec 15 := off + BitVec.ofNat 15 k

/-- The whole words of `BYTES off, h` as 32-bit writes (R122; past 0x7FFF, log entry 19). -/
def wholeWords (off : BitVec 15) (h : Bytes) : List Access :=
  (List.range (h.length / 4)).map fun k =>
    .write (offsetPlus off (4 * k)) 4 (leValue 32 ((h.drop (4 * k)).take 4))

/-- The bytes of `BYTES off, h` past its whole words as byte writes (R122; past 0x7FFF, log entry 19). -/
def lastBytes (off : BitVec 15) (h : Bytes) : List Access :=
  (List.range (h.length % 4)).map fun j =>
    .write (offsetPlus off (h.length / 4 * 4 + j)) 1 ((byteAt h (h.length / 4 * 4 + j)).setWidth 32)

/-- The words that cover `off .. off + n - 1` as 32-bit reads (R123; past 0x7FFF, log entry 19). -/
def coveringReads (off : BitVec 15) (n : Nat) : List Access :=
  (List.range ((n + 3) / 4)).map fun k => .read (offsetPlus off (4 * k)) 4

/-- The bus accesses of a statement (R119–R123); of a `WAIT`, one turn of its loop (R121). -/
def HostStmt.accesses : HostStmt → List Access
  | .wr32 off v => [.write off 4 v]
  | .wr16 off v => [.write off 2 (v.setWidth 32)]
  | .wr8 off v => [.write off 1 (v.setWidth 32)]
  | .rd32 off _ => [.read off 4]
  | .rd8 off _ => [.read off 1]
  | .cmd i => [.write cmdOffset 4 (encode i)]
  | .wait => [.read 0x00C 4]
  | .bytes off h => wholeWords off h ++ lastBytes off h
  | .read off n _ => coveringReads off n

/-- The events of a statement: its accesses, but for a `WAIT`, whose loop is one event. The sequencer takes its
turn before the first poll, as in the programs of spec/95_test_vectors.md section 3. -/
def HostStmt.events : HostStmt → List HostEvent
  | .wait => [.wait 0]
  | st => st.accesses.map .bus

/-- The events of a host program. -/
def hostProgram (p : List HostStmt) : List HostEvent := p.flatMap HostStmt.events

/-- A host program placed after what the host already does. -/
def State.withProgram (s : State) (p : List HostStmt) : State :=
  { s with hostQueue := s.hostQueue ++ hostProgram p }

/-! ### The encoding -/

/-- W or R (R124). -/
inductive BusKind where
  | write
  | read
  deriving DecidableEq, Repr

/-- One entry `(W|R, size, off, data)` of the encoding of a host program (R124). -/
structure BusRecord where
  kind : BusKind
  size : Nat
  off : BitVec 15
  data : Word
  deriving DecidableEq, Repr

/-- The data a transaction returned; 0 for a write, which returns none (R82). -/
def Transaction.readData (t : Transaction) : Word := t.reply.data.getD 0

/-- A transaction's entry in the encoding: the data is that written, or that read (R124). -/
def Transaction.encode (t : Transaction) : BusRecord :=
  match t.access with
  | .write off size v => ⟨.write, size, off, v⟩
  | .read off size => ⟨.read, size, off, t.readData⟩

/-- The encoding of what the host has performed, every `WAIT` expanded to the polls it took (R121, R124). -/
def State.encoding (s : State) : List BusRecord := s.hostLog.map Transaction.encode

/-! ### The results a program keeps -/

/-- A kept result: the value of an RD32 or RD8 (R119), or the bytes of a READ (R123). -/
inductive Kept where
  | value (v : Word)
  | bytes (b : Bytes)
  deriving DecidableEq, Repr

/-- The transactions of a `WAIT` at the head of a list: the polls that saw BUSY = 1, and the one that saw
BUSY = 0 (R121). -/
def pollCount : List Transaction → Nat
  | [] => 0
  | t :: ts => if t.readData.getLsbD 0 then pollCount ts + 1 else 1

/-- How many of the transactions from a statement on are its own. -/
def HostStmt.count : HostStmt → List Transaction → Nat
  | .wait, ts => pollCount ts
  | st, _ => st.accesses.length

/-- `READ off, n -> name`: the first `n` bytes of the concatenation of the little-endian byte strings of the words
read (R123). -/
def readResult (n : Nat) (own : List Transaction) : Bytes :=
  (own.flatMap fun t => leBytes 4 t.readData.toNat).take n

/-- What a statement keeps of its own transactions, by name (R119, R123). -/
def HostStmt.kept : HostStmt → List Transaction → List (String × Kept)
  | .rd32 _ (some name), own => own.map fun t => (name, .value t.readData)
  | .rd8 _ (some name), own => own.map fun t => (name, .value t.readData)
  | .read _ n name, own => [(name, .bytes (readResult n own))]
  | .rd32 _ none, _ | .rd8 _ none, _ => []
  | .wr32 _ _, _ | .wr16 _ _, _ | .wr8 _ _, _ | .cmd _, _ | .wait, _ | .bytes _ _, _ => []

/-- The results a program keeps, in its order, from the transactions it performed. -/
def keptResults : List HostStmt → List Transaction → List (String × Kept)
  | [], _ => []
  | st :: p, ts => st.kept (ts.take (st.count ts)) ++ keptResults p (ts.drop (st.count ts))

end Sys2Proof.Machine
end

