-- ==== Sys2Proof/Machine/Step.lean ====
section
/-! DEFINITION. One step of the machine, and where a command is placed for the next step to run. -/

namespace Sys2Proof.Machine

/-- One step: the next event of the host, or the sequencer's turn (R336, R379). -/
def step : State → Host.Outcome State Fault Refusal := fun s => advance s

/-- `s` with the command of a row of spec/opcode_table.json just accepted and its turn next (R334, R336). -/
def State.withFetchWord (s : State) (nbits w : Nat) : State := fetchFrom s (tableWord nbits w)

end Sys2Proof.Machine
end

