-- ==== Sys2Proof/Safety.lean ====
section
/-! DEFINITION. What a legal state of the core is (`State.Inv`), and the words the statements are written in: what a
buffer holds, what a command wrote, the check table and the write table of the spec row by row, and the
spec's functions in a second form (fields of numbers and round by round) that the machine does not use. -/

namespace Sys2Proof.Machine

/-! ### The invariant -/

/-- RK, KEY_VALID and NR agree (spec/10_state.md R34, R48; spec/41_key_schedule.md R162, R168): with KEY_VALID
= 1, RK is the schedule of some key of a legal length and NR is its number of rounds; with KEY_VALID = 0, NR
is 0 and RK is as reset left it. -/
def ScheduleLegal (keyValid : Bool) (nr : BitVec 4) (rk : ByteString 240) : Prop :=
  if keyValid = true then
    ∃ key : Bytes, (key.length, nr) ∈ [(16, (10 : BitVec 4)), (24, 12), (32, 14)] ∧
      rk = ofBytes 240 (expandKey key)
  else nr = 0 ∧ rk = Vector.replicate 240 0

/-- A legal state. Every state of every run from reset is one. -/
structure State.Inv (s : State) : Prop where
  /-- the parameters are in range (R9) -/
  config : s.config.Legal
  /-- memory is in its canonical form -/
  memory : s.mem.wf
  /-- only bytes of IN, AUX and OUT hold values (R49, R50, R51) -/
  buffers : ∀ c ∈ s.mem, ∃ b k, k < Buffer.size s.config b ∧ c.1 = Buffer.base b + k
  /-- RK, KEY_VALID and NR agree -/
  schedule : ScheduleLegal s.status.keyValid s.status.nr s.rk
  /-- the result bytes lie in OUT (R40) -/
  outLen : s.outLen.toNat ≤ s.config.nOut
  /-- while BUSY, the latch holds LAST_CMD and the flags are as accept left them (R334) -/
  latched : ∀ l, s.latch = some l → l.word = s.lastCmd ∧ s.status.done = false ∧
    s.status.err = false ∧ s.status.errCode = .none ∧ s.status.tagOk = false ∧ s.status.saltGen = false
  /-- an error has a code (R330) -/
  error : s.status.err = true → s.status.errCode ≠ .none
  /-- TAG_OK is a GCM_DEC's, which ended without error (R34) -/
  tagOk : s.status.tagOk = true → decode s.lastCmd = .ok .gcmDec ∧ s.status.errCode = .none
  /-- SALT_GEN is a PBKDF2's, which ended without error (R34) -/
  saltGen : s.status.saltGen = true → decode s.lastCmd = .ok .pbkdf2 ∧ s.status.errCode = .none

/-- Every register at its reset value, no byte of a buffer holding a value, the sequencer idle (R55, R370). -/
structure State.AtReset (s : State) : Prop where
  /-- ID and ITER have the values of R31 and R41, every other control register is 0 -/
  registers : ∀ r, s.readCtrl r = if r = .id then 0x41455331 else if r = .iter then 0x000186A0 else 0
  /-- KEY, IV, NONCE, TWEAK, STATE, TAG and RK are zero bytes -/
  key : s.key = Vector.replicate 32 0
  iv : s.iv = Vector.replicate 16 0
  nonce : s.nonce = Vector.replicate 16 0
  tweak : s.tweak = Vector.replicate 16 0
  block : s.block = Vector.replicate 16 0
  tag : s.tag = Vector.replicate 16 0
  rk : s.rk = Vector.replicate 240 0
  /-- no byte of IN, AUX or OUT holds a value -/
  buffers : ∀ b k, s.mem.get? (Buffer.base b + k) = none
  /-- the pending latch is empty -/
  latch : s.latch = none
  /-- KEY_VALID = 0 and NR = 0 -/
  schedule : s.status.keyValid = false ∧ s.status.nr = 0
  irq : s.irq = false

/-! ### What a buffer holds and what a command wrote -/

/-- A buffer holds a byte string from its offset 0 on. -/
def State.Holds (s : State) (b : Buffer) (v : Bytes) : Prop :=
  ∀ k, (h : k < v.length) → s.mem.get? (Buffer.base b + k) = some v[k]

/-- `t`'s memory is `s`'s with a byte string stored from a buffer's offset 0 on: every other byte reads as
before (R98). -/
def Stored (s t : State) (b : Buffer) (v : Bytes) : Prop :=
  (∀ k, (h : k < v.length) → t.mem.get? (Buffer.base b + k) = some v[k]) ∧
  ∀ a, (a < Buffer.base b ∨ Buffer.base b + v.length ≤ a) → t.mem.get? a = s.mem.get? a

/-- KEY_LEN is 16, 24 or 32 (R161). -/
def State.KeyLegal (s : State) : Prop := s.keyLen = 16 ∨ s.keyLen = 24 ∨ s.keyLen = 32

/-- The message is IN[0 : MSG_LEN], within IN, and every byte of it holds a value. -/
def State.HasMessage (s : State) (m : Bytes) : Prop :=
  m.length = s.msgLen.toNat ∧ s.msgLen.toNat ≤ s.config.nIn ∧ s.Holds .input m

/-- The auxiliary string is AUX[0 : AUX_LEN], within AUX, and every byte of it holds a value. -/
def State.HasAux (s : State) (a : Bytes) : Prop :=
  a.length = s.auxLen.toNat ∧ s.auxLen.toNat ≤ s.config.nAux ∧ s.Holds .aux a

/-- The state of a command that expanded the key and completed without error, but for its results (R162,
R335). -/
def State.expandedDone (s : State) : State :=
  { s.expand with latch := none, status := { s.expand.status with done := true } }

/-- The state of a command that did not expand the key and completed without error, but for its results
(R335). -/
def State.justDone (s : State) : State :=
  { s with latch := none, status := { s.status with done := true } }

/-! ### The commands by kind -/

def gfCommands : List Instr := [.gfMul, .gfInv, .sboxFwd, .sboxInv]

def blockCommands : List Instr := [.encBlock, .decBlock]

def ecbCommands : List Instr := [.ecbEnc, .ecbDec]

def cbcCommands : List Instr := [.cbcEnc, .cbcDec]

def ctrCommands : List Instr := [.ctrEnc, .ctrDec]

def cfbCommands : List Instr := [.cfbEnc, .cfbDec]

def ofbCommands : List Instr := [.ofbEnc, .ofbDec]

def xtsCommands : List Instr := [.xtsEnc, .xtsDec]

def gcmCommands : List Instr := [.gcmEnc, .gcmDec]

/-- The fourteen mode commands (unit 0x5). -/
def modeCommands : List Instr :=
  ecbCommands ++ cbcCommands ++ ctrCommands ++ cfbCommands ++ ofbCommands ++ xtsCommands ++ gcmCommands

/-- The commands that use KEY (R340, step 2). -/
def keyCommands : List Instr := [.keyExpand] ++ blockCommands ++ modeCommands ++ [.ghash]

/-- The commands whose result goes to OUT (R342). -/
def outCommands : List Instr := modeCommands ++ [.hmacSha256, .pbkdf2]

/-- The commands that emit trace records (spec/43_block_core.md R208). -/
def tracingCommands : List Instr := blockCommands ++ ecbCommands ++ cbcCommands

/-- The commands that read IN[0 : MSG_LEN] (spec/10_state.md R56). -/
def inputCommands : List Instr := modeCommands ++ [.ghash, .hmacSha256, .pbkdf2]

/-- The commands that read AUX[0 : AUX_LEN] (R56). -/
def auxCommands : List Instr := gcmCommands ++ [.hmacSha256, .pbkdf2]

/-- The round-transform commands, ADD_ROUND_KEY included (unit 0x3). -/
def isRoundCommand (i : Instr) : Bool :=
  match i with
  | .subBytes | .invSubBytes | .shiftRows | .invShiftRows | .mixColumns | .invMixColumns => true
  | .addRoundKey _ => true
  | .gfMul | .gfInv | .sboxFwd | .sboxInv | .keyExpand | .encBlock | .decBlock => false
  | .ecbEnc | .ecbDec | .cbcEnc | .cbcDec | .ctrEnc | .ctrDec | .cfbEnc | .cfbDec => false
  | .ofbEnc | .ofbDec | .xtsEnc | .xtsDec | .gcmEnc | .gcmDec => false
  | .ghash | .hmacSha256 | .pbkdf2 => false

/-- The round of ADD_ROUND_KEY. -/
def addRoundKeyRound : Instr → Option Nat
  | .addRoundKey r => some r
  | _ => none

/-! ### The check table of spec/60_exceptions.md R340 -/

/-- A row of R340 for one command and one state: the command makes the check, it passes, its error. -/
structure CheckRow where
  applies : Bool
  passes : Bool
  error : ErrCode
  deriving DecidableEq, Repr

/-- The table of R340, steps 2 to 6, in its order. -/
def checkTable (i : Instr) (s : State) : List CheckRow :=
  [ ⟨keyCommands.contains i, s.keyLen == 16 || s.keyLen == 24 || s.keyLen == 32, .invalidKeyLength⟩,
    ⟨(addRoundKeyRound i).isSome, s.status.keyValid, .noKeySchedule⟩,
    ⟨(addRoundKeyRound i).isSome, (addRoundKeyRound i).all fun r => decide (r ≤ s.status.nr.toNat),
      .invalidParameter⟩,
    ⟨inputCommands.contains i, decide (s.msgLen.toNat ≤ s.config.nIn), .invalidParameter⟩,
    ⟨auxCommands.contains i, decide (s.auxLen.toNat ≤ s.config.nAux), .invalidParameter⟩,
    ⟨[.pbkdf2].contains i, decide (1 ≤ s.iter.toNat) && decide (1 ≤ s.dkLen.toNat) && decide (s.dkLen.toNat ≤ s.config.nOut),
      .invalidParameter⟩,
    ⟨(cbcCommands ++ cfbCommands ++ ofbCommands ++ gcmCommands).contains i, s.ivLen != 0, .missingIV⟩,
    ⟨ctrCommands.contains i, s.nonceLen != 0, .missingNonce⟩,
    ⟨xtsCommands.contains i, s.tweakLen != 0, .missingTweak⟩,
    ⟨(cbcCommands ++ cfbCommands ++ ofbCommands).contains i, s.ivLen == 16, .invalidHexInput⟩,
    ⟨gcmCommands.contains i, decide (s.ivLen.toNat ≤ 16), .invalidHexInput⟩,
    ⟨ctrCommands.contains i, s.nonceLen == 16, .invalidHexInput⟩,
    ⟨xtsCommands.contains i, s.tweakLen == 16, .invalidHexInput⟩,
    ⟨[.ecbEnc, .ecbDec, .cbcDec, .xtsEnc, .xtsDec].contains i, decide (s.msgLen.toNat % 16 = 0),
      .invalidHexInput⟩,
    ⟨[.cbcDec].contains i, s.msgLen != 0, .invalidHexInput⟩ ]

/-- The error of the first row that the command makes and fails; no later check is made (R340, R341). -/
def firstFailure : List CheckRow → Option ErrCode
  | [] => none
  | row :: rows => if !row.applies || row.passes then firstFailure rows else some row.error

/-- The error a command reports before it executes (R340, R341). -/
def reportedError (i : Instr) (s : State) : Option ErrCode := firstFailure (checkTable i s)

/-! ### The spec's functions in a second form -/

/-- The terms of degree below `n` of the second factor, multiplied into the first. -/
def polyTerms (a b : Byte) : Nat → BitVec 16
  | 0 => 0
  | n + 1 => polyTerms a b n ^^^ bif b.getLsbD n then (a.setWidth 16).shiftLeft n else 0

/-- The product of two bytes as polynomials over GF(2), unreduced (spec/40_gf_sbox.md R140). -/
def polyProduct (a b : Byte) : BitVec 16 := polyTerms a b 8

/-- Cancel the terms of degree `n + 7` down to 8 with multiples of x^8+x^4+x^3+x+1, which is 0x11B. -/
def polyCancel : Nat → BitVec 16 → BitVec 16
  | 0, p => p
  | n + 1, p => polyCancel n (bif p.getLsbD (n + 8) then p ^^^ BitVec.shiftLeft 0x11B n else p)

/-- The remainder of a polynomial of degree at most 14 modulo x^8+x^4+x^3+x+1 (R140). -/
def polyReduce (p : BitVec 16) : Byte := (polyCancel 7 p).setWidth 8

/-- Row `r` of the matrix whose row 0 is given, each row the one before rotated right by one place (R184, R185). -/
def cyclicRow (row : KeyWord) (r : Nat) (x : KeyWord) : Byte :=
  (List.range 4).foldl (fun acc j => acc ^^^ gmul (row.toList.getD ((j + 4 - r) % 4) 0) (x.toList.getD j 0)) 0

/-- Column `c` of a block (R15). -/
def column (b : Block) (c : Fin 4) : KeyWord := byteString fun r => b[4 * c.val + r.val]

/-- Word `w[i]` of the schedule in RK (R48). -/
def scheduleWord (rk : ByteString 240) (i : Nat) : KeyWord := byteString fun k => rk[4 * i + k.val]?.getD 0

/-- The state after rounds 0 .. `r` of an encryption, each a full round (spec/43_block_core.md R201). -/
def encryptionRound (rk : ByteString 240) (b : Block) : Nat → Block
  | 0 => addRoundKey rk 0 b
  | r + 1 => addRoundKey rk (r + 1) (mixColumns (shiftRows (subBytes (encryptionRound rk b r))))

/-- The state after the first AddRoundKey of a decryption and `n` full rounds, those labelled Nr-1 down to
Nr-n (R202). -/
def decryptionRound (rk : ByteString 240) (nr : Nat) (b : Block) : Nat → Block
  | 0 => addRoundKey rk nr b
  | n + 1 =>
    invMixColumns (addRoundKey rk (nr - (n + 1)) (invSubBytes (invShiftRows (decryptionRound rk nr b n))))

/-- One round label for a list of operations. -/
def roundLabels (r : Nat) (ops : List TraceOp) : List (Nat × TraceOp) := ops.map (Prod.mk r)

/-- The round labels and operations of one encrypted block's records, in order (R201, R206). -/
def encryptLabels (nr : Nat) : List (Nat × TraceOp) :=
  roundLabels 0 [.input, .addRoundKey] ++
    ((List.range (nr - 1)).flatMap fun i =>
      roundLabels (i + 1) [.subBytes, .shiftRows, .mixColumns, .addRoundKey]) ++
    roundLabels nr [.subBytes, .shiftRows, .addRoundKey]

/-- The round labels and operations of one decrypted block's records, in order (R202, R206). -/
def decryptLabels (nr : Nat) : List (Nat × TraceOp) :=
  roundLabels nr [.input, .addRoundKey] ++
    ((List.range (nr - 1)).flatMap fun i =>
      roundLabels (nr - 1 - i) [.invShiftRows, .invSubBytes, .addRoundKey, .invMixColumns]) ++
    roundLabels 0 [.invShiftRows, .invSubBytes, .addRoundKey]

/-- The records are those of one block: its labels, the block itself first, and each snapshot the transform of
the one before it, the last being the result (R205, R207). -/
def TracesBlock (rk : ByteString 240) (blk : Nat) (dir : Direction) (labels : List (Nat × TraceOp))
    (b result : Block) (rs : List TraceRecord) : Prop :=
  rs.map (fun r => (r.round, r.op)) = labels ∧ (∀ r ∈ rs, r.block = blk ∧ r.dir = dir) ∧
  rs.head?.map (·.snapshot) = some b ∧ rs.getLast?.map (·.snapshot) = some result ∧
  ∀ k, (h : k + 1 < rs.length) →
    rs[k + 1].snapshot = Stage.apply rk ⟨rs[k + 1].round, rs[k + 1].op⟩ rs[k].snapshot

/-- Block `j` of a message that has it whole (spec/44_modes_basic.md R231). -/
def blockAt (m : Bytes) (j : Nat) : Block := ofBytes 16 (m.drop (16 * j))

/-- `BE(s)` as a number (spec/00_scope.md R14). -/
def beNat (b : Bytes) : Nat := b.foldl (fun n x => 256 * n + x.toNat) 0

/-- `LE(s)` as a number (R14). -/
def leNat (b : Bytes) : Nat := b.foldr (fun x n => x.toNat + 256 * n) 0

/-- Byte `k` of a message is the message byte XORed with byte `k mod 16` of keystream block `k / 16`, for every
`k`: the stream modes (R236). -/
def XoredWith (keystream : Nat → Block) (m out : Bytes) : Prop :=
  out.length = m.length ∧ ∀ k, (h : k < out.length) → (h' : k < m.length) →
    out[k] = m[k] ^^^ (keystream (k / 16))[k % 16]'(Nat.mod_lt _ (by omega))

/-- `q` is the CBC decryption of `m` before unpadding: `q_i = Decrypt(c_i) XOR c_(i-1)` (R237). -/
def CbcPlain (D : Block → Block) (iv : Block) (m q : Bytes) : Prop :=
  q.length = m.length ∧ ∀ j < m.length / 16,
    blockAt q j = xorV (D (blockAt m j)) (if j = 0 then iv else blockAt m (j - 1))

/-- The first XTS mask (spec/45_modes_xts_gcm.md R274). -/
def State.xtsMask0 (s : State) : Block := if s.config.xtsBase = .enc then s.expand.E s.tweak else s.tweak

/-! ### SHA-256, HMAC and PBKDF2 as relations -/

/-- `p` is `Pad256(m)` (spec/46_hmac_kdf.md R301): `0x80`, fewer than 64 zero bytes, and the length in bits as eight
bytes, up to a multiple of 64. -/
def Sha256Padded (m p : Bytes) : Prop :=
  p.length % 64 = 0 ∧ ∃ z < 64, ∃ len : Bytes, len.length = 8 ∧ beNat len = 8 * m.length % 2 ^ 64 ∧
    p = m ++ [0x80] ++ List.replicate z 0 ++ len

/-- `W` is the message schedule of a 64-byte block (R302). -/
def Sha256Schedule (blk : Bytes) (W : Nat → Word) : Prop :=
  (∀ i < 16, (W i).toNat = beNat ((blk.drop (4 * i)).take 4)) ∧
  ∀ i, 16 ≤ i → i < 64 → W i =
    ((W (i - 2)).rotateRight 17 ^^^ (W (i - 2)).rotateRight 19 ^^^ (W (i - 2) >>> 10)) + W (i - 7) +
    ((W (i - 15)).rotateRight 7 ^^^ (W (i - 15)).rotateRight 18 ^^^ (W (i - 15) >>> 3)) + W (i - 16)

/-- One round takes the working variables `v` to `v'`, with round constant `k` and schedule word `w` (R302,
R303). -/
def Sha256Round (k w : Word) (v v' : Hash) : Prop :=
  ∃ t1 t2 : Word,
    t1 = v.h + (v.e.rotateRight 6 ^^^ v.e.rotateRight 11 ^^^ v.e.rotateRight 25) +
      ((v.e &&& v.f) ^^^ (~~~v.e &&& v.g)) + k + w ∧
    t2 = (v.a.rotateRight 2 ^^^ v.a.rotateRight 13 ^^^ v.a.rotateRight 22) +
      ((v.a &&& v.b) ^^^ (v.a &&& v.c) ^^^ (v.b &&& v.c)) ∧
    v' = { a := t1 + t2, b := v.a, c := v.b, d := v.c, e := v.d + t1, f := v.e, g := v.f, h := v.g }

/-- Compressing a block takes the hash value `h` to `h'` (R303): 64 rounds from `h`, and the sums. -/
def Sha256Block (blk : Bytes) (h h' : Hash) : Prop :=
  ∃ (W : Nat → Word) (v : Nat → Hash), Sha256Schedule blk W ∧ v 0 = h ∧
    (∀ i < 64, ∃ k, sha256K[i]? = some k ∧ Sha256Round k (W i) (v i) (v (i + 1))) ∧
    h' = { a := h.a + (v 64).a, b := h.b + (v 64).b, c := h.c + (v 64).c, d := h.d + (v 64).d,
           e := h.e + (v 64).e, f := h.f + (v 64).f, g := h.g + (v 64).g, h := h.h + (v 64).h }

/-- `d` is `SHA256(m)` (R304): the hash values from `H0` on, one for each block of the padded message, and the
eight words of the last as four bytes each, most significant first. -/
def Sha256Is (m d : Bytes) : Prop :=
  ∃ (p : Bytes) (H : Nat → Hash), Sha256Padded m p ∧ H 0 = sha256Initial ∧
    (∀ t < p.length / 64, Sha256Block ((p.drop (64 * t)).take 64) (H t) (H (t + 1))) ∧
    d.length = 32 ∧
    [(H (p.length / 64)).a, (H (p.length / 64)).b, (H (p.length / 64)).c, (H (p.length / 64)).d,
      (H (p.length / 64)).e, (H (p.length / 64)).f, (H (p.length / 64)).g, (H (p.length / 64)).h].map (·.toNat) =
      (List.range 8).map fun j => beNat ((d.drop (4 * j)).take 4)

/-- `d` is `HMAC(k, m)` (R305). -/
def HmacIs (k m d : Bytes) : Prop :=
  ∃ k0 inner : Bytes,
    (if k.length > 64 then ∃ h, Sha256Is k h ∧ k0 = h ++ List.replicate 32 0
      else k0 = k ++ List.replicate (64 - k.length) 0) ∧
    Sha256Is (k0.map (fun x => x ^^^ 0x36) ++ m) inner ∧ Sha256Is (k0.map (fun x => x ^^^ 0x5c) ++ inner) d

/-- `out` is the first bytes of PBKDF2's result for password `p`, a salt and `c` iterations (R307, R308, R310):
`u i j` is `U_(j+1)` of block `i + 1`, and byte `k` is byte `k mod 32` of `U_1 XOR … XOR U_c` of block
`k / 32 + 1`. -/
def DerivedKeyIs (p salt : Bytes) (c : Nat) (out : Bytes) : Prop :=
  ∃ u : Nat → Nat → Bytes, (∀ i, HmacIs p (salt ++ beBytes 4 (i + 1)) (u i 0)) ∧
    (∀ i j, HmacIs p (u i j) (u i (j + 1))) ∧
    ∀ k, (h : k < out.length) →
      out[k] = (List.range c).foldl (fun acc j => acc ^^^ byteAt (u (k / 32) j) (k % 32)) 0

/-! ### The address map of spec/20_memory.md R81 -/

/-- A reserved offset (R81, R87). -/
def Reserved (c : Config) (a : Nat) : Prop :=
  (0x00B0 ≤ a ∧ a < 0x0100) ∨ (0x01F0 ≤ a ∧ a < 0x2000) ∨ (0x2000 + c.nIn ≤ a ∧ a < 0x4000) ∨
    (0x4000 + c.nAux ≤ a ∧ a < 0x6000) ∨ (0x6000 + c.nOut ≤ a ∧ a < 0x8000)

/-- An offset whose byte the host may write: KEY to TAG, IN or AUX (R81). -/
def Writable (c : Config) (a : Nat) : Prop :=
  (0x0040 ≤ a ∧ a < 0x00B0) ∨ (0x2000 ≤ a ∧ a < 0x2000 + c.nIn) ∨ (0x4000 ≤ a ∧ a < 0x4000 + c.nAux)

/-- An offset whose byte the host may only read: RK or OUT (R81). -/
def ReadOnly (c : Config) (a : Nat) : Prop :=
  (0x0100 ≤ a ∧ a < 0x01F0) ∨ (0x6000 ≤ a ∧ a < 0x6000 + c.nOut)

/-- A read of this offset returns an unspecified value while the command runs: it lies in the command's results
(spec/10_state.md R56, spec/70_reset_and_hazards.md R373). -/
def ResultOffset (i : Instr) (a : Nat) : Prop :=
  (0x0090 ≤ a ∧ a < 0x00A0 ∧ (i ∈ blockCommands ∨ isRoundCommand i = true)) ∨
  (0x00A0 ≤ a ∧ a < 0x00B0 ∧ (i = .gcmEnc ∨ i = .ghash)) ∨
  (0x0100 ≤ a ∧ a < 0x01F0 ∧ i ∈ keyCommands) ∨
  (0x2000 ≤ a ∧ a < 0x2010 ∧ i = .pbkdf2) ∨
  (0x6000 ≤ a ∧ a < 0x8000 ∧ i ∈ outCommands)

/-- A control register whose value is unspecified while the command runs (R56, R373). -/
def ResultRegister (i : Instr) (r : CtrlReg) : Prop :=
  (r = .gfR ∧ i ∈ gfCommands) ∨ (r = .outLen ∧ i ∈ outCommands) ∨ (r = .msgLen ∧ i = .pbkdf2)

/-- The byte at a core offset of a byte region, none where it holds no value or the offset is reserved. -/
def State.byteAtOffset (s : State) (a : Nat) : Option Byte := (byteLocAt s.config a).bind s.readByte

end Sys2Proof.Machine
end

