-- ==== Sys2Proof/Certificates/Slice0/Obligations.lean ====
section
/-! DEFINITION. The statements for the provers: what spec/ says of the 455Aes CORE. The words they are written in
stand in Safety.lean. -/

section

open Sys2Proof Sys2Proof.Machine

/-! ### Encoding -/

/-- R115: the words of the opcode map decode to their commands and are those commands' words. -/
def Obligations.OpcodeMapWords : Prop :=
  (∀ p ∈ ([ (0x10, .gfMul), (0x11, .gfInv), (0x12, .sboxFwd), (0x13, .sboxInv), (0x20, .keyExpand),
      (0x30, .subBytes), (0x31, .invSubBytes), (0x32, .shiftRows), (0x33, .invShiftRows),
      (0x34, .mixColumns), (0x35, .invMixColumns), (0x36, .addRoundKey 0), (0x936, .addRoundKey 9),
      (0xF36, .addRoundKey 15), (0x40, .encBlock), (0x41, .decBlock), (0x50, .ecbEnc), (0x51, .ecbDec),
      (0x52, .cbcEnc), (0x53, .cbcDec), (0x54, .ctrEnc), (0x55, .ctrDec), (0x56, .cfbEnc), (0x57, .cfbDec),
      (0x58, .ofbEnc), (0x59, .ofbDec), (0x5A, .xtsEnc), (0x5B, .xtsDec), (0x5C, .gcmEnc), (0x5D, .gcmDec),
      (0x60, .ghash), (0x61, .hmacSha256), (0x62, .pbkdf2) ] : List (Word × Instr)),
    decode p.1 = .ok p.2 ∧ encode p.2 = p.1)

/-- R114, R116: a word is a command exactly when it is a word of the map, with the full mask but for
ADD_ROUND_KEY's, whose ROUND is free. Every other word is illegal. -/
def Obligations.DecodeAcceptsExactlyTheMap : Prop :=
  ∀ w : Word, (∃ i, decode w = .ok i) ↔
    w &&& 0xFFFFF0FF = 0x36 ∨
    w ∈ ([ 0x10, 0x11, 0x12, 0x13, 0x20, 0x30, 0x31, 0x32, 0x33, 0x34, 0x35, 0x40, 0x41, 0x50, 0x51, 0x52,
      0x53, 0x54, 0x55, 0x56, 0x57, 0x58, 0x59, 0x5A, 0x5B, 0x5C, 0x5D, 0x60, 0x61, 0x62 ] : List Word)

/-- R110, R113, R114, R115, R120: decoding the word of a command gives the command back, with its ROUND; and each word
has one meaning: a decoded command is well formed and its word is the word decoded. -/
def Obligations.DecodeAndEncodeAgree : Prop :=
  (∀ i : Instr, i.wellFormed = true → decode (encode i) = .ok i) ∧
  ∀ (w : Word) (i : Instr), decode w = .ok i → i.wellFormed = true ∧ encode i = w

/-- R83, R110, R118: the four byte lanes of a command's word, lane 0 first, decode to the command, and nothing
beyond them is read. -/
def Obligations.DecodeBytesReadsOneWord : Prop :=
  ∀ (i : Instr) (rest : Bytes), i.wellFormed = true →
    decodeBytes (lanesOfWord (encode i) ++ rest) = .ok (i, rest)

/-! ### Reset and the invariant -/

/-- R370: reset, at power-up or at any later step, sets every register to its reset value, leaves no byte of a
buffer with a value, and abandons a running command: the trace sink has at most the first of the records the
command would have sent, and no record if no command runs. That the parameters, the host's queue and what the trace
sink received stay is the model's choice (log entry 9). -/
def Obligations.ResetLeavesResetValues : Prop :=
  State.reset.AtReset ∧
  ∀ (s : State) (rest : List HostEvent), s.hostQueue = .reset :: rest →
    ∃ t, step s = .next t ∧ t.AtReset ∧ t.config = s.config ∧ t.hostQueue = rest ∧
      ∃ rs, t.trace = s.trace ++ rs ∧ ((∀ l i, s.latch = some l → decode l.word ≠ .ok i) → rs = []) ∧
        ∀ (l : Latch) (i : Instr) (u : State), s.latch = some l → decode l.word = .ok i →
          exec i { s with hostQueue := rest } = .next u → ∃ more, u.trace = s.trace ++ rs ++ more

/-- The reset state is legal. -/
def Obligations.ResetMeetsInvariant : Prop := State.reset.Inv

/-- Every step of the machine, of the host or of the sequencer, keeps a legal state legal. -/
def Obligations.StepKeepsInvariant : Prop :=
  ∀ s t : State, s.Inv → step s = .next t → t.Inv

/-! ### A step -/

/-- R336, R337: with a command's word in the latch, the sequencer's step is that command's meaning, whether the
host has no event left or the scheduler gives the sequencer its turn (the queue is the model's, log entry 4). -/
def Obligations.StepRunsTheLatchedCommand : Prop :=
  ∀ (s : State) (l : Latch) (i : Instr), s.latch = some l → decode l.word = .ok i →
    (s.hostQueue = [] → step s = exec i s) ∧
    ∀ rest, s.hostQueue = .coreTurn :: rest → step s = exec i { s with hostQueue := rest }

/-- R337: a latched word that matches no row of the map completes with UnsupportedMode, and nothing but STATUS
changes (the queue is the model's, log entry 4). -/
def Obligations.IllegalWordCompletesUnsupported : Prop :=
  ∀ (s : State) (l : Latch), s.latch = some l → (∀ i, decode l.word ≠ .ok i) →
    (s.hostQueue = [] → step s = .next { s with
      latch := none
      status := { s.status with done := true, err := true, errCode := .unsupportedMode } }) ∧
    ∀ rest, s.hostQueue = .coreTurn :: rest → step s = .next { s with
      hostQueue := rest
      latch := none
      status := { s.status with done := true, err := true, errCode := .unsupportedMode } }

/-- R30, R356, R82, R93: an idle core with no host event keeps every register; a host access is one step, taken
in the host's order, and it is kept with its reply (the queue and the log are the model's, log entries 4 and
16). -/
def Obligations.StepWithoutACommand : Prop :=
  (∀ s : State, s.latch = none → s.hostQueue = [] → step s = .next s) ∧
  (∀ (s : State) (off : BitVec 15) (n : Nat) (rest : List HostEvent),
    s.hostQueue = .bus (.read off n) :: rest →
    ∃ t, step s = .next t ∧ t.hostQueue = rest ∧ t.draws = (s.busRead off.toNat n).1.draws ∧
      t = { s with hostQueue := rest, draws := t.draws,
                   hostLog := s.hostLog ++ [⟨.read off n, (s.busRead off.toNat n).2⟩] }) ∧
  ∀ (s : State) (off : BitVec 15) (n : Nat) (v : Word) (rest : List HostEvent),
    s.hostQueue = .bus (.write off n v) :: rest →
    step s = .next { (s.busWrite off.toNat n v).1 with
      hostQueue := rest, hostLog := s.hostLog ++ [⟨.write off n v, (s.busWrite off.toNat n v).2⟩] }

/-- R334: a CMD write in IDLE is accepted: LAST_CMD, the latch with TRACE_EN, and the flags; in BUSY it is
refused and only OVR changes. -/
def Obligations.AcceptOfACommandWord : Prop :=
  ∀ (s : State) (cmd : Word),
    (s.busy = true → s.busWrite 0x008 4 cmd =
      ({ s with status := { s.status with ovr := true } }, { resp := .okay, data := none })) ∧
    (s.busy = false → ∃ t, s.busWrite 0x008 4 cmd = (t, { resp := .okay, data := none }) ∧
      t.busy = true ∧
      t = { s with
        lastCmd := cmd
        latch := some { word := cmd, traceEn := s.ctrl.traceEn }
        status := { s.status with
          done := false, err := false, errCode := .none, tagOk := false, saltGen := false } })

/-- R330, R335: a command that completes leaves BUSY = 0 and DONE = 1, the latch empty, and ends either in
success (ERR = 0, ERRCODE = 0) or in an error with a code (ERR = 1). -/
def Obligations.CompletedCommandStatus : Prop :=
  ∀ (i : Instr) (s t : State), s.status.err = false → s.status.errCode = .none → exec i s = .next t →
    t.latch = none ∧ t.busy = false ∧ t.status.done = true ∧
    ((t.status.err = false ∧ t.status.errCode = .none) ∨ (t.status.err = true ∧ t.status.errCode ≠ .none))

/-- R375: no command is refused, and a command faults exactly when its checks pass and it reads a byte of IN or
AUX that holds no value; the fault names such a byte of IN[0 : MSG_LEN] or AUX[0 : AUX_LEN], one the command reads,
the lowest of its buffer (that it is the lowest is the model's choice, log entry 7). -/
def Obligations.CommandsFaultExactlyOnUnwrittenBytes : Prop :=
  ∀ (i : Instr) (s : State),
    (∀ r, exec i s ≠ .refused r) ∧
    ((∃ f, exec i s = .fault f) ↔ reportedError i s = none ∧
      ((i ∈ inputCommands ∧ ∃ k < s.msgLen.toNat, s.mem.get? (0x2000 + k) = none) ∨
       (i ∈ auxCommands ∧ ∃ k < s.auxLen.toNat, s.mem.get? (0x4000 + k) = none))) ∧
    ∀ f, exec i s = .fault f → ∃ b k, f = .unwrittenBuffer b k ∧
      ((b = .input ∧ i ∈ inputCommands ∧ k < s.msgLen.toNat) ∨ (b = .aux ∧ i ∈ auxCommands ∧ k < s.auxLen.toNat)) ∧
      s.mem.get? (Buffer.base b + k) = none ∧ ∀ j < k, s.mem.get? (Buffer.base b + j) ≠ none

/-- R340, R342: the first check of R340's table that a command makes and fails ends it with that check's error;
OUT_LEN becomes 0 if the command writes OUT, and nothing else but STATUS changes. -/
def Obligations.FailedCheckReportsItsError : Prop :=
  ∀ (i : Instr) (s : State) (e : ErrCode), reportedError i s = some e →
    exec i s = .next { s with
      latch := none
      outLen := if i ∈ outCommands then 0 else s.outLen
      status := { s.status with done := true, err := true, errCode := e } }

/-- R56, R57, R208: a command changes only the locations its row lists. Every host-written operand, CTRL,
LAST_CMD, IV, NONCE, TWEAK, OVR and the host's own record never change; each result changes only by a command
that writes it; every byte of memory outside OUT, and outside IN[0:16] for PBKDF2, reads as before. -/
def Obligations.CommandsWriteOnlyTheirResults : Prop :=
  ∀ (i : Instr) (s t : State), exec i s = .next t →
    (t.config = s.config ∧ t.ctrl = s.ctrl ∧ t.lastCmd = s.lastCmd ∧ t.keyLen = s.keyLen ∧
      t.ivLen = s.ivLen ∧ t.nonceLen = s.nonceLen ∧ t.tweakLen = s.tweakLen ∧ t.auxLen = s.auxLen ∧
      t.iter = s.iter ∧ t.dkLen = s.dkLen ∧ t.gfA = s.gfA ∧ t.gfB = s.gfB ∧ t.key = s.key ∧ t.iv = s.iv ∧
      t.nonce = s.nonce ∧ t.tweak = s.tweak ∧ t.status.ovr = s.status.ovr ∧
      t.hostQueue = s.hostQueue ∧ t.hostLog = s.hostLog) ∧
    (i ∉ gfCommands → t.gfR = s.gfR) ∧
    (i ∉ keyCommands → t.rk = s.rk ∧ t.status.keyValid = s.status.keyValid ∧ t.status.nr = s.status.nr) ∧
    (i ∉ blockCommands → isRoundCommand i = false → t.block = s.block) ∧
    (i ≠ .gcmEnc → i ≠ .ghash → t.tag = s.tag) ∧
    (i ≠ .gcmDec → t.status.tagOk = s.status.tagOk) ∧
    (i ∉ outCommands → t.outLen = s.outLen) ∧
    (i ≠ .pbkdf2 → t.msgLen = s.msgLen ∧ t.status.saltGen = s.status.saltGen ∧ t.draws = s.draws) ∧
    (i ∉ tracingCommands → t.trace = s.trace) ∧
    ∀ a, s.config.Legal → (i ∈ outCommands → a < 0x6000 ∨ 0x6000 + s.config.nOut ≤ a) →
      (i = .pbkdf2 → a < 0x2000 ∨ 0x2010 ≤ a) → t.mem.get? a = s.mem.get? a

/-! ### The trace -/

/-- R208, R210: whether TRACE_EN was latched changes nothing but the trace: with it off no record is sent, with
it on only ENC_BLOCK, DEC_BLOCK, ECB and CBC send records, and the rest of the outcome is the same. -/
def Obligations.TraceEnableIsPureObservation : Prop :=
  ∀ (i : Instr) (s : State) (w : Word),
    (∀ t, exec i { s with latch := some ⟨w, false⟩ } = .next t →
      t.trace = s.trace ∧ ∃ rs, exec i { s with latch := some ⟨w, true⟩ } = .next { t with trace := s.trace ++ rs } ∧
        (i ∉ tracingCommands → rs = [])) ∧
    ∀ f, exec i { s with latch := some ⟨w, false⟩ } = .fault f →
      exec i { s with latch := some ⟨w, true⟩ } = .fault f

/-- R201, R202, R206, R207: the records of one traced block: 4·Nr + 1 of them, INPUT first with the block, then
one after each transform in the order and with the round labels of the round loop, each snapshot the transform of the
one before it, the last snapshot being the result. -/
def Obligations.BlockTraceRecords : Prop :=
  ∀ (rk : ByteString 240) (nr blk : Nat) (b : Block), 1 ≤ nr →
    (encryptRecords rk nr blk b).length = 4 * nr + 1 ∧
    TracesBlock rk blk .encryption (encryptLabels nr) b (encrypt rk nr b) (encryptRecords rk nr blk b) ∧
    (decryptRecords rk nr blk b).length = 4 * nr + 1 ∧
    TracesBlock rk blk .decryption (decryptLabels nr) b (decrypt rk nr b) (decryptRecords rk nr blk b)

/-- R205: the five words of a record on the trace port: the fields of word 0 at their places, its reserved bits 0,
and the snapshot in words 1 to 4, little-endian. -/
def Obligations.TraceRecordWords : Prop :=
  ∀ r : TraceRecord, r.words.length = 5 ∧
    (∀ w, r.words[0]? = some w →
      w.extractLsb' 0 16 = BitVec.ofNat 16 r.block ∧ w.extractLsb' 16 4 = BitVec.ofNat 4 r.round ∧
      w.extractLsb' 20 3 = (match r.op with
        | .subBytes => 0
        | .shiftRows => 1
        | .mixColumns => 2
        | .addRoundKey => 3
        | .invSubBytes => 4
        | .invShiftRows => 5
        | .invMixColumns => 6
        | .input => (7 : BitVec 3)) ∧
      w.getLsbD 23 = false ∧ w.getLsbD 24 = decide (r.dir = .decryption) ∧ w.extractLsb' 25 7 = 0) ∧
    ∀ k : Fin 16, ∃ w, r.words[1 + k.val / 4]? = some w ∧ w.extractLsb' (8 * (k.val % 4)) 8 = r.snapshot[k]

/-! ### The GF unit -/

/-- R140–R150: the four commands of the GF unit complete with GF_R the product modulo x^8+x^4+x^3+x+1, the inverse
(0 of 0), the affine transform of the inverse, and the byte whose S-box value is GF_A; nothing else but STATUS
changes. -/
def Obligations.GfCommandsComplete : Prop :=
  ∀ s : State,
    exec .gfMul s = .next { s.justDone with gfR := polyReduce (polyProduct s.gfA s.gfB) } ∧
    (∃ r, exec .gfInv s = .next { s.justDone with gfR := r } ∧
      (s.gfA = 0 → r = 0) ∧ (s.gfA ≠ 0 → gmul s.gfA r = 1)) ∧
    (∃ r, exec .sboxFwd s = .next { s.justDone with gfR := r } ∧
      ∀ i < 8, r.getLsbD i =
        ((ginv s.gfA).getLsbD i ^^ (ginv s.gfA).getLsbD ((i + 4) % 8) ^^ (ginv s.gfA).getLsbD ((i + 5) % 8) ^^
          (ginv s.gfA).getLsbD ((i + 6) % 8) ^^ (ginv s.gfA).getLsbD ((i + 7) % 8) ^^
          (0x63 : Byte).getLsbD i)) ∧
    ∃ r, exec .sboxInv s = .next { s.justDone with gfR := r } ∧ sbox r = s.gfA

/-- R140, R141: gmul is commutative and associative, 0 and 1 act as they should, multiplying by 2 is xtime, and
gmul is the product of polynomials modulo x^8+x^4+x^3+x+1. -/
def Obligations.GmulFieldLaws : Prop :=
  ∀ a b c : Byte, gmul a b = gmul b a ∧ gmul (gmul a b) c = gmul a (gmul b c) ∧ gmul a 0 = 0 ∧ gmul a 1 = a ∧
    gmul a 2 = (a <<< 1) ^^^ (if a.getLsbD 7 then 0x1B else 0) ∧
    gmul a b = polyReduce (polyProduct a b)

/-- R144: the two S-boxes are mutually inverse permutations, and S is not an involution. -/
def Obligations.SboxesAreMutuallyInverse : Prop :=
  (∀ x : Byte, invSbox (sbox x) = x ∧ sbox (invSbox x) = x) ∧ sbox (sbox 0x00) = 0xFB

/-- R143, R145: the S-box table is the affine transform of the inverse in GF(2^8), and the inverse is a^254. -/
def Obligations.SboxTableIsAlgebra : Prop :=
  ∀ x : Byte, sbox x = sboxOfInverse x ∧ ginv x = (gmul x)^[253] x

/-! ### The key schedule -/

/-- R162, R167, R168: KEY_EXPAND with a legal KEY_LEN completes: RK holds the schedule of KEY[0 : KEY_LEN] (R160,
word by word) and zeros beyond it, NR and KEY_VALID are set, nothing else but STATUS changes. -/
def Obligations.KeyExpandCompletes : Prop :=
  ∀ s : State, s.KeyLegal → ∃ t, exec .keyExpand s = .next t ∧
    t = { s.justDone with
      rk := t.rk
      status := { s.justDone.status with
        keyValid := true, nr := BitVec.ofNat 4 (s.keyLen.toNat / 4 + 6) } } ∧
    t.rk = s.expand.rk ∧
    (∀ k < s.keyLen.toNat, t.rk[k]? = s.key[k]?) ∧
    (∀ i, s.keyLen.toNat / 4 ≤ i → i < 4 * (s.keyLen.toNat / 4 + 7) →
      scheduleWord t.rk i = xorV (scheduleWord t.rk (i - s.keyLen.toNat / 4))
        (if i % (s.keyLen.toNat / 4) = 0 then
          xorV (subWord (rotWord (scheduleWord t.rk (i - 1)))) #v[rcon (i / (s.keyLen.toNat / 4)), 0, 0, 0]
        else if s.keyLen = 32 ∧ i % 8 = 4 then subWord (scheduleWord t.rk (i - 1))
        else scheduleWord t.rk (i - 1))) ∧
    ∀ k, 16 * (s.keyLen.toNat / 4 + 7) ≤ k → k < 240 → t.rk[k]? = some 0

/-- R164, R165, R166: RotWord rotates left by one byte, SubWord applies S to each byte, and the round constants
are 01 02 04 08 10 20 40 80 1B 36. -/
def Obligations.KeyScheduleWordFunctions : Prop :=
  (∀ a0 a1 a2 a3 : Byte, rotWord #v[a0, a1, a2, a3] = #v[a1, a2, a3, a0] ∧
    subWord #v[a0, a1, a2, a3] = #v[sbox a0, sbox a1, sbox a2, sbox a3]) ∧
  rcon 1 = 0x01 ∧ (∀ j, 1 ≤ j → rcon (j + 1) = gmul (rcon j) 0x02) ∧
  (List.range 10).map (fun j => rcon (j + 1)) = [0x01, 0x02, 0x04, 0x08, 0x10, 0x20, 0x40, 0x80, 0x1B, 0x36]

/-! ### The round transform -/

/-- R180–R192: the six round-transform commands without operand complete with STATE replaced: S or its inverse on
every byte; row r rotated left or right by r places; each column multiplied by the cyclic matrix of 02 03 01 01 or of
0E 0B 0D 09. Nothing else but STATUS changes. -/
def Obligations.RoundTransformsComplete : Prop :=
  ∀ s : State,
    (∃ b, exec .subBytes s = .next { s.justDone with block := b } ∧
      ∀ k : Fin 16, b[k] = sbox s.block[k]) ∧
    (∃ b, exec .invSubBytes s = .next { s.justDone with block := b } ∧
      ∀ k : Fin 16, sbox b[k] = s.block[k]) ∧
    (∃ b, exec .shiftRows s = .next { s.justDone with block := b } ∧
      ∀ r c : Fin 4, b[4 * c.val + r.val] = s.block[4 * ((c.val + r.val) % 4) + r.val]) ∧
    (∃ b, exec .invShiftRows s = .next { s.justDone with block := b } ∧
      ∀ r c : Fin 4, b[4 * ((c.val + r.val) % 4) + r.val] = s.block[4 * c.val + r.val]) ∧
    (∃ b, exec .mixColumns s = .next { s.justDone with block := b } ∧
      ∀ r c : Fin 4, b[4 * c.val + r.val] = cyclicRow #v[0x02, 0x03, 0x01, 0x01] r (column s.block c)) ∧
    ∃ b, exec .invMixColumns s = .next { s.justDone with block := b } ∧
      ∀ r c : Fin 4, b[4 * c.val + r.val] = cyclicRow #v[0x0E, 0x0B, 0x0D, 0x09] r (column s.block c)

/-- R186, R193: ADD_ROUND_KEY with a schedule in RK and ROUND at most NR completes with STATE XORed with round key
ROUND; with no schedule it ends in NoKeySchedule, with ROUND above NR in InvalidParameter, and STATE stays. -/
def Obligations.AddRoundKeyCompletes : Prop :=
  ∀ (s : State) (round : Nat), s.Inv →
    (s.status.keyValid = true → round ≤ s.status.nr.toNat →
      ∃ b, exec (.addRoundKey round) s = .next { s.justDone with block := b } ∧
        ∀ k : Fin 16, ∃ v, s.rk[16 * round + k.val]? = some v ∧ b[k] = s.block[k] ^^^ v) ∧
    (s.status.keyValid = false → exec (.addRoundKey round) s = .next { s.justDone with
      status := { s.justDone.status with err := true, errCode := .noKeySchedule } }) ∧
    (s.status.keyValid = true → s.status.nr.toNat < round → exec (.addRoundKey round) s = .next { s.justDone with
      status := { s.justDone.status with err := true, errCode := .invalidParameter } })

/-- R181, R183, R185, R186: each inverse transform undoes its transform, and AddRoundKey undoes itself. -/
def Obligations.RoundTransformInverses : Prop :=
  ∀ (b : Block) (rk : ByteString 240) (r : Nat),
    invSubBytes (subBytes b) = b ∧ invShiftRows (shiftRows b) = b ∧ invMixColumns (mixColumns b) = b ∧
    addRoundKey rk r (addRoundKey rk r b) = b

/-! ### The block core -/

/-- R201, R202: the cipher is the round loop: AddRoundKey, Nr-1 full rounds, a final round without MixColumns; and
its inverse in reverse order. -/
def Obligations.CipherFollowsTheRoundLoop : Prop :=
  ∀ (rk : ByteString 240) (nr : Nat) (b : Block), 1 ≤ nr →
    encrypt rk nr b = addRoundKey rk nr (shiftRows (subBytes (encryptionRound rk b (nr - 1)))) ∧
    decrypt rk nr b = addRoundKey rk 0 (invSubBytes (invShiftRows (decryptionRound rk nr b (nr - 1))))

/-- R211: decryption undoes encryption under the same schedule. -/
def Obligations.DecryptInvertsEncrypt : Prop :=
  ∀ (rk : ByteString 240) (nr : Nat) (b : Block), 1 ≤ nr → decrypt rk nr (encrypt rk nr b) = b

/-- R203, R204, R209: with a legal KEY_LEN, ENC_BLOCK and DEC_BLOCK complete: the key is expanded, STATE is
encrypted or decrypted in place under it, the trace gets the records of block 0; nothing else but STATUS changes. -/
def Obligations.BlockCommandsComplete : Prop :=
  ∀ s : State, s.KeyLegal →
    exec .encBlock s = .next { s.expandedDone with
      block := encrypt s.expand.rk (s.keyLen.toNat / 4 + 6) s.block
      trace := s.trace ++ s.traced (encryptRecords s.expand.rk (s.keyLen.toNat / 4 + 6) 0 s.block) } ∧
    exec .decBlock s = .next { s.expandedDone with
      block := decrypt s.expand.rk (s.keyLen.toNat / 4 + 6) s.block
      trace := s.trace ++ s.traced (decryptRecords s.expand.rk (s.keyLen.toNat / 4 + 6) 0 s.block) }

/-! ### ECB and CBC -/

/-- R230, R232, R233, R246: ECB on a message of whole blocks completes: block j of OUT is the cipher of block j of
the message, OUT_LEN is MSG_LEN, the records of every block are traced in order; the rest is as the expansion and the
completion leave it. -/
def Obligations.EcbCommandsComplete : Prop :=
  ∀ (s : State) (m : Bytes), s.KeyLegal → s.HasMessage m → m.length % 16 = 0 →
    (∃ t out, exec .ecbEnc s = .next t ∧ Stored s t .output out ∧ out.length = m.length ∧
      (∀ j < m.length / 16, blockAt out j = s.expand.E (blockAt m j)) ∧
      t = { s.expandedDone with
        mem := t.mem
        outLen := s.msgLen
        trace := s.trace ++ s.traced ((List.range (m.length / 16)).flatMap fun j =>
          encryptRecords s.expand.rk s.expand.status.nr.toNat j (blockAt m j)) }) ∧
    ∃ t out, exec .ecbDec s = .next t ∧ Stored s t .output out ∧ out.length = m.length ∧
      (∀ j < m.length / 16, blockAt out j = s.expand.D (blockAt m j)) ∧
      t = { s.expandedDone with
        mem := t.mem
        outLen := s.msgLen
        trace := s.trace ++ s.traced ((List.range (m.length / 16)).flatMap fun j =>
          decryptRecords s.expand.rk s.expand.status.nr.toNat j (blockAt m j)) }

/-- R234, R235, R246: CBC_ENC completes on a message of any length: with the padded message, block j of OUT is the
cipher of padded block j XORed with the block of OUT before it, the IV for the first. -/
def Obligations.CbcEncCompletes : Prop :=
  ∀ (s : State) (m p : Bytes), s.KeyLegal → s.HasMessage m → s.ivLen = 16 →
    p = m ++ List.replicate (16 - m.length % 16) (BitVec.ofNat 8 (16 - m.length % 16)) →
    ∃ t out, exec .cbcEnc s = .next t ∧ Stored s t .output out ∧ out.length = 16 * (m.length / 16 + 1) ∧
      (∀ j ≤ m.length / 16, blockAt out j =
        s.expand.E (xorV (blockAt p j) (if j = 0 then s.iv else blockAt out (j - 1)))) ∧
      t = { s.expandedDone with
        mem := t.mem
        outLen := BitVec.ofNat 16 out.length
        trace := s.trace ++ s.traced ((List.range (m.length / 16 + 1)).flatMap fun j =>
          encryptRecords s.expand.rk s.expand.status.nr.toNat j
            (xorV (blockAt p j) (if j = 0 then s.iv else blockAt out (j - 1)))) }

/-- R237, R238: CBC_DEC completes when the decrypted blocks end in padding: OUT is what stands before the padding
and OUT_LEN its length. -/
def Obligations.CbcDecCompletes : Prop :=
  ∀ (s : State) (m q out : Bytes) (p : Nat), s.KeyLegal → s.HasMessage m → s.ivLen = 16 →
    m.length % 16 = 0 → m.length ≠ 0 → CbcPlain s.expand.D s.iv m q →
    1 ≤ p → p ≤ 16 → q = out ++ List.replicate p (BitVec.ofNat 8 p) →
    ∃ t, exec .cbcDec s = .next t ∧ Stored s t .output out ∧
      t = { s.expandedDone with
        mem := t.mem
        outLen := BitVec.ofNat 16 out.length
        trace := s.trace ++ s.traced ((List.range (m.length / 16)).flatMap fun j =>
          decryptRecords s.expand.rk s.expand.status.nr.toNat j (blockAt m j)) }

/-- R238, R247, R246: CBC_DEC whose decrypted blocks end in no padding ends in PaddingError: the new schedule is in
RK, OUT[0 : MSG_LEN] holds no value, OUT_LEN is 0, and the records of every block were sent. -/
def Obligations.CbcDecPaddingError : Prop :=
  ∀ (s : State) (m q : Bytes), s.mem.wf → s.KeyLegal → s.HasMessage m → s.ivLen = 16 →
    m.length % 16 = 0 → m.length ≠ 0 → CbcPlain s.expand.D s.iv m q →
    (∀ out p, 1 ≤ p → p ≤ 16 → q ≠ out ++ List.replicate p (BitVec.ofNat 8 p)) →
    ∃ t, exec .cbcDec s = .next t ∧
      (∀ k < m.length, t.mem.get? (Buffer.base .output + k) = none) ∧
      (∀ a, (a < Buffer.base .output ∨ Buffer.base .output + m.length ≤ a) → t.mem.get? a = s.mem.get? a) ∧
      t = { s.expandedDone with
        mem := t.mem
        outLen := 0
        status := { s.expandedDone.status with err := true, errCode := .paddingError }
        trace := s.trace ++ s.traced ((List.range (m.length / 16)).flatMap fun j =>
          decryptRecords s.expand.rk s.expand.status.nr.toNat j (blockAt m j)) }

/-- R234, R238, R239: unpadding undoes padding at every length, and CBC decryption with unpadding undoes padded CBC
encryption, for any cipher and its inverse. -/
def Obligations.CbcRoundTrip : Prop :=
  (∀ m : Bytes, unpad (pad m) = some m) ∧
  ∀ (E D : Block → Block) (iv : Block) (m : Bytes), (∀ b, D (E b) = b) →
    unpad (concat (cbcDecrypt D iv (blocks (concat (cbcEncrypt E iv (blocks (pad m))))))) = some m

/-! ### CTR, CFB and OFB -/

/-- R236, R240, R241: both CTR commands complete on a message of any length: every byte of OUT is the message byte
XORed with the cipher of its counter block, the counter being NONCE plus the block index modulo 2^128. -/
def Obligations.CtrCommandsComplete : Prop :=
  ∀ (s : State) (m : Bytes), s.KeyLegal → s.HasMessage m → s.nonceLen = 16 →
    ∃ (out : Bytes) (cb : Nat → Block),
      (∀ j, beNat (bytesOf (cb j)) = (beNat (bytesOf s.nonce) + j) % 2 ^ 128) ∧
      XoredWith (fun j => s.expand.E (cb j)) m out ∧
      ∀ i ∈ ctrCommands, ∃ t, exec i s = .next t ∧ Stored s t .output out ∧
        t = { s.expandedDone with mem := t.mem, outLen := s.msgLen }

/-- R242, R243: CFB completes on a message of any length: the keystream block is the cipher of the block of
ciphertext before, the IV for the first; the ciphertext is OUT when encrypting and the message when decrypting. -/
def Obligations.CfbCommandsComplete : Prop :=
  ∀ (s : State) (m : Bytes), s.KeyLegal → s.HasMessage m → s.ivLen = 16 →
    (∃ t out, exec .cfbEnc s = .next t ∧ Stored s t .output out ∧
      XoredWith (fun j => s.expand.E (if j = 0 then s.iv else blockAt out (j - 1))) m out ∧
      t = { s.expandedDone with mem := t.mem, outLen := s.msgLen }) ∧
    ∃ t out, exec .cfbDec s = .next t ∧ Stored s t .output out ∧
      XoredWith (fun j => s.expand.E (if j = 0 then s.iv else blockAt m (j - 1))) m out ∧
      t = { s.expandedDone with mem := t.mem, outLen := s.msgLen }

/-- R244, R245: both OFB commands complete on a message of any length: keystream block j is the cipher applied
j + 1 times to the IV. -/
def Obligations.OfbCommandsComplete : Prop :=
  ∀ (s : State) (m : Bytes), s.KeyLegal → s.HasMessage m → s.ivLen = 16 →
    ∃ out, XoredWith (fun j => s.expand.E^[j + 1] s.iv) m out ∧
      ∀ i ∈ ofbCommands, ∃ t, exec i s = .next t ∧ Stored s t .output out ∧
        t = { s.expandedDone with mem := t.mem, outLen := s.msgLen }

/-- R241, R243, R245, R276: each decryption mode undoes its encryption mode, for any cipher and its inverse. -/
def Obligations.StreamAndXtsRoundTrips : Prop :=
  ∀ (E D : Block → Block) (cb : Nat → Block) (iv : Block) (m : Bytes) (bs : List Block),
    counterMode E cb (counterMode E cb m) = m ∧
    cfbDecrypt E iv (partition (cfbEncrypt E iv (partition m))) = m ∧
    ofbMode E iv (partition (ofbMode E iv (partition m))) = m ∧
    ((∀ b, D (E b) = b) → xtsMode D iv (xtsMode E iv bs) = bs)

/-! ### XTS, GCM and GHASH -/

/-- R274, R275, R276: XTS completes on a message of whole blocks: block j is masked before and after the cipher
with T_0 doubled j times, T_0 being E(TWEAK) or TWEAK as XTS_BASE says. -/
def Obligations.XtsCommandsComplete : Prop :=
  ∀ (s : State) (m : Bytes), s.KeyLegal → s.HasMessage m → s.tweakLen = 16 → m.length % 16 = 0 →
    (∃ t out, exec .xtsEnc s = .next t ∧ Stored s t .output out ∧ out.length = m.length ∧
      (∀ j < m.length / 16, blockAt out j =
        xorV (s.expand.E (xorV (blockAt m j) (xtsDouble^[j] s.xtsMask0))) (xtsDouble^[j] s.xtsMask0)) ∧
      t = { s.expandedDone with mem := t.mem, outLen := s.msgLen }) ∧
    ∃ t out, exec .xtsDec s = .next t ∧ Stored s t .output out ∧ out.length = m.length ∧
      (∀ j < m.length / 16, blockAt out j =
        xorV (s.expand.D (xorV (blockAt m j) (xtsDouble^[j] s.xtsMask0))) (xtsDouble^[j] s.xtsMask0)) ∧
      t = { s.expandedDone with mem := t.mem, outLen := s.msgLen }

/-- R277, R278, R279, R280: GCM_ENC completes on a message and associated data of any length and a nonce of 1 to 16
bytes: the keystream counts with inc32 from J0 + 1, and TAG is the encrypted J0 XORed with the GHASH of the padded
associated data, the padded ciphertext and their lengths. -/
def Obligations.GcmEncCompletes : Prop :=
  ∀ (s : State) (m a : Bytes), s.KeyLegal → s.HasMessage m → s.HasAux a → s.ivLen ≠ 0 → s.ivLen.toNat ≤ 16 →
    ∃ t out j0, exec .gcmEnc s = .next t ∧ Stored s t .output out ∧
      (s.ivLen = 12 → bytesOf j0 = (bytesOf s.iv).take 12 ++ [0, 0, 0, 1]) ∧
      (s.ivLen ≠ 12 → j0 = ghashFold (s.expand.E zeroBlock)
        (zpad ((bytesOf s.iv).take s.ivLen.toNat) ++ zeros 8 ++ beBytes 8 (8 * s.ivLen.toNat))) ∧
      XoredWith (fun j => s.expand.E (inc32^[j + 1] j0)) m out ∧
      t = { s.expandedDone with
        mem := t.mem
        outLen := s.msgLen
        tag := xorV (s.expand.E j0) (ghashFold (s.expand.E zeroBlock)
          (zpad a ++ zpad out ++ beBytes 8 (8 * a.length) ++ beBytes 8 (8 * out.length))) }

/-- R281: GCM_DEC completes when TAG holds the tag of the ciphertext: OUT is the decrypted message and TAG_OK is
1; TAG stays. -/
def Obligations.GcmDecCompletes : Prop :=
  ∀ (s : State) (m a : Bytes), s.KeyLegal → s.HasMessage m → s.HasAux a → s.ivLen ≠ 0 → s.ivLen.toNat ≤ 16 →
    s.tag = gcmTag s.expand.E s.expand.j0 a m →
    ∃ t out, exec .gcmDec s = .next t ∧ Stored s t .output out ∧
      XoredWith (fun j => s.expand.E (inc32^[j + 1] s.expand.j0)) m out ∧
      t = { s.expandedDone with
        mem := t.mem
        outLen := s.msgLen
        status := { s.expandedDone.status with tagOk := true } }

/-- R281, R342: GCM_DEC ends in AuthenticationFailed when TAG differs in any bit from the tag of the ciphertext: no
byte of memory changes, OUT_LEN is 0, TAG_OK stays, and the new schedule is in RK. -/
def Obligations.GcmDecAuthenticationFailed : Prop :=
  ∀ (s : State) (m a : Bytes), s.KeyLegal → s.HasMessage m → s.HasAux a → s.ivLen ≠ 0 → s.ivLen.toNat ≤ 16 →
    s.tag ≠ gcmTag s.expand.E s.expand.j0 a m →
    exec .gcmDec s = .next { s.expandedDone with
      outLen := 0
      status := { s.expandedDone.status with err := true, errCode := .authenticationFailed } }

/-- R283: GHASH completes on a message of any length: TAG is the GHASH of the zero-padded message under
H = E(0^128); OUT and OUT_LEN stay. -/
def Obligations.GhashCompletes : Prop :=
  ∀ (s : State) (m : Bytes), s.KeyLegal → s.HasMessage m →
    exec .ghash s = .next { s.expandedDone with
      tag := ghashFold (s.expand.E zeroBlock) (m ++ List.replicate ((16 - m.length % 16) % 16) 0) }

/-- R272, R273: the product has the identity 80 00…00 on the left and is linear in both factors; the product by
40 00…00, which is x, shifts the big-endian number right by one and XORs 0xE1 << 120 in when its bit 0 was 1; and GHASH
of a string and one block more is the product of H with the hash so far XORed with the block. -/
def Obligations.ProductAndGhashLaws : Prop :=
  ∀ x y z h : Block,
    gcmMul (ofBytes 16 [0x80]) y = y ∧
    gcmMul (xorV x y) z = xorV (gcmMul x z) (gcmMul y z) ∧
    gcmMul x (xorV y z) = xorV (gcmMul x y) (gcmMul x z) ∧
    beNat (bytesOf (gcmMul (ofBytes 16 [0x40]) y)) =
      (beNat (bytesOf y) / 2) ^^^ (if beNat (bytesOf y) % 2 = 1 then 0xE1 * 2 ^ 120 else 0) ∧
    ghashFold h [] = zeroBlock ∧
    ∀ v : Bytes, v.length % 16 = 0 →
      ghashFold h (v ++ bytesOf x) = gcmMul (xorV (ghashFold h v) x) h

/-- R271, R278: doubling is a left shift of the little-endian number with 0x87 XORed in on overflow; inc32 adds one
modulo 2^32 to the big-endian number of the last four bytes and leaves the first twelve. -/
def Obligations.MaskAndCounterSteps : Prop :=
  ∀ b : Block,
    leNat (bytesOf (xtsDouble b)) =
      (if 2 ^ 127 ≤ leNat (bytesOf b) then (2 * leNat (bytesOf b) - 2 ^ 128) ^^^ 0x87
       else 2 * leNat (bytesOf b)) ∧
    (bytesOf (inc32 b)).take 12 = (bytesOf b).take 12 ∧
    beNat ((bytesOf (inc32 b)).drop 12) = (beNat ((bytesOf b).drop 12) + 1) % 2 ^ 32

/-- R282: TagEqual is 1 exactly when all 16 bytes are equal. -/
def Obligations.TagEqualIsEquality : Prop :=
  ∀ a b : Block, tagEqual a b = true ↔ a = b

/-! ### HMAC and PBKDF2 -/

/-- R300–R306: HMAC_SHA256 completes on a key and a message of any length: OUT[0:32] is the HMAC, the hash of the
outer pad and the inner hash, the hash being SHA-256 by its padding, its message schedule and its compression rounds;
nothing else but OUT_LEN and STATUS changes. -/
def Obligations.HmacCompletes : Prop :=
  ∀ (s : State) (m k : Bytes), s.HasMessage m → s.HasAux k →
    ∃ t d, exec .hmacSha256 s = .next t ∧ HmacIs k m d ∧ Stored s t .output d ∧
      t = { s.justDone with mem := t.mem, outLen := 32 }

/-- R307, R308, R310, R312: PBKDF2 with a salt completes with OUT[0 : DKLEN] the XORed iterations of HMAC, byte by byte;
nothing else but OUT_LEN and STATUS changes. -/
def Obligations.Pbkdf2Completes : Prop :=
  ∀ (s : State) (salt p : Bytes), s.HasMessage salt → s.HasAux p → s.msgLen ≠ 0 → s.iter ≠ 0 → s.dkLen ≠ 0 →
    s.dkLen.toNat ≤ s.config.nOut →
    ∃ t out, exec .pbkdf2 s = .next t ∧ Stored s t .output out ∧ out.length = s.dkLen.toNat ∧
      DerivedKeyIs p salt s.iter.toNat out ∧
      t = { s.justDone with mem := t.mem, outLen := s.dkLen }

/-- R311, R312: PBKDF2 with MSG_LEN = 0 draws 16 free bytes, whatever they are, stores them in IN[0:16], sets
MSG_LEN to 16 and SALT_GEN to 1, and derives the key with them as the salt (the stream of free values is the
model's, log entry 2). -/
def Obligations.Pbkdf2GeneratesItsSalt : Prop :=
  ∀ (s : State) (p : Bytes), s.HasAux p → s.msgLen = 0 → s.iter ≠ 0 → s.dkLen ≠ 0 →
    s.dkLen.toNat ≤ s.config.nOut →
    ∃ t u salt out, exec .pbkdf2 s = .next t ∧ salt.length = 16 ∧
      salt = (List.range 16).map (fun k => Config.freeByte (s.draws + k)) ∧
      Stored s u .input salt ∧ Stored u t .output out ∧ out.length = s.dkLen.toNat ∧
      DerivedKeyIs p salt s.iter.toNat out ∧
      t = { s.justDone with
        mem := t.mem
        msgLen := 16
        outLen := s.dkLen
        draws := s.draws + 16
        status := { s.justDone.status with saltGen := true } }

/-! ### The host bus -/

/-- R31–R43, R34, R331: in IDLE a 32-bit read of each control register returns it with its reserved bits 0, the fields
of CTRL and STATUS at their places and the error codes by their numbers, and changes nothing. -/
def Obligations.IdleRegisterReads : Prop :=
  ∀ s : State, s.busy = false →
    (∀ p ∈ ([(0x000, 0x41455331), (0x008, s.lastCmd), (0x010, s.keyLen.setWidth 32), (0x014, s.ivLen.setWidth 32),
        (0x018, s.nonceLen.setWidth 32), (0x01C, s.tweakLen.setWidth 32), (0x020, s.msgLen.setWidth 32),
        (0x024, s.auxLen.setWidth 32), (0x028, s.outLen.setWidth 32), (0x02C, s.iter), (0x030, s.dkLen.setWidth 32),
        (0x034, s.gfA.setWidth 32), (0x038, s.gfB.setWidth 32), (0x03C, s.gfR.setWidth 32)] : List (Nat × Word)),
      s.busRead p.1 4 = (s, { resp := .okay, data := some p.2 })) ∧
    (∃ w, s.busRead 0x004 4 = (s, { resp := .okay, data := some w }) ∧
      w.getLsbD 0 = s.ctrl.traceEn ∧ w.getLsbD 1 = s.ctrl.irqEn ∧ w &&& 0xFFFFFFFC = 0) ∧
    ∃ w, s.busRead 0x00C 4 = (s, { resp := .okay, data := some w }) ∧
      w.getLsbD 0 = false ∧ w.getLsbD 1 = s.status.done ∧ w.getLsbD 2 = s.status.err ∧
      w.getLsbD 3 = s.status.ovr ∧ w.getLsbD 4 = s.status.keyValid ∧ w.getLsbD 5 = s.status.tagOk ∧
      w.getLsbD 6 = s.status.saltGen ∧ w.extractLsb' 16 4 = s.status.nr ∧ w &&& 0xFFF0F080 = 0 ∧
      w.extractLsb' 8 4 = (match s.status.errCode with
        | .none => 0
        | .invalidKeyLength => 1
        | .invalidHexInput => 2
        | .missingIV => 3
        | .missingNonce => 4
        | .missingTweak => 5
        | .paddingError => 6
        | .authenticationFailed => 7
        | .unsupportedMode => 8
        | .noKeySchedule => 9
        | .invalidParameter => (10 : BitVec 4))

/-- R88, R89: a read changes no register and no byte; it takes at most four free values, and none when every byte it
reads holds a value and the core is idle; a byte that holds no value reads as the next free value, whatever it is
(the count of free values is the model's, log entry 2). -/
def Obligations.ReadsHaveNoSideEffect : Prop :=
  ∀ (s : State) (a n : Nat),
    (∃ d ≤ 4, (s.busRead a n).1 = { s with draws := s.draws + d }) ∧
    (s.busy = false → (∀ k < n, 0x40 ≤ a + k → s.byteAtOffset (a + k) ≠ none) → (s.busRead a n).1 = s) ∧
    (s.config.Legal → 0x40 ≤ a → a < 0x8000 → ¬ Reserved s.config a → s.byteAtOffset a = none →
      s.busRead a 1 = ({ s with draws := s.draws + 1 },
        { resp := .okay, data := some ((Config.freeByte s.draws).setWidth 32) }))

/-- R85, R86, R87: a misaligned access, one of a width other than 1, 2 or 4, a narrow access to a control register
and any access to a reserved offset end in SLVERR: no state changes, and a read returns data 0. -/
def Obligations.RefusedAccesses : Prop :=
  ∀ (s : State) (a : BitVec 15) (n : Nat) (v : Word), s.config.Legal →
    ((n ≠ 1 ∧ n ≠ 2 ∧ n ≠ 4) ∨ a.toNat % n ≠ 0 ∨ (a.toNat < 0x40 ∧ n ≠ 4) ∨ Reserved s.config a.toNat) →
    s.busRead a.toNat n = (s, { resp := .slverr, data := some 0 }) ∧
    s.busWrite a.toNat n v = (s, { resp := .slverr, data := none })

/-- R83, R84: in IDLE, an aligned write to KEY, IV, NONCE, TWEAK, STATE, TAG, IN or AUX stores byte lane k at offset
addr + k and changes no other byte and no control register; the same access reads the value back, cut to the
width. An aligned read of any byte region, RK and OUT among them, whose bytes hold values returns their sum, byte k
shifted left by 8k, and changes nothing. -/
def Obligations.WriteThenRead : Prop :=
  (∀ (s : State) (a n : Nat) (v : Word), s.config.Legal → s.busy = false → (n = 1 ∨ n = 2 ∨ n = 4) →
    a % n = 0 → Writable s.config a →
    ∃ t, s.busWrite a n v = (t, { resp := .okay, data := none }) ∧
      t.busRead a n = (t, { resp := .okay, data := some (BitVec.ofNat 32 (v.toNat % 2 ^ (8 * n))) }) ∧
      (∀ b, t.byteAtOffset b =
        if a ≤ b ∧ b < a + n then some ((v >>> (8 * (b - a))).setWidth 8) else s.byteAtOffset b) ∧
      (∀ r, t.readCtrl r = s.readCtrl r)) ∧
  ∀ (s : State) (a n : Nat) (byte : Nat → Byte), s.config.Legal → s.busy = false → (n = 1 ∨ n = 2 ∨ n = 4) →
    a % n = 0 → (∀ k < n, s.byteAtOffset (a + k) = some (byte k)) →
    s.busRead a n = (s,
      { resp := .okay
        data := some (BitVec.ofNat 32 (((List.range n).map fun k => (byte k).toNat * 2 ^ (8 * k)).sum)) })

/-- R32, R36–R43, R53: in IDLE a write of CTRL or of an operand register keeps the bits the register has and nothing
else changes; it reads back with its reserved bits 0. -/
def Obligations.OperandRegisterWrites : Prop :=
  ∀ (s : State) (v : Word), s.busy = false →
    s.busWrite 0x004 4 v =
      ({ s with ctrl := { traceEn := v.getLsbD 0, irqEn := v.getLsbD 1 } }, { resp := .okay, data := none }) ∧
    s.busWrite 0x010 4 v = ({ s with keyLen := v.extractLsb' 0 8 }, { resp := .okay, data := none }) ∧
    s.busWrite 0x014 4 v = ({ s with ivLen := v.extractLsb' 0 8 }, { resp := .okay, data := none }) ∧
    s.busWrite 0x018 4 v = ({ s with nonceLen := v.extractLsb' 0 8 }, { resp := .okay, data := none }) ∧
    s.busWrite 0x01C 4 v = ({ s with tweakLen := v.extractLsb' 0 8 }, { resp := .okay, data := none }) ∧
    s.busWrite 0x020 4 v = ({ s with msgLen := v.extractLsb' 0 16 }, { resp := .okay, data := none }) ∧
    s.busWrite 0x024 4 v = ({ s with auxLen := v.extractLsb' 0 16 }, { resp := .okay, data := none }) ∧
    s.busWrite 0x02C 4 v = ({ s with iter := v }, { resp := .okay, data := none }) ∧
    s.busWrite 0x030 4 v = ({ s with dkLen := v.extractLsb' 0 16 }, { resp := .okay, data := none }) ∧
    s.busWrite 0x034 4 v = ({ s with gfA := v.extractLsb' 0 8 }, { resp := .okay, data := none }) ∧
    s.busWrite 0x038 4 v = ({ s with gfB := v.extractLsb' 0 8 }, { resp := .okay, data := none }) ∧
    (∀ off ∈ [0x010, 0x014, 0x018, 0x01C, 0x034, 0x038],
      ((s.busWrite off 4 v).1.busRead off 4).2 = { resp := .okay, data := some (v &&& 0xFF) }) ∧
    (∀ off ∈ [0x020, 0x024, 0x030],
      ((s.busWrite off 4 v).1.busRead off 4).2 = { resp := .okay, data := some (v &&& 0xFFFF) }) ∧
    ((s.busWrite 0x02C 4 v).1.busRead 0x02C 4).2 = { resp := .okay, data := some v } ∧
    ((s.busWrite 0x004 4 v).1.busRead 0x004 4).2 = { resp := .okay, data := some (v &&& 3) }

/-- R54: writes to ID, OUT_LEN, GF_R, RK and OUT complete with OKAY and change nothing, and a write to STATUS
changes none of its read-only fields. -/
def Obligations.ReadOnlyWritesChangeNothing : Prop :=
  ∀ (s : State) (v : Word),
    (∀ off ∈ [0x000, 0x028, 0x03C], s.busWrite off 4 v = (s, { resp := .okay, data := none })) ∧
    (∀ a n, s.config.Legal → (n = 1 ∨ n = 2 ∨ n = 4) → a % n = 0 → ReadOnly s.config a →
      s.busWrite a n v = (s, { resp := .okay, data := none })) ∧
    ∃ t, s.busWrite 0x00C 4 v = (t, { resp := .okay, data := none }) ∧
      t.busy = s.busy ∧ t.status.keyValid = s.status.keyValid ∧ t.status.tagOk = s.status.tagOk ∧
      t.status.saltGen = s.status.saltGen ∧ t.status.errCode = s.status.errCode ∧ t.status.nr = s.status.nr

/-- R372: while BUSY a write to CTRL and one to STATUS take effect, a write to CMD sets OVR, and every other write
completes with OKAY and is dropped. -/
def Obligations.WritesWhileBusy : Prop :=
  ∀ (s : State) (v : Word), s.busy = true →
    s.busWrite 0x004 4 v =
      ({ s with ctrl := { traceEn := v.getLsbD 0, irqEn := v.getLsbD 1 } }, { resp := .okay, data := none }) ∧
    s.busWrite 0x00C 4 v =
      ({ s with status := { s.status with
          done := s.status.done && !v.getLsbD 1
          err := s.status.err && !v.getLsbD 2
          ovr := s.status.ovr && !v.getLsbD 3 } }, { resp := .okay, data := none }) ∧
    s.busWrite 0x008 4 v = ({ s with status := { s.status with ovr := true } }, { resp := .okay, data := none }) ∧
    (∀ off ∈ [0x010, 0x014, 0x018, 0x01C, 0x020, 0x024, 0x02C, 0x030, 0x034, 0x038],
      s.busWrite off 4 v = (s, { resp := .okay, data := none })) ∧
    ∀ a n, s.config.Legal → (n = 1 ∨ n = 2 ∨ n = 4) → a % n = 0 → Writable s.config a →
      s.busWrite a n v = (s, { resp := .okay, data := none })

/-- R373: while a command runs, ID, CTRL, CMD and STATUS read as they are, and so does every location the command
does not write; a byte the command writes, and the field of a result register (GF_R, OUT_LEN, MSG_LEN) it writes, reads
as the next free values, whatever they are, with the reserved bits 0 (the stream of free values is the model's, log
entry 2). Which locations count as written, whatever the command will do with them, is the model's reading of R56 (log
entry 6). -/
def Obligations.ReadsWhileBusy : Prop :=
  ∀ (s : State) (l : Latch) (i : Instr), s.latch = some l → decode l.word = .ok i → s.config.Legal →
    (∀ a < 0x40, a % 4 = 0 → ¬ ResultRegister i (ctrlRegAt a) →
      s.busRead a 4 = (s, { resp := .okay, data := some (s.readCtrl (ctrlRegAt a)) })) ∧
    (∀ a ∈ [0x020, 0x028], ResultRegister i (ctrlRegAt a) →
      s.busRead a 4 = ({ s with draws := s.draws + 2 },
        { resp := .okay
          data := some (BitVec.ofNat 32
            ((Config.freeByte s.draws).toNat + 2 ^ 8 * (Config.freeByte (s.draws + 1)).toNat)) })) ∧
    (ResultRegister i .gfR → s.busRead 0x03C 4 = ({ s with draws := s.draws + 1 },
      { resp := .okay, data := some ((Config.freeByte s.draws).setWidth 32) })) ∧
    (∀ a b, ¬ ResultOffset i a → s.byteAtOffset a = some b →
      s.busRead a 1 = (s, { resp := .okay, data := some (b.setWidth 32) })) ∧
    ∀ a, ResultOffset i a → ¬ Reserved s.config a →
      s.busRead a 1 = ({ s with draws := s.draws + 1 },
        { resp := .okay, data := some ((Config.freeByte s.draws).setWidth 32) })

/-- R35, R345: a STATUS write clears exactly the W1C bits it names; IRQ is DONE and IRQ_EN, so it falls when DONE
is cleared or a command is accepted or IRQ_EN is cleared, and a command completing with IRQ_EN = 1 raises it. -/
def Obligations.StatusWritesAndIrq : Prop :=
  (∀ (s : State) (v : Word), s.busWrite 0x00C 4 v =
    ({ s with status := { s.status with
        done := if v.getLsbD 1 then false else s.status.done
        err := if v.getLsbD 2 then false else s.status.err
        ovr := if v.getLsbD 3 then false else s.status.ovr } }, { resp := .okay, data := none })) ∧
  (∀ s : State, s.irq = (s.status.done && s.ctrl.irqEn)) ∧
  (∀ (s : State) (v : Word), v.getLsbD 1 = true → (s.busWrite 0x00C 4 v).1.irq = false) ∧
  (∀ (s : State) (cmd : Word), s.busy = false → (s.busWrite 0x008 4 cmd).1.irq = false) ∧
  (∀ (s : State) (v : Word), v.getLsbD 1 = false → (s.busWrite 0x004 4 v).1.irq = false) ∧
  ∀ (i : Instr) (s t : State), exec i s = .next t → t.irq = s.ctrl.irqEn

/-- R121, R379: a WAIT ends. With the core idle it is one poll, which reads BUSY = 0; with a command latched it is at
most the polls that see BUSY = 1, the sequencer's step and one more poll, unless the command stops on a byte without a
value (how many polls come before the sequencer's turn is the scheduler's, held in the model's queue, log entry 4). -/
def Obligations.WaitEnds : Prop :=
  ∀ (s : State) (late : Nat) (rest : List HostEvent), s.hostQueue = .wait late :: rest →
    (s.busy = false → ∃ t, Sys2Proof.core.run 1 s = .next t ∧
      t = { s with hostQueue := rest
                   hostLog := s.hostLog ++ [⟨.read 0x00C 4, ⟨.okay, some s.statusWord⟩⟩] }) ∧
    (s.busy = true →
      (∃ b k, Sys2Proof.core.run (late + 2) s = .fault (.unwrittenBuffer b k)) ∨
      ∃ t, Sys2Proof.core.run (late + 3) s = .next t ∧ t.hostQueue = rest ∧ t.busy = false ∧ t.status.done = true ∧
        ∃ polls, polls.length = late + 1 ∧ t.hostLog = s.hostLog ++ polls ∧ pollCount polls = late + 1)

end
end

