-- ==== Sys2Proof/Laws/ByteStrings.lean ====
section
/-! SUPPORT. The laws of byte strings, blocks and the block partition, and the lengths of every result. -/

namespace Sys2Proof.Machine

/-! ### Fixed-length strings -/

@[simp] theorem getElem_byteString {n : Nat} (f : Fin n → Byte) (i : Nat) (h : i < n) :
    (byteString f)[i] = f ⟨i, h⟩ := by
  simp [byteString]

@[simp] theorem getElem_xorV {n : Nat} (a b : ByteString n) (i : Nat) (h : i < n) :
    (xorV a b)[i] = a[i] ^^^ b[i] := by
  simp [xorV]

@[simp] theorem getElem_ofBytes (n : Nat) (b : Bytes) (i : Nat) (h : i < n) :
    (ofBytes n b)[i] = byteAt b i := by
  simp [ofBytes]

@[simp] theorem length_bytesOf {n : Nat} (v : ByteString n) : (bytesOf v).length = n := by
  simp [bytesOf]

@[simp] theorem getElem_bytesOf {n : Nat} (v : ByteString n) (i : Nat) (h : i < (bytesOf v).length) :
    (bytesOf v)[i] = v[i]'(by simpa using h) := by
  simp [bytesOf]

theorem byteAt_eq_getElem {b : Bytes} {i : Nat} (h : i < b.length) : byteAt b i = b[i] := by
  simp [byteAt, h]

theorem byteAt_bytesOf {n : Nat} (v : ByteString n) (i : Nat) (h : i < n) : byteAt (bytesOf v) i = v[i] := by
  rw [byteAt_eq_getElem (by simpa using h), getElem_bytesOf]

@[simp] theorem ofBytes_bytesOf {n : Nat} (v : ByteString n) : ofBytes n (bytesOf v) = v := by
  refine Vector.ext fun i h => ?_; rw [getElem_ofBytes, byteAt_bytesOf v i h]

theorem bytesOf_ofBytes {n : Nat} {b : Bytes} (h : b.length = n) : bytesOf (ofBytes n b) = b := by
  refine List.ext_getElem (by simp [h]) fun i h1 h2 => ?_
  rw [getElem_bytesOf, getElem_ofBytes, byteAt_eq_getElem h2]

theorem xorV_comm {n : Nat} (a b : ByteString n) : xorV a b = xorV b a := by
  refine Vector.ext fun i h => ?_; simp [BitVec.xor_comm]

@[simp] theorem xorV_cancel_right {n : Nat} (a b : ByteString n) : xorV (xorV a b) b = a := by
  refine Vector.ext fun i h => ?_; simp

@[simp] theorem length_xorT (a b : Bytes) : (xorT a b).length = min a.length b.length := by
  simp [xorT]

theorem xorT_cancel_right {a b : Bytes} (h : a.length ≤ b.length) : xorT (xorT a b) b = a := by
  refine List.ext_getElem (by simp; omega) fun i h1 h2 => ?_
  simp [xorT]

@[simp] theorem length_zeros (n : Nat) : (zeros n).length = n := by simp [zeros]

@[simp] theorem length_beBytes (n v : Nat) : (beBytes n v).length = n := by
  induction n with
  | zero => rfl
  | succ n ih => simp [beBytes, ih]

@[simp] theorem length_leBytes (n v : Nat) : (leBytes n v).length = n := by simp [leBytes]

/-! ### The block partition -/

@[simp] theorem length_partition (m : Bytes) : (partition m).length = (m.length + 15) / 16 := by
  simp [partition]

theorem getElem_partition (m : Bytes) (i : Nat) (h : i < (partition m).length) :
    (partition m)[i] = (m.drop (16 * i)).take 16 := by
  simp [partition]

theorem length_getElem_partition (m : Bytes) (i : Nat) (h : i < (partition m).length) :
    (partition m)[i].length = min 16 (m.length - 16 * i) := by
  rw [getElem_partition]; simp

@[simp] theorem length_blocks (m : Bytes) : (blocks m).length = (m.length + 15) / 16 := by
  simp [blocks]

theorem getElem_blocks (m : Bytes) (i : Nat) (h : i < (blocks m).length) :
    (blocks m)[i] = ofBytes 16 ((m.drop (16 * i)).take 16) := by
  simp [blocks, partition]

@[simp] theorem length_concat (bs : List Block) : (concat bs).length = 16 * bs.length := by
  induction bs with
  | nil => rfl
  | cons b bs ih => simp only [concat, List.flatMap_cons, List.length_append, length_bytesOf,
      List.length_cons] at *; omega

/-- Byte `k` of blocks in a row is byte `k mod 16` of block `k / 16`. -/
theorem getElem_concat (bs : List Block) (k : Nat) (h : k < (concat bs).length) :
    (concat bs)[k] = (bs[k / 16]'(by simp at h; omega))[k % 16]'(Nat.mod_lt _ (by omega)) := by
  induction bs generalizing k with
  | nil => simp [concat] at h
  | cons b bs ih =>
    have hc : concat (b :: bs) = bytesOf b ++ concat bs := rfl
    simp only [hc]
    rcases Nat.lt_or_ge k 16 with hk | hk
    · rw [List.getElem_append_left (by simpa using hk), getElem_bytesOf]
      simp [Nat.div_eq_of_lt hk, Nat.mod_eq_of_lt hk]
    · rw [List.getElem_append_right (by simpa using hk)]
      simp only [length_bytesOf]
      rw [ih (k - 16) (by simp at h ⊢; omega)]
      have h1 : k / 16 = (k - 16) / 16 + 1 := by omega
      have h2 : k % 16 = (k - 16) % 16 := by omega
      simp [h1, h2]

/-- The blocks of blocks in a row are the blocks. -/
theorem blocks_concat (bs : List Block) : blocks (concat bs) = bs := by
  refine List.ext_getElem (by simp; omega) fun i h1 h2 => ?_
  rw [getElem_blocks]
  refine Vector.ext fun j hj => ?_
  have hk : 16 * i + j < (concat bs).length := by simp; omega
  rw [getElem_ofBytes, byteAt_eq_getElem (by simp; omega)]
  simp only [List.getElem_take, List.getElem_drop]
  rw [getElem_concat bs _ hk]
  have h3 : (16 * i + j) / 16 = i := by omega
  have h4 : (16 * i + j) % 16 = j := by omega
  simp [h3, h4]

/-- A message of a multiple of 16 bytes is its blocks in a row. -/
theorem concat_blocks {m : Bytes} (h : m.length % 16 = 0) : concat (blocks m) = m := by
  refine List.ext_getElem (by simp; omega) fun k h1 h2 => ?_
  rw [getElem_concat _ _ h1, getElem_blocks, getElem_ofBytes, byteAt_eq_getElem (by simp; omega)]
  simp only [List.getElem_take, List.getElem_drop]
  have h3 : 16 * (k / 16) + k % 16 = k := by omega
  simp [h3]

/-! ### The lengths of the results -/

theorem length_pad (m : Bytes) : (pad m).length = 16 * (m.length / 16 + 1) := by
  simp [pad, padLength]; omega

@[simp] theorem length_cbcInputs (E : Block → Block) (prev : Block) (ps : List Block) :
    (cbcInputs E prev ps).length = ps.length := by
  induction ps generalizing prev with
  | nil => rfl
  | cons p ps ih => simp [cbcInputs, ih]

@[simp] theorem length_cbcEncrypt (E : Block → Block) (iv : Block) (ps : List Block) :
    (cbcEncrypt E iv ps).length = ps.length := by simp [cbcEncrypt]

@[simp] theorem length_cbcDecrypt (D : Block → Block) (prev : Block) (cs : List Block) :
    (cbcDecrypt D prev cs).length = cs.length := by
  induction cs generalizing prev with
  | nil => rfl
  | cons c cs ih => simp [cbcDecrypt, ih]

theorem length_of_unpad {q m : Bytes} (h : unpad q = some m) : m.length ≤ q.length := by
  simp only [unpad] at h
  split at h
  · obtain rfl := by simpa using h
    simp
  · cases h

@[simp] theorem length_xtsMode (C : Block → Block) (t : Block) (bs : List Block) :
    (xtsMode C t bs).length = bs.length := by
  induction bs generalizing t with
  | nil => rfl
  | cons b bs ih => simp [xtsMode, ih]

/-- The partition's pieces are together as long as the message. -/
theorem sum_length_partition (m : Bytes) : ((partition m).map List.length).sum = m.length := by
  have key : ∀ n j, (m.length + 15) / 16 = n + j →
      ((List.range' j n).map fun i => ((m.drop (16 * i)).take 16).length).sum = m.length - 16 * j := by
    intro n
    induction n with
    | zero => intro j hj; simp; omega
    | succ n ih =>
      intro j hj
      rw [List.range'_succ, List.map_cons, List.sum_cons, ih (j + 1) (by omega)]
      simp; omega
  have := key ((m.length + 15) / 16) 0 rfl
  simpa [partition, List.range_eq_range', Function.comp_def] using this

theorem length_of_pieces_le {ms : List Bytes} (h : ∀ m ∈ ms, m.length ≤ 16) (ks : Nat → Block) (j : Nat) :
    ((ms.zipIdx j).flatMap fun x => xorT x.1 (bytesOf (ks x.2))).length = (ms.map List.length).sum := by
  induction ms generalizing j with
  | nil => rfl
  | cons m ms ih =>
    have hm : m.length ≤ 16 := h m (by simp)
    simp only [List.zipIdx_cons, List.flatMap_cons, List.length_append, length_xorT, length_bytesOf,
      List.map_cons, List.sum_cons]
    rw [ih (fun x hx => h x (by simp [hx]))]; omega

theorem length_le_of_mem_partition {m p : Bytes} (h : p ∈ partition m) : p.length ≤ 16 := by
  simp only [partition, List.mem_map] at h
  obtain ⟨i, -, rfl⟩ := h
  simp

@[simp] theorem length_counterMode (E : Block → Block) (cb : Nat → Block) (m : Bytes) :
    (counterMode E cb m).length = m.length := by
  have := length_of_pieces_le (fun p hp => length_le_of_mem_partition (m := m) hp) (fun i => E (cb i)) 0
  rw [sum_length_partition] at this
  exact this

theorem length_cfbEncrypt (E : Block → Block) (s : Block) (ms : List Bytes) (h : ∀ m ∈ ms, m.length ≤ 16) :
    (cfbEncrypt E s ms).length = (ms.map List.length).sum := by
  induction ms generalizing s with
  | nil => rfl
  | cons m ms ih =>
    have hm : m.length ≤ 16 := h m (by simp)
    simp only [cfbEncrypt, List.length_append, length_xorT, length_bytesOf, List.map_cons, List.sum_cons]
    rw [ih _ (fun x hx => h x (by simp [hx]))]; omega

theorem length_cfbDecrypt (E : Block → Block) (s : Block) (ms : List Bytes) (h : ∀ m ∈ ms, m.length ≤ 16) :
    (cfbDecrypt E s ms).length = (ms.map List.length).sum := by
  induction ms generalizing s with
  | nil => rfl
  | cons m ms ih =>
    have hm : m.length ≤ 16 := h m (by simp)
    simp only [cfbDecrypt, List.length_append, length_xorT, length_bytesOf, List.map_cons, List.sum_cons]
    rw [ih _ (fun x hx => h x (by simp [hx]))]; omega

theorem length_ofbMode (E : Block → Block) (s : Block) (ms : List Bytes) (h : ∀ m ∈ ms, m.length ≤ 16) :
    (ofbMode E s ms).length = (ms.map List.length).sum := by
  induction ms generalizing s with
  | nil => rfl
  | cons m ms ih =>
    have hm : m.length ≤ 16 := h m (by simp)
    simp only [ofbMode, List.length_append, length_xorT, length_bytesOf, List.map_cons, List.sum_cons]
    rw [ih _ (fun x hx => h x (by simp [hx]))]; omega

@[simp] theorem length_cfbEncrypt_partition (E : Block → Block) (s : Block) (m : Bytes) :
    (cfbEncrypt E s (partition m)).length = m.length := by
  rw [length_cfbEncrypt _ _ _ fun p hp => length_le_of_mem_partition hp, sum_length_partition]

@[simp] theorem length_cfbDecrypt_partition (E : Block → Block) (s : Block) (m : Bytes) :
    (cfbDecrypt E s (partition m)).length = m.length := by
  rw [length_cfbDecrypt _ _ _ fun p hp => length_le_of_mem_partition hp, sum_length_partition]

@[simp] theorem length_ofbMode_partition (E : Block → Block) (s : Block) (m : Bytes) :
    (ofbMode E s (partition m)).length = m.length := by
  rw [length_ofbMode _ _ _ fun p hp => length_le_of_mem_partition hp, sum_length_partition]

@[simp] theorem length_gctr (E : Block → Block) (icb : Block) (x : Bytes) : (gctr E icb x).length = x.length := by
  simp [gctr]

@[simp] theorem length_hashBytes (h : Hash) : h.bytes.length = 32 := by simp [Hash.bytes]

@[simp] theorem length_sha256 (m : Bytes) : (sha256 m).length = 32 := by simp [sha256]

@[simp] theorem length_hmac (k m : Bytes) : (hmac k m).length = 32 := by simp [hmac]

theorem length_kdfLoop (p : Bytes) (n : Nat) (u acc : Bytes) (h : acc.length = 32) :
    (kdfLoop p n u acc).length = 32 := by
  induction n generalizing u acc with
  | zero => exact h
  | succ n ih => exact ih _ _ (by simp [h])

@[simp] theorem length_kdfBlock (p salt : Bytes) (c i : Nat) : (kdfBlock p salt c i).length = 32 := by
  simp [kdfBlock, length_kdfLoop]

@[simp] theorem length_pbkdf2 (p salt : Bytes) (c dkLen : Nat) : (pbkdf2 p salt c dkLen).length = dkLen := by
  simp [pbkdf2, List.length_flatMap]; omega

end Sys2Proof.Machine
end

