-- ==== Sys2Proof/Laws/Integers.lean ====
section
/-! SUPPORT. The integer views of byte strings (spec/00_scope.md R14): the machine's bit vectors and the numbers of
Safety.lean agree, and reading what was written gives it back. -/

namespace Sys2Proof.Machine

theorem beNat_nil : beNat [] = 0 := rfl

theorem beNat_append (a b : Bytes) : beNat (a ++ b) = beNat a * 256 ^ b.length + beNat b := by
  have key : ∀ (b : Bytes) (n : Nat),
      b.foldl (fun n x => 256 * n + x.toNat) n = n * 256 ^ b.length + beNat b := by
    intro b
    induction b with
    | nil => intro n; simp [beNat]
    | cons x b ih =>
      intro n
      simp only [List.foldl_cons, List.length_cons, beNat]
      rw [ih, ih (256 * 0 + x.toNat)]
      ring
  simp only [beNat, List.foldl_append]
  exact key b _

theorem beNat_cons (x : Byte) (b : Bytes) : beNat (x :: b) = x.toNat * 256 ^ b.length + beNat b := by
  have := beNat_append [x] b
  simpa [beNat] using this

theorem beNat_lt (b : Bytes) : beNat b < 256 ^ b.length := by
  induction b with
  | nil => simp [beNat]
  | cons x b ih =>
    rw [beNat_cons, List.length_cons, Nat.pow_succ]
    have := x.isLt
    nlinarith [Nat.pos_of_ne_zero (show 256 ^ b.length ≠ 0 by positivity)]

/-- Writing a number big-endian and reading it back (R14). -/
theorem beNat_beBytes (n v : Nat) : beNat (beBytes n v) = v % 256 ^ n := by
  induction n with
  | zero => simp [beBytes, beNat, Nat.mod_one]
  | succ n ih =>
    rw [beBytes, beNat_cons, length_beBytes, ih]
    simp only [BitVec.toNat_ofNat]
    rw [show 2 ^ (8 * n) = 256 ^ n by rw [Nat.pow_mul], show 2 ^ 8 = 256 by norm_num,
      Nat.pow_succ, Nat.mod_mul]
    ring

theorem leNat_eq (b : Bytes) : leNat b = beNat b.reverse := by
  induction b with
  | nil => rfl
  | cons x b ih =>
    have hb : leNat (x :: b) = x.toNat + 256 * leNat b := rfl
    rw [hb, List.reverse_cons, beNat_append, ih]
    simp [beNat]; ring

/-- The machine's big-endian value is the number modulo its width. -/
theorem toNat_beValue (n : Nat) (hn : 8 ≤ n) (b : Bytes) : (beValue n b).toNat = beNat b % 2 ^ n := by
  have key : ∀ (b : Bytes) (acc : BitVec n),
      (b.foldl (fun (acc : BitVec n) x => (acc <<< 8) ||| x.setWidth n) acc).toNat =
        (acc.toNat * 256 ^ b.length + beNat b) % 2 ^ n := by
    intro b
    induction b with
    | nil => intro acc; simp [beNat, Nat.mod_eq_of_lt acc.isLt]
    | cons x b ih =>
      intro acc
      rw [List.foldl_cons, ih, beNat_cons, List.length_cons]
      have hx : ((acc <<< 8) ||| x.setWidth n).toNat = (acc.toNat * 256 + x.toNat) % 2 ^ n := by
        have hd : (2 : Nat) ^ n = 256 * 2 ^ (n - 8) := by
          rw [show (256 : Nat) = 2 ^ 8 by norm_num, ← Nat.pow_add]; congr 1; omega
        have hxl := x.isLt
        have hxn : x.toNat < 2 ^ n := Nat.lt_of_lt_of_le hxl (Nat.pow_le_pow_right (by norm_num) hn)
        rw [BitVec.toNat_or, BitVec.toNat_shiftLeft, BitVec.toNat_setWidth, Nat.mod_eq_of_lt hxn,
          Nat.shiftLeft_eq]
        have hm : acc.toNat * 2 ^ 8 % 2 ^ n = 2 ^ 8 * (acc.toNat % 2 ^ (n - 8)) := by
          rw [hd, Nat.mul_comm, show (256 : Nat) = 2 ^ 8 by norm_num, Nat.mul_mod_mul_left]
        rw [hm, ← Nat.two_pow_add_eq_or_of_lt hxl, hd]
        rw [show acc.toNat * 256 + x.toNat = x.toNat + 256 * acc.toNat by ring, Nat.mod_mul,
          Nat.add_mul_mod_self_left, Nat.mod_eq_of_lt (show x.toNat < 256 by simpa using hxl),
          Nat.add_mul_div_left _ _ (by norm_num), Nat.div_eq_of_lt (show x.toNat < 256 by simpa using hxl)]
        norm_num; ring
      rw [hx, Nat.add_mod, Nat.mod_mul_mod, ← Nat.add_mod]
      congr 1; ring
  have := key b 0
  simpa [beValue] using this

theorem toNat_blockBe (b : Block) : (blockBe b).toNat = beNat (bytesOf b) := by
  rw [blockBe, toNat_beValue _ (by norm_num), Nat.mod_eq_of_lt]
  have := beNat_lt (bytesOf b)
  rw [length_bytesOf] at this
  calc _ < 256 ^ 16 := this
    _ = 2 ^ 128 := by norm_num

theorem beNat_blockOfBe (v : BitVec 128) : beNat (bytesOf (blockOfBe v)) = v.toNat := by
  rw [blockOfBe, bytesOf_ofBytes (by simp), beNat_beBytes, Nat.mod_eq_of_lt]
  have := v.isLt
  calc _ < 2 ^ 128 := this
    _ = 256 ^ 16 := by norm_num

theorem toNat_blockLe (b : Block) : (blockLe b).toNat = leNat (bytesOf b) := by
  rw [blockLe, leValue, toNat_beValue _ (by norm_num), leNat_eq, Nat.mod_eq_of_lt]
  have := beNat_lt (bytesOf b).reverse
  rw [List.length_reverse, length_bytesOf] at this
  calc _ < 256 ^ 16 := this
    _ = 2 ^ 128 := by norm_num

theorem leNat_blockOfLe (v : BitVec 128) : leNat (bytesOf (blockOfLe v)) = v.toNat := by
  rw [blockOfLe, bytesOf_ofBytes (by simp), leNat_eq, leBytes, List.reverse_reverse, beNat_beBytes,
    Nat.mod_eq_of_lt]
  have := v.isLt
  calc _ < 2 ^ 128 := this
    _ = 256 ^ 16 := by norm_num

/-- Strings of one length with one big-endian number are equal. -/
theorem beNat_inj {a b : Bytes} (hl : a.length = b.length) (h : beNat a = beNat b) : a = b := by
  induction a generalizing b with
  | nil => exact (List.length_eq_zero_iff.1 hl.symm).symm
  | cons x a ih =>
    cases b with
    | nil => simp at hl
    | cons y b =>
      simp only [List.length_cons, Nat.add_right_cancel_iff] at hl
      rw [beNat_cons, beNat_cons, hl] at h
      have ha := hl ▸ beNat_lt a
      have hb := beNat_lt b
      have hxy : x.toNat = y.toNat := by
        have h1 : (x.toNat * 256 ^ b.length + beNat a) / 256 ^ b.length = x.toNat := by
          rw [Nat.mul_comm, Nat.mul_add_div (by positivity), Nat.div_eq_of_lt ha, Nat.add_zero]
        have h2 : (y.toNat * 256 ^ b.length + beNat b) / 256 ^ b.length = y.toNat := by
          rw [Nat.mul_comm, Nat.mul_add_div (by positivity), Nat.div_eq_of_lt hb, Nat.add_zero]
        rw [← h1, ← h2, h]
      rw [hxy] at h
      rw [BitVec.eq_of_toNat_eq hxy, ih hl (by omega)]

theorem blockOfBe_blockBe (b : Block) : blockOfBe (blockBe b) = b := by
  have h : bytesOf (blockOfBe (blockBe b)) = bytesOf b :=
    beNat_inj (by simp) (by rw [beNat_blockOfBe, toNat_blockBe])
  rw [← ofBytes_bytesOf (blockOfBe (blockBe b)), h, ofBytes_bytesOf]

theorem blockBe_blockOfBe (v : BitVec 128) : blockBe (blockOfBe v) = v :=
  BitVec.eq_of_toNat_eq (by rw [toNat_blockBe, beNat_blockOfBe])

end Sys2Proof.Machine
end

