-- ==== Sys2Proof/Laws/Memory.lean ====
section
/-! SUPPORT. The laws of the buffers' memory: reading after writing and erasing, and that every memory operation
keeps the canonical form. -/

namespace Sys2Proof.Machine

/-! ### Reading one byte -/

theorem Memory.get?_eq_none_of_lt {m : Memory} {a : Nat} (h : ∀ c ∈ m, a < c.1) : m.get? a = none := by
  induction m with
  | nil => rfl
  | cons c m ih =>
    obtain ⟨b, v⟩ := c
    have hb : a < b := h (b, v) (by simp)
    simp only [Memory.get?]
    rw [if_neg (by omega)]
    exact ih fun d hd => h d (by simp [hd])

@[simp] theorem Memory.get?_set_same (m : Memory) (a : Nat) (v : Byte) : (m.set a v).get? a = some v := by
  induction m with
  | nil => simp [Memory.set, Memory.get?]
  | cons c m ih =>
    obtain ⟨b, w⟩ := c
    simp only [Memory.set]
    split
    · simp [Memory.get?]
    · split
      · simp [Memory.get?]
      · next h1 h2 => simp only [Memory.get?]; rw [if_neg (by omega)]; exact ih

theorem Memory.get?_set_other (m : Memory) {a b : Nat} (v : Byte) (h : b ≠ a) :
    (m.set a v).get? b = m.get? b := by
  induction m with
  | nil => simp [Memory.set, Memory.get?, Ne.symm h]
  | cons c m ih =>
    obtain ⟨d, w⟩ := c
    simp only [Memory.set]
    split
    · simp only [Memory.get?]; rw [if_neg (Ne.symm h)]
    · split
      · next h2 => subst h2; simp only [Memory.get?]; rw [if_neg (Ne.symm h), if_neg (Ne.symm h)]
      · simp only [Memory.get?]; split
        · rfl
        · exact ih

theorem Memory.get?_erase_other (m : Memory) {a b : Nat} (h : b ≠ a) : (m.erase a).get? b = m.get? b := by
  induction m with
  | nil => rfl
  | cons c m ih =>
    obtain ⟨d, w⟩ := c
    simp only [Memory.erase]
    split
    · next h2 => subst h2; simp only [Memory.get?]; rw [if_neg (Ne.symm h)]
    · simp only [Memory.get?]; split
      · rfl
      · exact ih

/-! ### The canonical form -/

theorem Memory.mem_set {m : Memory} {a : Nat} {v : Byte} {c : Host.Cell} (h : c ∈ m.set a v) :
    c = (a, v) ∨ c ∈ m := by
  induction m with
  | nil => simpa [Memory.set] using h
  | cons d m ih =>
    obtain ⟨b, w⟩ := d
    simp only [Memory.set] at h
    split at h
    · simpa using h
    · split at h
      · rcases List.mem_cons.1 h with h | h
        · exact .inl h
        · exact .inr (by simp [h])
      · rcases List.mem_cons.1 h with h | h
        · exact .inr (by simp [h])
        · rcases ih h with h | h
          · exact .inl h
          · exact .inr (by simp [h])

theorem Memory.mem_erase {m : Memory} {a : Nat} {c : Host.Cell} (h : c ∈ m.erase a) : c ∈ m := by
  induction m with
  | nil => simp [Memory.erase] at h
  | cons d m ih =>
    obtain ⟨b, w⟩ := d
    simp only [Memory.erase] at h
    split at h
    · simp [h]
    · rcases List.mem_cons.1 h with h | h
      · simp [h]
      · simp [ih h]

theorem Memory.wf_set {m : Memory} (h : m.wf) (a : Nat) (v : Byte) : (m.set a v).wf := by
  induction m with
  | nil => simp [Memory.set, Memory.wf]
  | cons c m ih =>
    obtain ⟨b, w⟩ := c
    obtain ⟨hc, hm⟩ := List.pairwise_cons.1 h
    simp only [Memory.set]
    split
    · next hab =>
      refine List.pairwise_cons.2 ⟨fun d hd => ?_, h⟩
      rcases List.mem_cons.1 hd with rfl | hd
      · exact hab
      · exact Nat.lt_trans hab (hc d hd)
    · split
      · next _ hab => subst hab; exact List.pairwise_cons.2 ⟨hc, hm⟩
      · next h1 h2 =>
        refine List.pairwise_cons.2 ⟨fun d hd => ?_, ih hm⟩
        rcases Memory.mem_set hd with rfl | hd
        · show b < a; omega
        · exact hc d hd

theorem Memory.wf_erase {m : Memory} (h : m.wf) (a : Nat) : (m.erase a).wf := by
  induction m with
  | nil => simp [Memory.erase, Memory.wf]
  | cons c m ih =>
    obtain ⟨b, w⟩ := c
    obtain ⟨hc, hm⟩ := List.pairwise_cons.1 h
    simp only [Memory.erase]
    split
    · exact hm
    · exact List.pairwise_cons.2 ⟨fun d hd => hc d (Memory.mem_erase hd), ih hm⟩

theorem Memory.get?_erase_same {m : Memory} (h : m.wf) (a : Nat) : (m.erase a).get? a = none := by
  induction m with
  | nil => rfl
  | cons c m ih =>
    obtain ⟨b, w⟩ := c
    obtain ⟨hc, hm⟩ := List.pairwise_cons.1 h
    simp only [Memory.erase]
    split
    · next hb => subst hb; exact Memory.get?_eq_none_of_lt hc
    · next hb => simp only [Memory.get?]; rw [if_neg hb]; exact ih hm

theorem Memory.wf_writeFrom {m : Memory} (h : m.wf) (a : Nat) (vs : Bytes) : (m.writeFrom a vs).wf := by
  induction vs generalizing m a with
  | nil => exact h
  | cons v vs ih => exact ih (Memory.wf_set h a v) (a + 1)

theorem Memory.wf_eraseFrom {m : Memory} (h : m.wf) (a n : Nat) : (m.eraseFrom a n).wf := by
  induction n generalizing m a with
  | zero => exact h
  | succ n ih => exact ih (Memory.wf_erase h a) (a + 1)

/-! ### Byte strings -/

theorem Memory.get?_writeFrom_outside (m : Memory) (a : Nat) (vs : Bytes) {b : Nat}
    (h : b < a ∨ a + vs.length ≤ b) : (m.writeFrom a vs).get? b = m.get? b := by
  induction vs generalizing m a with
  | nil => rfl
  | cons v vs ih =>
    simp only [List.length_cons] at h
    rw [Memory.writeFrom, ih _ _ (by omega), Memory.get?_set_other _ _ (by omega)]

theorem Memory.get?_writeFrom_inside (m : Memory) (a : Nat) (vs : Bytes) {k : Nat} (h : k < vs.length) :
    (m.writeFrom a vs).get? (a + k) = some vs[k] := by
  induction vs generalizing m a k with
  | nil => simp at h
  | cons v vs ih =>
    rw [Memory.writeFrom]
    cases k with
    | zero => rw [Memory.get?_writeFrom_outside _ _ _ (by omega)]; simp
    | succ k =>
      have := ih (m.set a v) (a + 1) (k := k) (by simpa using h)
      rw [show a + (k + 1) = a + 1 + k by omega, this]; rfl

theorem Memory.get?_eraseFrom_outside (m : Memory) (a n : Nat) {b : Nat} (h : b < a ∨ a + n ≤ b) :
    (m.eraseFrom a n).get? b = m.get? b := by
  induction n generalizing m a with
  | zero => rfl
  | succ n ih => rw [Memory.eraseFrom, ih _ _ (by omega), Memory.get?_erase_other _ (by omega)]

theorem Memory.get?_eraseFrom_inside {m : Memory} (hm : m.wf) (a : Nat) {n k : Nat} (h : k < n) :
    (m.eraseFrom a n).get? (a + k) = none := by
  induction n generalizing m a k with
  | zero => omega
  | succ n ih =>
    rw [Memory.eraseFrom]
    cases k with
    | zero => rw [Memory.get?_eraseFrom_outside _ _ _ (by omega)]; exact Memory.get?_erase_same hm a
    | succ k => rw [show a + (k + 1) = a + 1 + k by omega]; exact ih (Memory.wf_erase hm a) (a + 1) (by omega)

/-- `readFrom` succeeds exactly when every byte holds a value, with those values. -/
theorem Memory.readFrom_ok_iff (m : Memory) (a pos n : Nat) (vs : Bytes) :
    m.readFrom a pos n = .ok vs ↔
      vs.length = n ∧ ∀ k, (h : k < vs.length) → m.get? (a + (pos + k)) = some vs[k] := by
  induction n generalizing pos vs with
  | zero =>
    simp only [Memory.readFrom, Except.ok.injEq]
    constructor
    · rintro rfl; simp
    · rintro ⟨h, -⟩; exact (List.length_eq_zero_iff.1 h).symm
  | succ n ih =>
    simp only [Memory.readFrom]
    cases hg : m.get? (a + pos) with
    | none =>
      simp only [reduceCtorEq, false_iff, not_and, not_forall]
      intro h
      exact ⟨0, by omega, by simp [hg]⟩
    | some v =>
      cases hr : m.readFrom a (pos + 1) n with
      | error e =>
        simp only [reduceCtorEq, false_iff, not_and]
        intro hl hall
        obtain ⟨w, ws, rfl⟩ : ∃ w ws, vs = w :: ws := by
          cases vs with
          | nil => simp at hl
          | cons w ws => exact ⟨w, ws, rfl⟩
        have : m.readFrom a (pos + 1) n = .ok ws := by
          rw [ih]
          refine ⟨by simpa using hl, fun k hk => ?_⟩
          have := hall (k + 1) (by simpa using hk)
          rw [show pos + 1 + k = pos + (k + 1) by omega]; simpa using this
        rw [hr] at this; cases this
      | ok ws =>
        simp only [Except.ok.injEq]
        obtain ⟨hl, hall⟩ := (ih (pos + 1) ws).1 hr
        constructor
        · rintro rfl
          refine ⟨by simp [hl], fun k hk => ?_⟩
          cases k with
          | zero => simpa using hg
          | succ k =>
            have := hall k (by simpa using hk)
            rw [show pos + (k + 1) = pos + 1 + k by omega]; simpa using this
        · rintro ⟨hl', hall'⟩
          refine List.ext_getElem (by simp [hl, hl']) fun k h1 h2 => ?_
          have h' := hall' k h2
          cases k with
          | zero => rw [Nat.add_zero, hg] at h'; simpa using h'
          | succ k =>
            have := hall k (by simpa using h1)
            rw [show pos + 1 + k = pos + (k + 1) by omega, h'] at this
            simpa using this.symm

/-- `readFrom` fails exactly at the lowest position whose byte holds no value. -/
theorem Memory.readFrom_error (m : Memory) (a pos n e : Nat) (h : m.readFrom a pos n = .error e) :
    pos ≤ e ∧ e < pos + n ∧ m.get? (a + e) = none ∧ ∀ k, pos ≤ k → k < e → m.get? (a + k) ≠ none := by
  induction n generalizing pos with
  | zero => simp [Memory.readFrom] at h
  | succ n ih =>
    simp only [Memory.readFrom] at h
    cases hg : m.get? (a + pos) with
    | none =>
      rw [hg] at h
      obtain rfl : pos = e := by simpa using h
      exact ⟨Nat.le_refl _, by omega, hg, fun k h1 h2 => by omega⟩
    | some v =>
      rw [hg] at h
      cases hr : m.readFrom a (pos + 1) n with
      | ok ws => simp [hr] at h
      | error e' =>
        obtain rfl : e' = e := by simpa [hr] using h
        obtain ⟨h1, h2, h3, h4⟩ := ih (pos + 1) hr
        refine ⟨by omega, by omega, h3, fun k hk1 hk2 => ?_⟩
        rcases Nat.eq_or_lt_of_le hk1 with rfl | hlt
        · simp [hg]
        · exact h4 k hlt hk2

/-! ### BufRead -/

/-- `BufRead` succeeds exactly when every byte it touches holds a value, with those values (R98). -/
theorem State.bufRead_ok_iff (s : State) (b : Buffer) (n : Nat) (vs : Bytes) :
    s.bufRead b n = .ok vs ↔
      vs.length = n ∧ ∀ k, (h : k < vs.length) → s.mem.get? (b.base + k) = some vs[k] := by
  have := Memory.readFrom_ok_iff s.mem b.base 0 n vs
  simp only [Nat.zero_add] at this
  rw [← this]
  unfold State.bufRead
  cases s.mem.readFrom b.base 0 n <;> simp

/-- `BufRead` faults at the lowest offset that holds no value (R375). -/
theorem State.bufRead_error (s : State) (b : Buffer) (n : Nat) (f : Fault) (h : s.bufRead b n = .error f) :
    ∃ k, f = .unwrittenBuffer b k ∧ k < n ∧ s.mem.get? (b.base + k) = none ∧
      ∀ j < k, s.mem.get? (b.base + j) ≠ none := by
  unfold State.bufRead at h
  cases hr : s.mem.readFrom b.base 0 n with
  | ok vs => simp [hr] at h
  | error e =>
    rw [hr] at h
    obtain ⟨-, h2, h3, h4⟩ := Memory.readFrom_error _ _ _ _ _ hr
    exact ⟨e, by simpa using h.symm, by omega, h3, fun j hj => h4 j (Nat.zero_le _) hj⟩

/-- `BufRead` depends on the memory alone. -/
theorem State.bufRead_congr {s t : State} (h : s.mem = t.mem) (b : Buffer) (n : Nat) :
    s.bufRead b n = t.bufRead b n := by
  unfold State.bufRead; rw [h]

end Sys2Proof.Machine
end

