-- ==== Sys2Proof/Laws/State.lean ====
section
/-! SUPPORT. The state's updates, field by field: for each named update of Machine/Ops.lean, Machine/KeySchedule.lean
and Machine/BlockCore.lean one lemma per field of State, so that no proof unfolds a record update. -/

namespace Sys2Proof.Machine

/-! ### complete -/

@[simp] theorem State.complete_config (s : State) : s.complete.config = s.config := rfl
@[simp] theorem State.complete_ctrl (s : State) : s.complete.ctrl = s.ctrl := rfl
@[simp] theorem State.complete_lastCmd (s : State) : s.complete.lastCmd = s.lastCmd := rfl
@[simp] theorem State.complete_status (s : State) : s.complete.status = s.status.complete := rfl
@[simp] theorem State.complete_keyLen (s : State) : s.complete.keyLen = s.keyLen := rfl
@[simp] theorem State.complete_ivLen (s : State) : s.complete.ivLen = s.ivLen := rfl
@[simp] theorem State.complete_nonceLen (s : State) : s.complete.nonceLen = s.nonceLen := rfl
@[simp] theorem State.complete_tweakLen (s : State) : s.complete.tweakLen = s.tweakLen := rfl
@[simp] theorem State.complete_msgLen (s : State) : s.complete.msgLen = s.msgLen := rfl
@[simp] theorem State.complete_auxLen (s : State) : s.complete.auxLen = s.auxLen := rfl
@[simp] theorem State.complete_outLen (s : State) : s.complete.outLen = s.outLen := rfl
@[simp] theorem State.complete_iter (s : State) : s.complete.iter = s.iter := rfl
@[simp] theorem State.complete_dkLen (s : State) : s.complete.dkLen = s.dkLen := rfl
@[simp] theorem State.complete_gfA (s : State) : s.complete.gfA = s.gfA := rfl
@[simp] theorem State.complete_gfB (s : State) : s.complete.gfB = s.gfB := rfl
@[simp] theorem State.complete_gfR (s : State) : s.complete.gfR = s.gfR := rfl
@[simp] theorem State.complete_key (s : State) : s.complete.key = s.key := rfl
@[simp] theorem State.complete_iv (s : State) : s.complete.iv = s.iv := rfl
@[simp] theorem State.complete_nonce (s : State) : s.complete.nonce = s.nonce := rfl
@[simp] theorem State.complete_tweak (s : State) : s.complete.tweak = s.tweak := rfl
@[simp] theorem State.complete_block (s : State) : s.complete.block = s.block := rfl
@[simp] theorem State.complete_tag (s : State) : s.complete.tag = s.tag := rfl
@[simp] theorem State.complete_rk (s : State) : s.complete.rk = s.rk := rfl
@[simp] theorem State.complete_mem (s : State) : s.complete.mem = s.mem := rfl
@[simp] theorem State.complete_latch (s : State) : s.complete.latch = none := rfl
@[simp] theorem State.complete_trace (s : State) : s.complete.trace = s.trace := rfl
@[simp] theorem State.complete_hostQueue (s : State) : s.complete.hostQueue = s.hostQueue := rfl
@[simp] theorem State.complete_hostLog (s : State) : s.complete.hostLog = s.hostLog := rfl
@[simp] theorem State.complete_draws (s : State) : s.complete.draws = s.draws := rfl

/-! ### raise -/

@[simp] theorem State.raise_config (s : State) (e : ErrCode) : (s.raise e).config = s.config := rfl
@[simp] theorem State.raise_ctrl (s : State) (e : ErrCode) : (s.raise e).ctrl = s.ctrl := rfl
@[simp] theorem State.raise_lastCmd (s : State) (e : ErrCode) : (s.raise e).lastCmd = s.lastCmd := rfl
@[simp] theorem State.raise_status (s : State) (e : ErrCode) : (s.raise e).status = s.status.completeError e := rfl
@[simp] theorem State.raise_keyLen (s : State) (e : ErrCode) : (s.raise e).keyLen = s.keyLen := rfl
@[simp] theorem State.raise_ivLen (s : State) (e : ErrCode) : (s.raise e).ivLen = s.ivLen := rfl
@[simp] theorem State.raise_nonceLen (s : State) (e : ErrCode) : (s.raise e).nonceLen = s.nonceLen := rfl
@[simp] theorem State.raise_tweakLen (s : State) (e : ErrCode) : (s.raise e).tweakLen = s.tweakLen := rfl
@[simp] theorem State.raise_msgLen (s : State) (e : ErrCode) : (s.raise e).msgLen = s.msgLen := rfl
@[simp] theorem State.raise_auxLen (s : State) (e : ErrCode) : (s.raise e).auxLen = s.auxLen := rfl
@[simp] theorem State.raise_outLen (s : State) (e : ErrCode) : (s.raise e).outLen = s.outLen := rfl
@[simp] theorem State.raise_iter (s : State) (e : ErrCode) : (s.raise e).iter = s.iter := rfl
@[simp] theorem State.raise_dkLen (s : State) (e : ErrCode) : (s.raise e).dkLen = s.dkLen := rfl
@[simp] theorem State.raise_gfA (s : State) (e : ErrCode) : (s.raise e).gfA = s.gfA := rfl
@[simp] theorem State.raise_gfB (s : State) (e : ErrCode) : (s.raise e).gfB = s.gfB := rfl
@[simp] theorem State.raise_gfR (s : State) (e : ErrCode) : (s.raise e).gfR = s.gfR := rfl
@[simp] theorem State.raise_key (s : State) (e : ErrCode) : (s.raise e).key = s.key := rfl
@[simp] theorem State.raise_iv (s : State) (e : ErrCode) : (s.raise e).iv = s.iv := rfl
@[simp] theorem State.raise_nonce (s : State) (e : ErrCode) : (s.raise e).nonce = s.nonce := rfl
@[simp] theorem State.raise_tweak (s : State) (e : ErrCode) : (s.raise e).tweak = s.tweak := rfl
@[simp] theorem State.raise_block (s : State) (e : ErrCode) : (s.raise e).block = s.block := rfl
@[simp] theorem State.raise_tag (s : State) (e : ErrCode) : (s.raise e).tag = s.tag := rfl
@[simp] theorem State.raise_rk (s : State) (e : ErrCode) : (s.raise e).rk = s.rk := rfl
@[simp] theorem State.raise_mem (s : State) (e : ErrCode) : (s.raise e).mem = s.mem := rfl
@[simp] theorem State.raise_latch (s : State) (e : ErrCode) : (s.raise e).latch = none := rfl
@[simp] theorem State.raise_trace (s : State) (e : ErrCode) : (s.raise e).trace = s.trace := rfl
@[simp] theorem State.raise_hostQueue (s : State) (e : ErrCode) : (s.raise e).hostQueue = s.hostQueue := rfl
@[simp] theorem State.raise_hostLog (s : State) (e : ErrCode) : (s.raise e).hostLog = s.hostLog := rfl
@[simp] theorem State.raise_draws (s : State) (e : ErrCode) : (s.raise e).draws = s.draws := rfl

/-! ### setOutLen -/

@[simp] theorem State.setOutLen_config (s : State) (n : Nat) : (s.setOutLen n).config = s.config := rfl
@[simp] theorem State.setOutLen_ctrl (s : State) (n : Nat) : (s.setOutLen n).ctrl = s.ctrl := rfl
@[simp] theorem State.setOutLen_lastCmd (s : State) (n : Nat) : (s.setOutLen n).lastCmd = s.lastCmd := rfl
@[simp] theorem State.setOutLen_status (s : State) (n : Nat) : (s.setOutLen n).status = s.status := rfl
@[simp] theorem State.setOutLen_keyLen (s : State) (n : Nat) : (s.setOutLen n).keyLen = s.keyLen := rfl
@[simp] theorem State.setOutLen_ivLen (s : State) (n : Nat) : (s.setOutLen n).ivLen = s.ivLen := rfl
@[simp] theorem State.setOutLen_nonceLen (s : State) (n : Nat) : (s.setOutLen n).nonceLen = s.nonceLen := rfl
@[simp] theorem State.setOutLen_tweakLen (s : State) (n : Nat) : (s.setOutLen n).tweakLen = s.tweakLen := rfl
@[simp] theorem State.setOutLen_msgLen (s : State) (n : Nat) : (s.setOutLen n).msgLen = s.msgLen := rfl
@[simp] theorem State.setOutLen_auxLen (s : State) (n : Nat) : (s.setOutLen n).auxLen = s.auxLen := rfl
@[simp] theorem State.setOutLen_outLen (s : State) (n : Nat) : (s.setOutLen n).outLen = BitVec.ofNat 16 n := rfl
@[simp] theorem State.setOutLen_iter (s : State) (n : Nat) : (s.setOutLen n).iter = s.iter := rfl
@[simp] theorem State.setOutLen_dkLen (s : State) (n : Nat) : (s.setOutLen n).dkLen = s.dkLen := rfl
@[simp] theorem State.setOutLen_gfA (s : State) (n : Nat) : (s.setOutLen n).gfA = s.gfA := rfl
@[simp] theorem State.setOutLen_gfB (s : State) (n : Nat) : (s.setOutLen n).gfB = s.gfB := rfl
@[simp] theorem State.setOutLen_gfR (s : State) (n : Nat) : (s.setOutLen n).gfR = s.gfR := rfl
@[simp] theorem State.setOutLen_key (s : State) (n : Nat) : (s.setOutLen n).key = s.key := rfl
@[simp] theorem State.setOutLen_iv (s : State) (n : Nat) : (s.setOutLen n).iv = s.iv := rfl
@[simp] theorem State.setOutLen_nonce (s : State) (n : Nat) : (s.setOutLen n).nonce = s.nonce := rfl
@[simp] theorem State.setOutLen_tweak (s : State) (n : Nat) : (s.setOutLen n).tweak = s.tweak := rfl
@[simp] theorem State.setOutLen_block (s : State) (n : Nat) : (s.setOutLen n).block = s.block := rfl
@[simp] theorem State.setOutLen_tag (s : State) (n : Nat) : (s.setOutLen n).tag = s.tag := rfl
@[simp] theorem State.setOutLen_rk (s : State) (n : Nat) : (s.setOutLen n).rk = s.rk := rfl
@[simp] theorem State.setOutLen_mem (s : State) (n : Nat) : (s.setOutLen n).mem = s.mem := rfl
@[simp] theorem State.setOutLen_latch (s : State) (n : Nat) : (s.setOutLen n).latch = s.latch := rfl
@[simp] theorem State.setOutLen_trace (s : State) (n : Nat) : (s.setOutLen n).trace = s.trace := rfl
@[simp] theorem State.setOutLen_hostQueue (s : State) (n : Nat) : (s.setOutLen n).hostQueue = s.hostQueue := rfl
@[simp] theorem State.setOutLen_hostLog (s : State) (n : Nat) : (s.setOutLen n).hostLog = s.hostLog := rfl
@[simp] theorem State.setOutLen_draws (s : State) (n : Nat) : (s.setOutLen n).draws = s.draws := rfl

/-! ### bufWrite -/

@[simp] theorem State.bufWrite_config (s : State) (b : Buffer) (v : Bytes) : (s.bufWrite b v).config = s.config := rfl
@[simp] theorem State.bufWrite_ctrl (s : State) (b : Buffer) (v : Bytes) : (s.bufWrite b v).ctrl = s.ctrl := rfl
@[simp] theorem State.bufWrite_lastCmd (s : State) (b : Buffer) (v : Bytes) : (s.bufWrite b v).lastCmd = s.lastCmd := rfl
@[simp] theorem State.bufWrite_status (s : State) (b : Buffer) (v : Bytes) : (s.bufWrite b v).status = s.status := rfl
@[simp] theorem State.bufWrite_keyLen (s : State) (b : Buffer) (v : Bytes) : (s.bufWrite b v).keyLen = s.keyLen := rfl
@[simp] theorem State.bufWrite_ivLen (s : State) (b : Buffer) (v : Bytes) : (s.bufWrite b v).ivLen = s.ivLen := rfl
@[simp] theorem State.bufWrite_nonceLen (s : State) (b : Buffer) (v : Bytes) : (s.bufWrite b v).nonceLen = s.nonceLen := rfl
@[simp] theorem State.bufWrite_tweakLen (s : State) (b : Buffer) (v : Bytes) : (s.bufWrite b v).tweakLen = s.tweakLen := rfl
@[simp] theorem State.bufWrite_msgLen (s : State) (b : Buffer) (v : Bytes) : (s.bufWrite b v).msgLen = s.msgLen := rfl
@[simp] theorem State.bufWrite_auxLen (s : State) (b : Buffer) (v : Bytes) : (s.bufWrite b v).auxLen = s.auxLen := rfl
@[simp] theorem State.bufWrite_outLen (s : State) (b : Buffer) (v : Bytes) : (s.bufWrite b v).outLen = s.outLen := rfl
@[simp] theorem State.bufWrite_iter (s : State) (b : Buffer) (v : Bytes) : (s.bufWrite b v).iter = s.iter := rfl
@[simp] theorem State.bufWrite_dkLen (s : State) (b : Buffer) (v : Bytes) : (s.bufWrite b v).dkLen = s.dkLen := rfl
@[simp] theorem State.bufWrite_gfA (s : State) (b : Buffer) (v : Bytes) : (s.bufWrite b v).gfA = s.gfA := rfl
@[simp] theorem State.bufWrite_gfB (s : State) (b : Buffer) (v : Bytes) : (s.bufWrite b v).gfB = s.gfB := rfl
@[simp] theorem State.bufWrite_gfR (s : State) (b : Buffer) (v : Bytes) : (s.bufWrite b v).gfR = s.gfR := rfl
@[simp] theorem State.bufWrite_key (s : State) (b : Buffer) (v : Bytes) : (s.bufWrite b v).key = s.key := rfl
@[simp] theorem State.bufWrite_iv (s : State) (b : Buffer) (v : Bytes) : (s.bufWrite b v).iv = s.iv := rfl
@[simp] theorem State.bufWrite_nonce (s : State) (b : Buffer) (v : Bytes) : (s.bufWrite b v).nonce = s.nonce := rfl
@[simp] theorem State.bufWrite_tweak (s : State) (b : Buffer) (v : Bytes) : (s.bufWrite b v).tweak = s.tweak := rfl
@[simp] theorem State.bufWrite_block (s : State) (b : Buffer) (v : Bytes) : (s.bufWrite b v).block = s.block := rfl
@[simp] theorem State.bufWrite_tag (s : State) (b : Buffer) (v : Bytes) : (s.bufWrite b v).tag = s.tag := rfl
@[simp] theorem State.bufWrite_rk (s : State) (b : Buffer) (v : Bytes) : (s.bufWrite b v).rk = s.rk := rfl
@[simp] theorem State.bufWrite_mem (s : State) (b : Buffer) (v : Bytes) : (s.bufWrite b v).mem = s.mem.writeFrom b.base v := rfl
@[simp] theorem State.bufWrite_latch (s : State) (b : Buffer) (v : Bytes) : (s.bufWrite b v).latch = s.latch := rfl
@[simp] theorem State.bufWrite_trace (s : State) (b : Buffer) (v : Bytes) : (s.bufWrite b v).trace = s.trace := rfl
@[simp] theorem State.bufWrite_hostQueue (s : State) (b : Buffer) (v : Bytes) : (s.bufWrite b v).hostQueue = s.hostQueue := rfl
@[simp] theorem State.bufWrite_hostLog (s : State) (b : Buffer) (v : Bytes) : (s.bufWrite b v).hostLog = s.hostLog := rfl
@[simp] theorem State.bufWrite_draws (s : State) (b : Buffer) (v : Bytes) : (s.bufWrite b v).draws = s.draws := rfl

/-! ### bufVoid -/

@[simp] theorem State.bufVoid_config (s : State) (b : Buffer) (n : Nat) : (s.bufVoid b n).config = s.config := rfl
@[simp] theorem State.bufVoid_ctrl (s : State) (b : Buffer) (n : Nat) : (s.bufVoid b n).ctrl = s.ctrl := rfl
@[simp] theorem State.bufVoid_lastCmd (s : State) (b : Buffer) (n : Nat) : (s.bufVoid b n).lastCmd = s.lastCmd := rfl
@[simp] theorem State.bufVoid_status (s : State) (b : Buffer) (n : Nat) : (s.bufVoid b n).status = s.status := rfl
@[simp] theorem State.bufVoid_keyLen (s : State) (b : Buffer) (n : Nat) : (s.bufVoid b n).keyLen = s.keyLen := rfl
@[simp] theorem State.bufVoid_ivLen (s : State) (b : Buffer) (n : Nat) : (s.bufVoid b n).ivLen = s.ivLen := rfl
@[simp] theorem State.bufVoid_nonceLen (s : State) (b : Buffer) (n : Nat) : (s.bufVoid b n).nonceLen = s.nonceLen := rfl
@[simp] theorem State.bufVoid_tweakLen (s : State) (b : Buffer) (n : Nat) : (s.bufVoid b n).tweakLen = s.tweakLen := rfl
@[simp] theorem State.bufVoid_msgLen (s : State) (b : Buffer) (n : Nat) : (s.bufVoid b n).msgLen = s.msgLen := rfl
@[simp] theorem State.bufVoid_auxLen (s : State) (b : Buffer) (n : Nat) : (s.bufVoid b n).auxLen = s.auxLen := rfl
@[simp] theorem State.bufVoid_outLen (s : State) (b : Buffer) (n : Nat) : (s.bufVoid b n).outLen = s.outLen := rfl
@[simp] theorem State.bufVoid_iter (s : State) (b : Buffer) (n : Nat) : (s.bufVoid b n).iter = s.iter := rfl
@[simp] theorem State.bufVoid_dkLen (s : State) (b : Buffer) (n : Nat) : (s.bufVoid b n).dkLen = s.dkLen := rfl
@[simp] theorem State.bufVoid_gfA (s : State) (b : Buffer) (n : Nat) : (s.bufVoid b n).gfA = s.gfA := rfl
@[simp] theorem State.bufVoid_gfB (s : State) (b : Buffer) (n : Nat) : (s.bufVoid b n).gfB = s.gfB := rfl
@[simp] theorem State.bufVoid_gfR (s : State) (b : Buffer) (n : Nat) : (s.bufVoid b n).gfR = s.gfR := rfl
@[simp] theorem State.bufVoid_key (s : State) (b : Buffer) (n : Nat) : (s.bufVoid b n).key = s.key := rfl
@[simp] theorem State.bufVoid_iv (s : State) (b : Buffer) (n : Nat) : (s.bufVoid b n).iv = s.iv := rfl
@[simp] theorem State.bufVoid_nonce (s : State) (b : Buffer) (n : Nat) : (s.bufVoid b n).nonce = s.nonce := rfl
@[simp] theorem State.bufVoid_tweak (s : State) (b : Buffer) (n : Nat) : (s.bufVoid b n).tweak = s.tweak := rfl
@[simp] theorem State.bufVoid_block (s : State) (b : Buffer) (n : Nat) : (s.bufVoid b n).block = s.block := rfl
@[simp] theorem State.bufVoid_tag (s : State) (b : Buffer) (n : Nat) : (s.bufVoid b n).tag = s.tag := rfl
@[simp] theorem State.bufVoid_rk (s : State) (b : Buffer) (n : Nat) : (s.bufVoid b n).rk = s.rk := rfl
@[simp] theorem State.bufVoid_mem (s : State) (b : Buffer) (n : Nat) : (s.bufVoid b n).mem = s.mem.eraseFrom b.base n := rfl
@[simp] theorem State.bufVoid_latch (s : State) (b : Buffer) (n : Nat) : (s.bufVoid b n).latch = s.latch := rfl
@[simp] theorem State.bufVoid_trace (s : State) (b : Buffer) (n : Nat) : (s.bufVoid b n).trace = s.trace := rfl
@[simp] theorem State.bufVoid_hostQueue (s : State) (b : Buffer) (n : Nat) : (s.bufVoid b n).hostQueue = s.hostQueue := rfl
@[simp] theorem State.bufVoid_hostLog (s : State) (b : Buffer) (n : Nat) : (s.bufVoid b n).hostLog = s.hostLog := rfl
@[simp] theorem State.bufVoid_draws (s : State) (b : Buffer) (n : Nat) : (s.bufVoid b n).draws = s.draws := rfl

/-! ### drew -/

@[simp] theorem State.drew_config (s : State) (n : Nat) : (s.drew n).config = s.config := rfl
@[simp] theorem State.drew_ctrl (s : State) (n : Nat) : (s.drew n).ctrl = s.ctrl := rfl
@[simp] theorem State.drew_lastCmd (s : State) (n : Nat) : (s.drew n).lastCmd = s.lastCmd := rfl
@[simp] theorem State.drew_status (s : State) (n : Nat) : (s.drew n).status = s.status := rfl
@[simp] theorem State.drew_keyLen (s : State) (n : Nat) : (s.drew n).keyLen = s.keyLen := rfl
@[simp] theorem State.drew_ivLen (s : State) (n : Nat) : (s.drew n).ivLen = s.ivLen := rfl
@[simp] theorem State.drew_nonceLen (s : State) (n : Nat) : (s.drew n).nonceLen = s.nonceLen := rfl
@[simp] theorem State.drew_tweakLen (s : State) (n : Nat) : (s.drew n).tweakLen = s.tweakLen := rfl
@[simp] theorem State.drew_msgLen (s : State) (n : Nat) : (s.drew n).msgLen = s.msgLen := rfl
@[simp] theorem State.drew_auxLen (s : State) (n : Nat) : (s.drew n).auxLen = s.auxLen := rfl
@[simp] theorem State.drew_outLen (s : State) (n : Nat) : (s.drew n).outLen = s.outLen := rfl
@[simp] theorem State.drew_iter (s : State) (n : Nat) : (s.drew n).iter = s.iter := rfl
@[simp] theorem State.drew_dkLen (s : State) (n : Nat) : (s.drew n).dkLen = s.dkLen := rfl
@[simp] theorem State.drew_gfA (s : State) (n : Nat) : (s.drew n).gfA = s.gfA := rfl
@[simp] theorem State.drew_gfB (s : State) (n : Nat) : (s.drew n).gfB = s.gfB := rfl
@[simp] theorem State.drew_gfR (s : State) (n : Nat) : (s.drew n).gfR = s.gfR := rfl
@[simp] theorem State.drew_key (s : State) (n : Nat) : (s.drew n).key = s.key := rfl
@[simp] theorem State.drew_iv (s : State) (n : Nat) : (s.drew n).iv = s.iv := rfl
@[simp] theorem State.drew_nonce (s : State) (n : Nat) : (s.drew n).nonce = s.nonce := rfl
@[simp] theorem State.drew_tweak (s : State) (n : Nat) : (s.drew n).tweak = s.tweak := rfl
@[simp] theorem State.drew_block (s : State) (n : Nat) : (s.drew n).block = s.block := rfl
@[simp] theorem State.drew_tag (s : State) (n : Nat) : (s.drew n).tag = s.tag := rfl
@[simp] theorem State.drew_rk (s : State) (n : Nat) : (s.drew n).rk = s.rk := rfl
@[simp] theorem State.drew_mem (s : State) (n : Nat) : (s.drew n).mem = s.mem := rfl
@[simp] theorem State.drew_latch (s : State) (n : Nat) : (s.drew n).latch = s.latch := rfl
@[simp] theorem State.drew_trace (s : State) (n : Nat) : (s.drew n).trace = s.trace := rfl
@[simp] theorem State.drew_hostQueue (s : State) (n : Nat) : (s.drew n).hostQueue = s.hostQueue := rfl
@[simp] theorem State.drew_hostLog (s : State) (n : Nat) : (s.drew n).hostLog = s.hostLog := rfl
@[simp] theorem State.drew_draws (s : State) (n : Nat) : (s.drew n).draws = s.draws + n := rfl

/-! ### accept -/

@[simp] theorem State.accept_config (s : State) (w : Word) : (s.accept w).config = s.config := rfl
@[simp] theorem State.accept_ctrl (s : State) (w : Word) : (s.accept w).ctrl = s.ctrl := rfl
@[simp] theorem State.accept_lastCmd (s : State) (w : Word) : (s.accept w).lastCmd = w := rfl
@[simp] theorem State.accept_status (s : State) (w : Word) : (s.accept w).status = s.status.accept := rfl
@[simp] theorem State.accept_keyLen (s : State) (w : Word) : (s.accept w).keyLen = s.keyLen := rfl
@[simp] theorem State.accept_ivLen (s : State) (w : Word) : (s.accept w).ivLen = s.ivLen := rfl
@[simp] theorem State.accept_nonceLen (s : State) (w : Word) : (s.accept w).nonceLen = s.nonceLen := rfl
@[simp] theorem State.accept_tweakLen (s : State) (w : Word) : (s.accept w).tweakLen = s.tweakLen := rfl
@[simp] theorem State.accept_msgLen (s : State) (w : Word) : (s.accept w).msgLen = s.msgLen := rfl
@[simp] theorem State.accept_auxLen (s : State) (w : Word) : (s.accept w).auxLen = s.auxLen := rfl
@[simp] theorem State.accept_outLen (s : State) (w : Word) : (s.accept w).outLen = s.outLen := rfl
@[simp] theorem State.accept_iter (s : State) (w : Word) : (s.accept w).iter = s.iter := rfl
@[simp] theorem State.accept_dkLen (s : State) (w : Word) : (s.accept w).dkLen = s.dkLen := rfl
@[simp] theorem State.accept_gfA (s : State) (w : Word) : (s.accept w).gfA = s.gfA := rfl
@[simp] theorem State.accept_gfB (s : State) (w : Word) : (s.accept w).gfB = s.gfB := rfl
@[simp] theorem State.accept_gfR (s : State) (w : Word) : (s.accept w).gfR = s.gfR := rfl
@[simp] theorem State.accept_key (s : State) (w : Word) : (s.accept w).key = s.key := rfl
@[simp] theorem State.accept_iv (s : State) (w : Word) : (s.accept w).iv = s.iv := rfl
@[simp] theorem State.accept_nonce (s : State) (w : Word) : (s.accept w).nonce = s.nonce := rfl
@[simp] theorem State.accept_tweak (s : State) (w : Word) : (s.accept w).tweak = s.tweak := rfl
@[simp] theorem State.accept_block (s : State) (w : Word) : (s.accept w).block = s.block := rfl
@[simp] theorem State.accept_tag (s : State) (w : Word) : (s.accept w).tag = s.tag := rfl
@[simp] theorem State.accept_rk (s : State) (w : Word) : (s.accept w).rk = s.rk := rfl
@[simp] theorem State.accept_mem (s : State) (w : Word) : (s.accept w).mem = s.mem := rfl
@[simp] theorem State.accept_latch (s : State) (w : Word) : (s.accept w).latch = some { word := w, traceEn := s.ctrl.traceEn } := rfl
@[simp] theorem State.accept_trace (s : State) (w : Word) : (s.accept w).trace = s.trace := rfl
@[simp] theorem State.accept_hostQueue (s : State) (w : Word) : (s.accept w).hostQueue = s.hostQueue := rfl
@[simp] theorem State.accept_hostLog (s : State) (w : Word) : (s.accept w).hostLog = s.hostLog := rfl
@[simp] theorem State.accept_draws (s : State) (w : Word) : (s.accept w).draws = s.draws := rfl

/-! ### expand -/

@[simp] theorem State.expand_config (s : State) : s.expand.config = s.config := rfl
@[simp] theorem State.expand_ctrl (s : State) : s.expand.ctrl = s.ctrl := rfl
@[simp] theorem State.expand_lastCmd (s : State) : s.expand.lastCmd = s.lastCmd := rfl
@[simp] theorem State.expand_status (s : State) : s.expand.status = s.status.expanded (BitVec.ofNat 4 (roundsOf (s.keyBytes.length / 4))) := rfl
@[simp] theorem State.expand_keyLen (s : State) : s.expand.keyLen = s.keyLen := rfl
@[simp] theorem State.expand_ivLen (s : State) : s.expand.ivLen = s.ivLen := rfl
@[simp] theorem State.expand_nonceLen (s : State) : s.expand.nonceLen = s.nonceLen := rfl
@[simp] theorem State.expand_tweakLen (s : State) : s.expand.tweakLen = s.tweakLen := rfl
@[simp] theorem State.expand_msgLen (s : State) : s.expand.msgLen = s.msgLen := rfl
@[simp] theorem State.expand_auxLen (s : State) : s.expand.auxLen = s.auxLen := rfl
@[simp] theorem State.expand_outLen (s : State) : s.expand.outLen = s.outLen := rfl
@[simp] theorem State.expand_iter (s : State) : s.expand.iter = s.iter := rfl
@[simp] theorem State.expand_dkLen (s : State) : s.expand.dkLen = s.dkLen := rfl
@[simp] theorem State.expand_gfA (s : State) : s.expand.gfA = s.gfA := rfl
@[simp] theorem State.expand_gfB (s : State) : s.expand.gfB = s.gfB := rfl
@[simp] theorem State.expand_gfR (s : State) : s.expand.gfR = s.gfR := rfl
@[simp] theorem State.expand_key (s : State) : s.expand.key = s.key := rfl
@[simp] theorem State.expand_iv (s : State) : s.expand.iv = s.iv := rfl
@[simp] theorem State.expand_nonce (s : State) : s.expand.nonce = s.nonce := rfl
@[simp] theorem State.expand_tweak (s : State) : s.expand.tweak = s.tweak := rfl
@[simp] theorem State.expand_block (s : State) : s.expand.block = s.block := rfl
@[simp] theorem State.expand_tag (s : State) : s.expand.tag = s.tag := rfl
@[simp] theorem State.expand_rk (s : State) : s.expand.rk = ofBytes 240 (expandKey s.keyBytes) := rfl
@[simp] theorem State.expand_mem (s : State) : s.expand.mem = s.mem := rfl
@[simp] theorem State.expand_latch (s : State) : s.expand.latch = s.latch := rfl
@[simp] theorem State.expand_trace (s : State) : s.expand.trace = s.trace := rfl
@[simp] theorem State.expand_hostQueue (s : State) : s.expand.hostQueue = s.hostQueue := rfl
@[simp] theorem State.expand_hostLog (s : State) : s.expand.hostLog = s.hostLog := rfl
@[simp] theorem State.expand_draws (s : State) : s.expand.draws = s.draws := rfl

/-! ### emit -/

@[simp] theorem State.emit_config (s : State) (rs : List TraceRecord) : (s.emit rs).config = s.config := rfl
@[simp] theorem State.emit_ctrl (s : State) (rs : List TraceRecord) : (s.emit rs).ctrl = s.ctrl := rfl
@[simp] theorem State.emit_lastCmd (s : State) (rs : List TraceRecord) : (s.emit rs).lastCmd = s.lastCmd := rfl
@[simp] theorem State.emit_status (s : State) (rs : List TraceRecord) : (s.emit rs).status = s.status := rfl
@[simp] theorem State.emit_keyLen (s : State) (rs : List TraceRecord) : (s.emit rs).keyLen = s.keyLen := rfl
@[simp] theorem State.emit_ivLen (s : State) (rs : List TraceRecord) : (s.emit rs).ivLen = s.ivLen := rfl
@[simp] theorem State.emit_nonceLen (s : State) (rs : List TraceRecord) : (s.emit rs).nonceLen = s.nonceLen := rfl
@[simp] theorem State.emit_tweakLen (s : State) (rs : List TraceRecord) : (s.emit rs).tweakLen = s.tweakLen := rfl
@[simp] theorem State.emit_msgLen (s : State) (rs : List TraceRecord) : (s.emit rs).msgLen = s.msgLen := rfl
@[simp] theorem State.emit_auxLen (s : State) (rs : List TraceRecord) : (s.emit rs).auxLen = s.auxLen := rfl
@[simp] theorem State.emit_outLen (s : State) (rs : List TraceRecord) : (s.emit rs).outLen = s.outLen := rfl
@[simp] theorem State.emit_iter (s : State) (rs : List TraceRecord) : (s.emit rs).iter = s.iter := rfl
@[simp] theorem State.emit_dkLen (s : State) (rs : List TraceRecord) : (s.emit rs).dkLen = s.dkLen := rfl
@[simp] theorem State.emit_gfA (s : State) (rs : List TraceRecord) : (s.emit rs).gfA = s.gfA := rfl
@[simp] theorem State.emit_gfB (s : State) (rs : List TraceRecord) : (s.emit rs).gfB = s.gfB := rfl
@[simp] theorem State.emit_gfR (s : State) (rs : List TraceRecord) : (s.emit rs).gfR = s.gfR := rfl
@[simp] theorem State.emit_key (s : State) (rs : List TraceRecord) : (s.emit rs).key = s.key := rfl
@[simp] theorem State.emit_iv (s : State) (rs : List TraceRecord) : (s.emit rs).iv = s.iv := rfl
@[simp] theorem State.emit_nonce (s : State) (rs : List TraceRecord) : (s.emit rs).nonce = s.nonce := rfl
@[simp] theorem State.emit_tweak (s : State) (rs : List TraceRecord) : (s.emit rs).tweak = s.tweak := rfl
@[simp] theorem State.emit_block (s : State) (rs : List TraceRecord) : (s.emit rs).block = s.block := rfl
@[simp] theorem State.emit_tag (s : State) (rs : List TraceRecord) : (s.emit rs).tag = s.tag := rfl
@[simp] theorem State.emit_rk (s : State) (rs : List TraceRecord) : (s.emit rs).rk = s.rk := rfl
@[simp] theorem State.emit_mem (s : State) (rs : List TraceRecord) : (s.emit rs).mem = s.mem := rfl
@[simp] theorem State.emit_latch (s : State) (rs : List TraceRecord) : (s.emit rs).latch = s.latch := rfl
@[simp] theorem State.emit_trace (s : State) (rs : List TraceRecord) : (s.emit rs).trace = s.trace ++ s.traced rs := rfl
@[simp] theorem State.emit_hostQueue (s : State) (rs : List TraceRecord) : (s.emit rs).hostQueue = s.hostQueue := rfl
@[simp] theorem State.emit_hostLog (s : State) (rs : List TraceRecord) : (s.emit rs).hostLog = s.hostLog := rfl
@[simp] theorem State.emit_draws (s : State) (rs : List TraceRecord) : (s.emit rs).draws = s.draws := rfl

/-! ### salted -/

@[simp] theorem State.salted_config (s : State) (salt : Bytes) : (s.salted salt).config = s.config := rfl
@[simp] theorem State.salted_ctrl (s : State) (salt : Bytes) : (s.salted salt).ctrl = s.ctrl := rfl
@[simp] theorem State.salted_lastCmd (s : State) (salt : Bytes) : (s.salted salt).lastCmd = s.lastCmd := rfl
@[simp] theorem State.salted_status (s : State) (salt : Bytes) : (s.salted salt).status = { s.status with saltGen := true } := rfl
@[simp] theorem State.salted_keyLen (s : State) (salt : Bytes) : (s.salted salt).keyLen = s.keyLen := rfl
@[simp] theorem State.salted_ivLen (s : State) (salt : Bytes) : (s.salted salt).ivLen = s.ivLen := rfl
@[simp] theorem State.salted_nonceLen (s : State) (salt : Bytes) : (s.salted salt).nonceLen = s.nonceLen := rfl
@[simp] theorem State.salted_tweakLen (s : State) (salt : Bytes) : (s.salted salt).tweakLen = s.tweakLen := rfl
@[simp] theorem State.salted_msgLen (s : State) (salt : Bytes) : (s.salted salt).msgLen = 16 := rfl
@[simp] theorem State.salted_auxLen (s : State) (salt : Bytes) : (s.salted salt).auxLen = s.auxLen := rfl
@[simp] theorem State.salted_outLen (s : State) (salt : Bytes) : (s.salted salt).outLen = s.outLen := rfl
@[simp] theorem State.salted_iter (s : State) (salt : Bytes) : (s.salted salt).iter = s.iter := rfl
@[simp] theorem State.salted_dkLen (s : State) (salt : Bytes) : (s.salted salt).dkLen = s.dkLen := rfl
@[simp] theorem State.salted_gfA (s : State) (salt : Bytes) : (s.salted salt).gfA = s.gfA := rfl
@[simp] theorem State.salted_gfB (s : State) (salt : Bytes) : (s.salted salt).gfB = s.gfB := rfl
@[simp] theorem State.salted_gfR (s : State) (salt : Bytes) : (s.salted salt).gfR = s.gfR := rfl
@[simp] theorem State.salted_key (s : State) (salt : Bytes) : (s.salted salt).key = s.key := rfl
@[simp] theorem State.salted_iv (s : State) (salt : Bytes) : (s.salted salt).iv = s.iv := rfl
@[simp] theorem State.salted_nonce (s : State) (salt : Bytes) : (s.salted salt).nonce = s.nonce := rfl
@[simp] theorem State.salted_tweak (s : State) (salt : Bytes) : (s.salted salt).tweak = s.tweak := rfl
@[simp] theorem State.salted_block (s : State) (salt : Bytes) : (s.salted salt).block = s.block := rfl
@[simp] theorem State.salted_tag (s : State) (salt : Bytes) : (s.salted salt).tag = s.tag := rfl
@[simp] theorem State.salted_rk (s : State) (salt : Bytes) : (s.salted salt).rk = s.rk := rfl
@[simp] theorem State.salted_mem (s : State) (salt : Bytes) : (s.salted salt).mem = s.mem.writeFrom Buffer.input.base salt := rfl
@[simp] theorem State.salted_latch (s : State) (salt : Bytes) : (s.salted salt).latch = s.latch := rfl
@[simp] theorem State.salted_trace (s : State) (salt : Bytes) : (s.salted salt).trace = s.trace := rfl
@[simp] theorem State.salted_hostQueue (s : State) (salt : Bytes) : (s.salted salt).hostQueue = s.hostQueue := rfl
@[simp] theorem State.salted_hostLog (s : State) (salt : Bytes) : (s.salted salt).hostLog = s.hostLog := rfl
@[simp] theorem State.salted_draws (s : State) (salt : Bytes) : (s.salted salt).draws = s.draws + 16 := rfl

/-! ### The composed completions -/

@[simp] theorem State.raiseOut_eq (s : State) (e : ErrCode) : s.raiseOut e = (s.setOutLen 0).raise e := rfl

@[simp] theorem State.completeOut_eq (s : State) (out : Bytes) :
    s.completeOut out = ((s.bufWrite .output out).setOutLen out.length).complete := rfl

/-! ### generateSalt -/

@[simp] theorem State.generateSalt_config (s : State) : s.generateSalt.config = s.config := by
  unfold State.generateSalt; split <;> simp
@[simp] theorem State.generateSalt_ctrl (s : State) : s.generateSalt.ctrl = s.ctrl := by
  unfold State.generateSalt; split <;> simp
@[simp] theorem State.generateSalt_lastCmd (s : State) : s.generateSalt.lastCmd = s.lastCmd := by
  unfold State.generateSalt; split <;> simp
@[simp] theorem State.generateSalt_keyLen (s : State) : s.generateSalt.keyLen = s.keyLen := by
  unfold State.generateSalt; split <;> simp
@[simp] theorem State.generateSalt_ivLen (s : State) : s.generateSalt.ivLen = s.ivLen := by
  unfold State.generateSalt; split <;> simp
@[simp] theorem State.generateSalt_nonceLen (s : State) : s.generateSalt.nonceLen = s.nonceLen := by
  unfold State.generateSalt; split <;> simp
@[simp] theorem State.generateSalt_tweakLen (s : State) : s.generateSalt.tweakLen = s.tweakLen := by
  unfold State.generateSalt; split <;> simp
@[simp] theorem State.generateSalt_auxLen (s : State) : s.generateSalt.auxLen = s.auxLen := by
  unfold State.generateSalt; split <;> simp
@[simp] theorem State.generateSalt_outLen (s : State) : s.generateSalt.outLen = s.outLen := by
  unfold State.generateSalt; split <;> simp
@[simp] theorem State.generateSalt_iter (s : State) : s.generateSalt.iter = s.iter := by
  unfold State.generateSalt; split <;> simp
@[simp] theorem State.generateSalt_dkLen (s : State) : s.generateSalt.dkLen = s.dkLen := by
  unfold State.generateSalt; split <;> simp
@[simp] theorem State.generateSalt_gfA (s : State) : s.generateSalt.gfA = s.gfA := by
  unfold State.generateSalt; split <;> simp
@[simp] theorem State.generateSalt_gfB (s : State) : s.generateSalt.gfB = s.gfB := by
  unfold State.generateSalt; split <;> simp
@[simp] theorem State.generateSalt_gfR (s : State) : s.generateSalt.gfR = s.gfR := by
  unfold State.generateSalt; split <;> simp
@[simp] theorem State.generateSalt_key (s : State) : s.generateSalt.key = s.key := by
  unfold State.generateSalt; split <;> simp
@[simp] theorem State.generateSalt_iv (s : State) : s.generateSalt.iv = s.iv := by
  unfold State.generateSalt; split <;> simp
@[simp] theorem State.generateSalt_nonce (s : State) : s.generateSalt.nonce = s.nonce := by
  unfold State.generateSalt; split <;> simp
@[simp] theorem State.generateSalt_tweak (s : State) : s.generateSalt.tweak = s.tweak := by
  unfold State.generateSalt; split <;> simp
@[simp] theorem State.generateSalt_block (s : State) : s.generateSalt.block = s.block := by
  unfold State.generateSalt; split <;> simp
@[simp] theorem State.generateSalt_tag (s : State) : s.generateSalt.tag = s.tag := by
  unfold State.generateSalt; split <;> simp
@[simp] theorem State.generateSalt_rk (s : State) : s.generateSalt.rk = s.rk := by
  unfold State.generateSalt; split <;> simp
@[simp] theorem State.generateSalt_latch (s : State) : s.generateSalt.latch = s.latch := by
  unfold State.generateSalt; split <;> simp
@[simp] theorem State.generateSalt_trace (s : State) : s.generateSalt.trace = s.trace := by
  unfold State.generateSalt; split <;> simp
@[simp] theorem State.generateSalt_hostQueue (s : State) : s.generateSalt.hostQueue = s.hostQueue := by
  unfold State.generateSalt; split <;> simp
@[simp] theorem State.generateSalt_hostLog (s : State) : s.generateSalt.hostLog = s.hostLog := by
  unfold State.generateSalt; split <;> simp

/-! ### STATUS -/

@[simp] theorem Status.complete_done (st : Status) : st.complete.done = true := rfl
@[simp] theorem Status.complete_err (st : Status) : st.complete.err = st.err := rfl
@[simp] theorem Status.complete_ovr (st : Status) : st.complete.ovr = st.ovr := rfl
@[simp] theorem Status.complete_keyValid (st : Status) : st.complete.keyValid = st.keyValid := rfl
@[simp] theorem Status.complete_tagOk (st : Status) : st.complete.tagOk = st.tagOk := rfl
@[simp] theorem Status.complete_saltGen (st : Status) : st.complete.saltGen = st.saltGen := rfl
@[simp] theorem Status.complete_errCode (st : Status) : st.complete.errCode = st.errCode := rfl
@[simp] theorem Status.complete_nr (st : Status) : st.complete.nr = st.nr := rfl

@[simp] theorem Status.completeError_done (st : Status) (e : ErrCode) : (st.completeError e).done = true := rfl
@[simp] theorem Status.completeError_err (st : Status) (e : ErrCode) : (st.completeError e).err = true := rfl
@[simp] theorem Status.completeError_ovr (st : Status) (e : ErrCode) : (st.completeError e).ovr = st.ovr := rfl
@[simp] theorem Status.completeError_keyValid (st : Status) (e : ErrCode) : (st.completeError e).keyValid = st.keyValid := rfl
@[simp] theorem Status.completeError_tagOk (st : Status) (e : ErrCode) : (st.completeError e).tagOk = st.tagOk := rfl
@[simp] theorem Status.completeError_saltGen (st : Status) (e : ErrCode) : (st.completeError e).saltGen = st.saltGen := rfl
@[simp] theorem Status.completeError_errCode (st : Status) (e : ErrCode) : (st.completeError e).errCode = e := rfl
@[simp] theorem Status.completeError_nr (st : Status) (e : ErrCode) : (st.completeError e).nr = st.nr := rfl

@[simp] theorem Status.accept_done (st : Status) : st.accept.done = false := rfl
@[simp] theorem Status.accept_err (st : Status) : st.accept.err = false := rfl
@[simp] theorem Status.accept_ovr (st : Status) : st.accept.ovr = st.ovr := rfl
@[simp] theorem Status.accept_keyValid (st : Status) : st.accept.keyValid = st.keyValid := rfl
@[simp] theorem Status.accept_tagOk (st : Status) : st.accept.tagOk = false := rfl
@[simp] theorem Status.accept_saltGen (st : Status) : st.accept.saltGen = false := rfl
@[simp] theorem Status.accept_errCode (st : Status) : st.accept.errCode = .none := rfl
@[simp] theorem Status.accept_nr (st : Status) : st.accept.nr = st.nr := rfl

@[simp] theorem Status.refuse_done (st : Status) : st.refuse.done = st.done := rfl
@[simp] theorem Status.refuse_err (st : Status) : st.refuse.err = st.err := rfl
@[simp] theorem Status.refuse_ovr (st : Status) : st.refuse.ovr = true := rfl
@[simp] theorem Status.refuse_keyValid (st : Status) : st.refuse.keyValid = st.keyValid := rfl
@[simp] theorem Status.refuse_tagOk (st : Status) : st.refuse.tagOk = st.tagOk := rfl
@[simp] theorem Status.refuse_saltGen (st : Status) : st.refuse.saltGen = st.saltGen := rfl
@[simp] theorem Status.refuse_errCode (st : Status) : st.refuse.errCode = st.errCode := rfl
@[simp] theorem Status.refuse_nr (st : Status) : st.refuse.nr = st.nr := rfl

@[simp] theorem Status.expanded_done (st : Status) (n : BitVec 4) : (st.expanded n).done = st.done := rfl
@[simp] theorem Status.expanded_err (st : Status) (n : BitVec 4) : (st.expanded n).err = st.err := rfl
@[simp] theorem Status.expanded_ovr (st : Status) (n : BitVec 4) : (st.expanded n).ovr = st.ovr := rfl
@[simp] theorem Status.expanded_keyValid (st : Status) (n : BitVec 4) : (st.expanded n).keyValid = true := rfl
@[simp] theorem Status.expanded_tagOk (st : Status) (n : BitVec 4) : (st.expanded n).tagOk = st.tagOk := rfl
@[simp] theorem Status.expanded_saltGen (st : Status) (n : BitVec 4) : (st.expanded n).saltGen = st.saltGen := rfl
@[simp] theorem Status.expanded_errCode (st : Status) (n : BitVec 4) : (st.expanded n).errCode = st.errCode := rfl
@[simp] theorem Status.expanded_nr (st : Status) (n : BitVec 4) : (st.expanded n).nr = n := rfl

@[simp] theorem Status.writeOneToClear_done (st : Status) (v : Word) : (st.writeOneToClear v).done = (st.done && !v.getLsbD 1) := rfl
@[simp] theorem Status.writeOneToClear_err (st : Status) (v : Word) : (st.writeOneToClear v).err = (st.err && !v.getLsbD 2) := rfl
@[simp] theorem Status.writeOneToClear_ovr (st : Status) (v : Word) : (st.writeOneToClear v).ovr = (st.ovr && !v.getLsbD 3) := rfl
@[simp] theorem Status.writeOneToClear_keyValid (st : Status) (v : Word) : (st.writeOneToClear v).keyValid = st.keyValid := rfl
@[simp] theorem Status.writeOneToClear_tagOk (st : Status) (v : Word) : (st.writeOneToClear v).tagOk = st.tagOk := rfl
@[simp] theorem Status.writeOneToClear_saltGen (st : Status) (v : Word) : (st.writeOneToClear v).saltGen = st.saltGen := rfl
@[simp] theorem Status.writeOneToClear_errCode (st : Status) (v : Word) : (st.writeOneToClear v).errCode = st.errCode := rfl
@[simp] theorem Status.writeOneToClear_nr (st : Status) (v : Word) : (st.writeOneToClear v).nr = st.nr := rfl

@[simp] theorem State.busy_of_none (s : State) (h : s.latch = none) : s.busy = false := by
  simp [State.busy, h]

@[simp] theorem State.busy_of_some (s : State) (l : Latch) (h : s.latch = some l) : s.busy = true := by
  simp [State.busy, h]

end Sys2Proof.Machine
end

