-- ==== Sys2Proof/Laws/Bus.lean ====
section
/-! SUPPORT. The host bus: the address map as a bijection between offsets and bytes, where an access goes, and what
reads and writes can do, once for each. -/

namespace Sys2Proof.Machine

/-! ### The address map -/

/-- The core offset of a byte (R81). -/
def ByteLoc.offset : ByteLoc → Nat
  | .key i => 0x40 + i
  | .iv i => 0x60 + i
  | .nonce i => 0x70 + i
  | .tweak i => 0x80 + i
  | .block i => 0x90 + i
  | .tag i => 0xA0 + i
  | .rk i => 0x100 + i
  | .buf b i => b.base + i

/-- The byte exists under a configuration. -/
def ByteLoc.Valid (c : Config) : ByteLoc → Prop
  | .buf b i => i < b.size c
  | _ => True

theorem inRegion_eq_some {a lo n : Nat} {f : Fin n → ByteLoc} {l : ByteLoc} :
    inRegion a lo n f = some l ↔ ∃ i : Fin n, lo + i.val = a ∧ f i = l := by
  unfold inRegion
  split
  · next h =>
    constructor
    · intro hl
      exact ⟨⟨a - lo, h.2⟩, by show lo + (a - lo) = a; omega, by simpa using hl⟩
    · rintro ⟨i, rfl, rfl⟩
      simp
  · next h =>
    constructor
    · intro hl; simp at hl
    · rintro ⟨i, rfl, -⟩
      exact absurd ⟨by omega, by have := i.isLt; omega⟩ h

theorem inBuffer_eq_some {c : Config} {a : Nat} {b : Buffer} {l : ByteLoc} :
    inBuffer c a b = some l ↔ ∃ i, i < b.size c ∧ b.base + i = a ∧ ByteLoc.buf b i = l := by
  unfold inBuffer
  split
  · next h =>
    constructor
    · intro hl
      exact ⟨a - b.base, h.2, by omega, by simpa using hl⟩
    · rintro ⟨i, -, rfl, rfl⟩
      simp
  · next h =>
    constructor
    · intro hl; simp at hl
    · rintro ⟨i, hi, rfl, -⟩
      exact absurd ⟨by omega, by omega⟩ h

theorem orElse_eq_some {x y : Option ByteLoc} {l : ByteLoc} :
    (x <|> y) = some l ↔ x = some l ∨ (x = none ∧ y = some l) := by
  cases x <;> simp

theorem inRegion_below {a lo n : Nat} (f : Fin n → ByteLoc) (h : a < lo) : inRegion a lo n f = none :=
  dif_neg (by omega)

theorem inRegion_above {a lo n : Nat} (f : Fin n → ByteLoc) (h : lo + n ≤ a) : inRegion a lo n f = none :=
  dif_neg (by omega)

theorem inRegion_self {lo n : Nat} (f : Fin n → ByteLoc) (i : Fin n) : inRegion (lo + i) lo n f = some (f i) :=
  inRegion_eq_some.2 ⟨i, rfl, rfl⟩

theorem inBuffer_below {c : Config} {a : Nat} {b : Buffer} (h : a < b.base) : inBuffer c a b = none :=
  if_neg (by omega)

theorem inBuffer_above {c : Config} {a : Nat} {b : Buffer} (h : b.base + b.size c ≤ a) : inBuffer c a b = none :=
  if_neg (by omega)

theorem inBuffer_self {c : Config} {b : Buffer} {i : Nat} (h : i < b.size c) :
    inBuffer c (b.base + i) b = some (.buf b i) :=
  inBuffer_eq_some.2 ⟨i, h, rfl, rfl⟩

/-- A byte found at an offset stands there. -/
theorem byteLocAt_some {c : Config} {a : Nat} {l : ByteLoc} (h : byteLocAt c a = some l) :
    l.offset = a ∧ l.Valid c := by
  simp only [byteLocAt, orElse_eq_some, inRegion_eq_some, inBuffer_eq_some] at h
  rcases h with h | ⟨-, h | ⟨-, h | ⟨-, h | ⟨-, h | ⟨-, h | ⟨-, h | ⟨-, h | ⟨-, h | ⟨-, h⟩⟩⟩⟩⟩⟩⟩⟩⟩
  · obtain ⟨i, rfl, rfl⟩ := h; exact ⟨rfl, trivial⟩
  · obtain ⟨i, rfl, rfl⟩ := h; exact ⟨rfl, trivial⟩
  · obtain ⟨i, rfl, rfl⟩ := h; exact ⟨rfl, trivial⟩
  · obtain ⟨i, rfl, rfl⟩ := h; exact ⟨rfl, trivial⟩
  · obtain ⟨i, rfl, rfl⟩ := h; exact ⟨rfl, trivial⟩
  · obtain ⟨i, rfl, rfl⟩ := h; exact ⟨rfl, trivial⟩
  · obtain ⟨i, rfl, rfl⟩ := h; exact ⟨rfl, trivial⟩
  · obtain ⟨i, hi, rfl, rfl⟩ := h; exact ⟨rfl, hi⟩
  · obtain ⟨i, hi, rfl, rfl⟩ := h; exact ⟨rfl, hi⟩
  · obtain ⟨i, hi, rfl, rfl⟩ := h; exact ⟨rfl, hi⟩

/-- Every byte that exists is found at its offset. -/
theorem byteLocAt_offset {c : Config} (hc : c.Legal) {l : ByteLoc} (hl : l.Valid c) :
    byteLocAt c l.offset = some l := by
  obtain ⟨⟨-, h1, -⟩, ⟨-, h2, -⟩, -, h3, -⟩ := hc
  cases l with
  | key i => rw [byteLocAt, ByteLoc.offset, inRegion_self]; rfl
  | iv i =>
    rw [byteLocAt, ByteLoc.offset, inRegion_above _ (by omega), inRegion_self]; rfl
  | nonce i =>
    rw [byteLocAt, ByteLoc.offset, inRegion_above (lo := 0x40) _ (by omega), inRegion_above (lo := 0x60) _ (by omega),
      inRegion_self]; rfl
  | tweak i =>
    rw [byteLocAt, ByteLoc.offset, inRegion_above (lo := 0x40) _ (by omega), inRegion_above (lo := 0x60) _ (by omega),
      inRegion_above (lo := 0x70) _ (by omega), inRegion_self]; rfl
  | block i =>
    rw [byteLocAt, ByteLoc.offset, inRegion_above (lo := 0x40) _ (by omega), inRegion_above (lo := 0x60) _ (by omega),
      inRegion_above (lo := 0x70) _ (by omega), inRegion_above (lo := 0x80) _ (by omega), inRegion_self]; rfl
  | tag i =>
    rw [byteLocAt, ByteLoc.offset, inRegion_above (lo := 0x40) _ (by omega), inRegion_above (lo := 0x60) _ (by omega),
      inRegion_above (lo := 0x70) _ (by omega), inRegion_above (lo := 0x80) _ (by omega),
      inRegion_above (lo := 0x90) _ (by omega), inRegion_self]; rfl
  | rk i =>
    rw [byteLocAt, ByteLoc.offset, inRegion_above (lo := 0x40) _ (by omega), inRegion_above (lo := 0x60) _ (by omega),
      inRegion_above (lo := 0x70) _ (by omega), inRegion_above (lo := 0x80) _ (by omega),
      inRegion_above (lo := 0x90) _ (by omega), inRegion_above (lo := 0xA0) _ (by omega), inRegion_self]; rfl
  | buf b i =>
    have hb : 0x2000 ≤ b.base + i := by cases b <;> simp [Buffer.base] <;> omega
    have hi : i < b.size c := hl
    rw [byteLocAt, ByteLoc.offset, inRegion_above (lo := 0x40) _ (by omega), inRegion_above (lo := 0x60) _ (by omega),
      inRegion_above (lo := 0x70) _ (by omega), inRegion_above (lo := 0x80) _ (by omega),
      inRegion_above (lo := 0x90) _ (by omega), inRegion_above (lo := 0xA0) _ (by omega),
      inRegion_above (lo := 0x100) _ (by omega)]
    cases b with
    | input => rw [inBuffer_self hi]; rfl
    | aux =>
      have h : inBuffer c (Buffer.aux.base + i) .input = none := inBuffer_above (by simp [Buffer.base, Buffer.size]; omega)
      rw [h, inBuffer_self hi]; rfl
    | output =>
      have h : inBuffer c (Buffer.output.base + i) .input = none :=
        inBuffer_above (by simp [Buffer.base, Buffer.size]; omega)
      have h' : inBuffer c (Buffer.output.base + i) .aux = none :=
        inBuffer_above (by simp [Buffer.base, Buffer.size]; omega)
      rw [h, h', inBuffer_self hi]; rfl

/-- A byte stands at an offset exactly when the offset is the byte's. -/
theorem byteLocAt_eq_some_iff {c : Config} (hc : c.Legal) {a : Nat} {l : ByteLoc} :
    byteLocAt c a = some l ↔ l.offset = a ∧ l.Valid c :=
  ⟨byteLocAt_some, fun ⟨h, hl⟩ => h ▸ byteLocAt_offset hc hl⟩

/-- No byte stands at a reserved offset. -/
theorem byteLocAt_of_reserved {c : Config} (hc : c.Legal) {a : Nat} (h : Reserved c a) : byteLocAt c a = none := by
  obtain ⟨⟨-, h1, -⟩, ⟨-, h2, -⟩, -, h3, -⟩ := hc
  cases hl : byteLocAt c a with
  | none => rfl
  | some l =>
    obtain ⟨ho, hv⟩ := byteLocAt_some hl
    unfold Reserved at h
    cases l with
    | buf b i =>
      cases b <;> simp only [ByteLoc.offset, ByteLoc.Valid, Buffer.base, Buffer.size] at ho hv <;> omega
    | key i | iv i | nonce i | tweak i | block i | tag i | rk i =>
      simp only [ByteLoc.offset] at ho; have := i.isLt; omega

/-- Every offset from 0x40 on that is not reserved has a byte. -/
theorem byteLocAt_of_not_reserved {c : Config} {a : Nat} (h1 : 0x40 ≤ a) (h2 : a < 0x8000)
    (h : ¬ Reserved c a) : ∃ l, byteLocAt c a = some l := by
  cases hl : byteLocAt c a with
  | some l => exact ⟨l, rfl⟩
  | none =>
    exfalso
    apply h
    have key : ∀ {x y : Option ByteLoc}, (x <|> y) = none → x = none ∧ y = none := by
      intro x y; cases x <;> simp
    have hr : ∀ {lo n : Nat} {f : Fin n → ByteLoc}, inRegion a lo n f = none → a < lo ∨ lo + n ≤ a := by
      intro lo n f hn; unfold inRegion at hn; split at hn
      · cases hn
      · omega
    have hbf : ∀ {b : Buffer}, inBuffer c a b = none → a < b.base ∨ b.base + b.size c ≤ a := by
      intro b hn; unfold inBuffer at hn; split at hn
      · cases hn
      · omega
    obtain ⟨k1, hl⟩ := key hl
    obtain ⟨k2, hl⟩ := key hl
    obtain ⟨k3, hl⟩ := key hl
    obtain ⟨k4, hl⟩ := key hl
    obtain ⟨k5, hl⟩ := key hl
    obtain ⟨k6, hl⟩ := key hl
    obtain ⟨k7, hl⟩ := key hl
    obtain ⟨k8, hl⟩ := key hl
    obtain ⟨k9, k10⟩ := key hl
    have := hr k1; have := hr k2; have := hr k3; have := hr k4; have := hr k5; have := hr k6; have := hr k7
    have := hbf k8; have := hbf k9; have := hbf k10
    simp only [Buffer.base, Buffer.size] at *
    unfold Reserved
    omega

/-! ### Runs of bytes -/

/-- A run of offsets that has its bytes. -/
theorem byteLocsFrom_eq_some {c : Config} {a n : Nat} {ls : List ByteLoc} :
    byteLocsFrom c a n = some ls ↔
      ls.length = n ∧ ∀ k, (h : k < ls.length) → byteLocAt c (a + k) = some ls[k] := by
  induction n generalizing a ls with
  | zero =>
    simp only [byteLocsFrom, Option.some.injEq]
    constructor
    · rintro rfl; exact ⟨rfl, fun k h => by simp at h⟩
    · rintro ⟨h, -⟩; exact (List.length_eq_zero_iff.1 h).symm
  | succ n ih =>
    cases hl : byteLocAt c a with
    | none =>
      simp only [byteLocsFrom, hl]
      constructor
      · intro h; cases h
      · rintro ⟨h1, h2⟩
        have := h2 0 (by omega)
        rw [Nat.add_zero, hl] at this
        cases this
    | some l =>
      cases hr : byteLocsFrom c (a + 1) n with
      | none =>
        simp only [byteLocsFrom, hl, hr]
        constructor
        · intro h; cases h
        · rintro ⟨h1, h2⟩
          cases ls with
          | nil => simp at h1
          | cons x xs =>
            have : byteLocsFrom c (a + 1) n = some xs := ih.2 ⟨by simpa using h1, fun k h => by
              have := h2 (k + 1) (by simpa using h)
              rw [show a + 1 + k = a + (k + 1) by omega]
              simpa using this⟩
            rw [hr] at this
            cases this
      | some rest =>
        simp only [byteLocsFrom, hl, hr, Option.some.injEq]
        obtain ⟨hn, hk⟩ := ih.1 hr
        constructor
        · rintro rfl
          refine ⟨by simp [hn], fun k h => ?_⟩
          cases k with
          | zero => simpa using hl
          | succ k =>
            rw [show a + (k + 1) = a + 1 + k by omega]
            simpa using hk k (by simpa using h)
        · rintro ⟨h1, h2⟩
          cases ls with
          | nil => simp at h1
          | cons x xs =>
            have h0 := h2 0 (by simp)
            rw [Nat.add_zero, hl] at h0
            have : byteLocsFrom c (a + 1) n = some xs := ih.2 ⟨by simpa using h1, fun k h => by
              have := h2 (k + 1) (by simpa using h)
              rw [show a + 1 + k = a + (k + 1) by omega]
              simpa using this⟩
            rw [hr] at this
            simp_all

theorem byteLocsFrom_one (c : Config) (a : Nat) : byteLocsFrom c a 1 = (byteLocAt c a).map fun l => [l] := by
  cases h : byteLocAt c a <;> simp [byteLocsFrom, h]

/-- An aligned run that starts in a region stays in it: every region is a whole number of 16-byte rows. -/
theorem byteLocsFrom_aligned {c : Config} (hc : c.Legal) {a n : Nat} (hn : n = 1 ∨ n = 2 ∨ n = 4) (ha : a % n = 0)
    {l : ByteLoc} (hl : byteLocAt c a = some l) :
    ∃ ls, byteLocsFrom c a n = some ls := by
  have hv : ∀ k < n, ∃ l, byteLocAt c (a + k) = some l := by
    obtain ⟨ho, hv⟩ := byteLocAt_some hl
    intro k hk
    have hc' := hc
    obtain ⟨⟨-, h1, h1'⟩, ⟨-, h2, h2'⟩, -, h3, h3'⟩ := hc
    refine byteLocAt_of_not_reserved ?_ ?_ ?_ <;> try unfold Reserved
    all_goals
      cases l with
      | buf b i =>
        cases b <;> simp only [ByteLoc.offset, ByteLoc.Valid, Buffer.base, Buffer.size] at ho hv <;>
          rcases hn with rfl | rfl | rfl <;> omega
      | key i | iv i | nonce i | tweak i | block i | tag i | rk i =>
        simp only [ByteLoc.offset] at ho; have := i.isLt; rcases hn with rfl | rfl | rfl <;> omega
  clear hn ha hl
  induction n generalizing a with
  | zero => exact ⟨[], rfl⟩
  | succ n ih =>
    obtain ⟨l0, h0⟩ := hv 0 (by omega)
    obtain ⟨ls, hls⟩ := ih (a := a + 1) fun k hk => by
      rw [show a + 1 + k = a + (k + 1) by omega]; exact hv (k + 1) (by omega)
    exact ⟨l0 :: ls, by rw [byteLocsFrom]; simp only [Nat.add_zero] at h0; rw [h0, hls]⟩

/-! ### Where an access goes -/

theorem legalShape_iff {a n : Nat} : legalShape a n = true ↔ (n = 1 ∨ n = 2 ∨ n = 4) ∧ a % n = 0 := by
  simp [legalShape, or_assoc]

theorem target_of_shape {c : Config} {a n : Nat} (h : ¬ ((n = 1 ∨ n = 2 ∨ n = 4) ∧ a % n = 0)) :
    target c a n = .slverr := by
  rw [target, if_neg (by rwa [legalShape_iff])]

theorem target_of_narrow {c : Config} {a n : Nat} (ha : a < 0x40) (hn : n ≠ 4) : target c a n = .slverr := by
  simp [target, ha, hn]

theorem target_of_hole {c : Config} {a n : Nat} (hn : n ≠ 0) (ha : 0x40 ≤ a) (h : byteLocAt c a = none) :
    target c a n = .slverr := by
  cases n with
  | zero => exact absurd rfl hn
  | succ n =>
    have : byteLocsFrom c a (n + 1) = none := by simp [byteLocsFrom, h]
    unfold target
    split
    · rw [if_neg (by omega), this]
    · rfl

/-- An aligned access of a legal width to a region goes to that region's bytes. -/
theorem target_of_bytes {c : Config} (hc : c.Legal) {a n : Nat} (hn : n = 1 ∨ n = 2 ∨ n = 4) (ha : a % n = 0)
    {l : ByteLoc} (hl : byteLocAt c a = some l) :
    ∃ ls, target c a n = .bytes ls ∧ ls.length = n ∧
      ∀ k, (h : k < ls.length) → ls[k].offset = a + k ∧ ls[k].Valid c := by
  obtain ⟨ls, hls⟩ := byteLocsFrom_aligned hc hn ha hl
  have h40 : ¬ a < 0x40 := by
    obtain ⟨ho, -⟩ := byteLocAt_some hl
    cases l with
    | buf b i => cases b <;> simp only [ByteLoc.offset, Buffer.base] at ho <;> omega
    | key i | iv i | nonce i | tweak i | block i | tag i | rk i => simp only [ByteLoc.offset] at ho; omega
  obtain ⟨h1, h2⟩ := byteLocsFrom_eq_some.1 hls
  refine ⟨ls, ?_, h1, fun k h => byteLocAt_some (h2 k h)⟩
  rw [target, if_pos (legalShape_iff.2 ⟨hn, ha⟩), if_neg h40, hls]

/-- A whole-word access to an aligned offset below 0x40 goes to a control register. -/
theorem target_of_ctrl {c : Config} {a : Nat} (ha : a < 0x40) (h4 : a % 4 = 0) : target c a 4 = .ctrl (ctrlRegAt a) := by
  rw [target, if_pos (legalShape_iff.2 ⟨by omega, h4⟩), if_pos ha, if_pos rfl]

/-! ### Reads -/

/-- A read changes only the count of free values taken, by at most four. -/
theorem busRead_state (s : State) (a n : Nat) : ∃ d ≤ 4, (s.busRead a n).1 = s.drew d := by
  unfold State.busRead
  cases h : target s.config a n with
  | ctrl r =>
    refine ⟨s.unspecifiedCtrl r, ?_, rfl⟩
    cases r <;> simp only [State.unspecifiedCtrl] <;> (try split) <;> omega
  | bytes ls =>
    have hlen : ls.length ≤ 4 := by
      unfold target at h
      split at h
      · next hs =>
        split at h
        · split at h <;> cases h
        · cases hb : byteLocsFrom s.config a n with
          | none => rw [hb] at h; cases h
          | some ls' =>
            rw [hb] at h; cases h
            have := (byteLocsFrom_eq_some.1 hb).1
            rcases (legalShape_iff.1 hs).1 with h | h | h <;> omega
      · cases h
    simp only [State.readBytes]
    split
    · exact ⟨0, by omega, rfl⟩
    · exact ⟨ls.length, hlen, rfl⟩
  | slverr => exact ⟨0, by omega, rfl⟩

theorem State.drew_zero (s : State) : s.drew 0 = s := rfl

theorem lanesValue_one (b : Byte) : lanesValue [b] = b.setWidth 32 := by
  simp [lanesValue, leValue, beValue]

/-- A bus value is the sum of its bytes, byte `k` times `2^(8k)` (R83). -/
theorem lanesValue_eq (bs : Bytes) : lanesValue bs = BitVec.ofNat 32 (leNat bs) := by
  apply BitVec.eq_of_toNat_eq
  rw [lanesValue, leValue, toNat_beValue _ (by norm_num), leNat_eq, BitVec.toNat_ofNat]

theorem leNat_map_range (byte : Nat → Byte) (n : Nat) :
    leNat ((List.range n).map byte) = ((List.range n).map fun k => (byte k).toNat * 2 ^ (8 * k)).sum := by
  induction n generalizing byte with
  | zero => rfl
  | succ n ih =>
    have h := ih fun k => byte (k + 1)
    have hs : ∀ f : Nat → Nat, ((List.range n).map fun k => 256 * f k).sum = 256 * ((List.range n).map f).sum := by
      intro f
      rw [List.sum_map_mul_left]
    have he : ∀ k, (byte (k + 1)).toNat * 2 ^ (8 * (k + 1)) = 256 * ((byte (k + 1)).toNat * 2 ^ (8 * k)) := by
      intro k
      rw [Nat.mul_add, pow_add]
      ring
    rw [List.range_succ_eq_map]
    simp only [List.map_cons, List.map_map, Function.comp_def, List.sum_cons, Nat.succ_eq_add_one, he, hs, ← h]
    simp [leNat]

/-- A read of one byte that is neither unspecified nor without a value. -/
theorem busRead_byte {s : State} (hc : s.config.Legal) {l : ByteLoc} (hl : l.Valid s.config) {b : Byte}
    (hb : s.hostByte l = some b) :
    s.busRead l.offset 1 = (s, { resp := .okay, data := some (b.setWidth 32) }) := by
  obtain ⟨ls, h1, h2, h3⟩ := target_of_bytes hc (n := 1) (.inl rfl) (Nat.mod_one _) (byteLocAt_offset hc hl)
  obtain ⟨l', rfl⟩ := List.length_eq_one_iff.1 h2
  have h4 := h3 0 (by simp)
  have : l' = l := by
    have h5 := byteLocAt_offset hc h4.2
    rw [h4.1, Nat.add_zero] at h5
    have h6 := byteLocAt_offset hc hl
    simp only [List.getElem_cons_zero] at h5
    rw [h5] at h6
    exact Option.some.inj h6
  subst this
  rw [State.busRead, h1]
  simp [State.readBytes, State.readLanes, hb, lanesValue_one]

/-- A read of one byte that is unspecified or without a value takes the next free value. -/
theorem busRead_free {s : State} (hc : s.config.Legal) {l : ByteLoc} (hl : l.Valid s.config)
    (hb : s.hostByte l = none) :
    s.busRead l.offset 1 = (s.drew 1, { resp := .okay, data := some ((s.draw 0).setWidth 32) }) := by
  obtain ⟨ls, h1, h2, h3⟩ := target_of_bytes hc (n := 1) (.inl rfl) (Nat.mod_one _) (byteLocAt_offset hc hl)
  obtain ⟨l', rfl⟩ := List.length_eq_one_iff.1 h2
  have h4 := h3 0 (by simp)
  have : l' = l := by
    have h5 := byteLocAt_offset hc h4.2
    rw [h4.1, Nat.add_zero] at h5
    have h6 := byteLocAt_offset hc hl
    simp only [List.getElem_cons_zero] at h5
    rw [h5] at h6
    exact Option.some.inj h6
  subst this
  rw [State.busRead, h1]
  simp [State.readBytes, State.readLanes, hb, lanesValue_one]

/-! ### Writes -/

/-- The byte is one the host may write (R54). -/
def ByteLoc.writable : ByteLoc → Bool
  | .rk _ | .buf .output _ => false
  | .key _ | .iv _ | .nonce _ | .tweak _ | .block _ | .tag _ | .buf .input _ | .buf .aux _ => true

/-- A write of a byte, read back. -/
theorem State.readByte_writeByte (s : State) (v : Byte) {l : ByteLoc} (h : l.writable = true) :
    (s.writeByte v l).readByte l = some v := by
  cases l with
  | rk i => simp [ByteLoc.writable] at h
  | buf b i =>
    cases b with
    | output => simp [ByteLoc.writable] at h
    | input | aux => simp [State.writeByte, State.readByte]
  | key i | iv i | nonce i | tweak i | block i | tag i => simp [State.writeByte, State.readByte]

/-- A write of a byte leaves every byte of another offset. -/
theorem State.readByte_writeByte_other (s : State) (v : Byte) {l m : ByteLoc} (hm : m.offset ≠ l.offset) :
    (s.writeByte v l).readByte m = s.readByte m := by
  cases l with
  | rk i => rfl
  | buf b i =>
    cases b with
    | output => rfl
    | input | aux =>
      cases m with
      | buf b' j => exact Memory.get?_set_other _ _ hm
      | key j | iv j | nonce j | tweak j | block j | tag j | rk j => rfl
  | key i | iv i | nonce i | tweak i | block i | tag i =>
    cases m with
    | buf b' j => rfl
    | key j | iv j | nonce j | tweak j | block j | tag j | rk j =>
      simp only [State.writeByte, State.readByte]
      try (
        have : i.val ≠ j.val := by intro h; apply hm; simp only [ByteLoc.offset]; omega
        simp [this])

/-- What a write of a byte leaves. -/
structure SameControl (s t : State) : Prop where
  config : t.config = s.config
  ctrl : t.ctrl = s.ctrl
  lastCmd : t.lastCmd = s.lastCmd
  status : t.status = s.status
  keyLen : t.keyLen = s.keyLen
  ivLen : t.ivLen = s.ivLen
  nonceLen : t.nonceLen = s.nonceLen
  tweakLen : t.tweakLen = s.tweakLen
  msgLen : t.msgLen = s.msgLen
  auxLen : t.auxLen = s.auxLen
  outLen : t.outLen = s.outLen
  iter : t.iter = s.iter
  dkLen : t.dkLen = s.dkLen
  gfA : t.gfA = s.gfA
  gfB : t.gfB = s.gfB
  gfR : t.gfR = s.gfR
  rk : t.rk = s.rk
  latch : t.latch = s.latch
  trace : t.trace = s.trace
  hostQueue : t.hostQueue = s.hostQueue
  hostLog : t.hostLog = s.hostLog
  draws : t.draws = s.draws

theorem SameControl.refl (s : State) : SameControl s s := by constructor <;> rfl

theorem SameControl.trans {s t u : State} (h1 : SameControl s t) (h2 : SameControl t u) : SameControl s u := by
  obtain ⟨⟩ := h1
  obtain ⟨⟩ := h2
  constructor <;> simp_all

theorem sameControl_writeByte (s : State) (v : Byte) (l : ByteLoc) : SameControl s (s.writeByte v l) := by
  cases l with
  | buf b i => cases b <;> constructor <;> rfl
  | key i | iv i | nonce i | tweak i | block i | tag i | rk i => constructor <;> rfl

/-- Write byte values at a run of bytes. -/
def State.writeRun (s : State) (f : Nat → Byte) : List ByteLoc → State
  | [] => s
  | l :: ls => State.writeRun (s.writeByte (f 0) l) (fun k => f (k + 1)) ls

theorem foldl_zipIdx_writeByte (v : Word) (ls : List ByteLoc) (s : State) (j : Nat) :
    (ls.zipIdx j).foldl (fun s x => s.writeByte (lane v x.2) x.1) s = s.writeRun (fun k => lane v (k + j)) ls := by
  induction ls generalizing s j with
  | nil => rfl
  | cons l ls ih =>
    simp only [List.zipIdx_cons, List.foldl_cons, State.writeRun, ih, Nat.zero_add]
    congr 1
    funext k
    rw [show k + (j + 1) = k + 1 + j by omega]

/-- The bytes written by a bus write in IDLE, in order of their offsets. -/
theorem State.writeBytes_eq {s : State} (h : s.busy = false) (v : Word) (ls : List ByteLoc) :
    s.writeBytes v ls = s.writeRun (lane v) ls := by
  rw [State.writeBytes, if_neg (by simp [h]), foldl_zipIdx_writeByte]
  rfl

theorem sameControl_writeRun (s : State) (f : Nat → Byte) (ls : List ByteLoc) : SameControl s (s.writeRun f ls) := by
  induction ls generalizing s f with
  | nil => exact .refl s
  | cons l ls ih => exact (sameControl_writeByte s _ l).trans (ih _ _)

theorem sameControl_writeBytes (s : State) (v : Word) (ls : List ByteLoc) : SameControl s (s.writeBytes v ls) := by
  cases h : s.busy with
  | true => rw [State.writeBytes, if_pos h]; exact .refl s
  | false => rw [State.writeBytes_eq h]; exact sameControl_writeRun s _ ls

/-- A run of writes at offsets `a`, `a + 1`, … leaves every byte of another offset. -/
theorem State.readByte_writeRun_other (s : State) (f : Nat → Byte) (ls : List ByteLoc) (a : Nat)
    (h : ∀ k, (h : k < ls.length) → ls[k].offset = a + k) {m : ByteLoc}
    (hm : m.offset < a ∨ a + ls.length ≤ m.offset) : (s.writeRun f ls).readByte m = s.readByte m := by
  induction ls generalizing s f a with
  | nil => rfl
  | cons l ls ih =>
    have h0 := h 0 (by simp)
    simp only [List.getElem_cons_zero, List.length_cons] at h0 hm
    rw [State.writeRun, ih _ _ (a + 1) (fun k hk => by
      have := h (k + 1) (by simpa using hk)
      simp only [List.getElem_cons_succ] at this
      omega) (by omega), State.readByte_writeByte_other _ _ (by omega)]

/-- A run of writes, read back. -/
theorem State.readByte_writeRun (s : State) (f : Nat → Byte) (ls : List ByteLoc) (a : Nat)
    (h : ∀ k, (h : k < ls.length) → ls[k].offset = a + k ∧ ls[k].writable = true) (k : Nat) (hk : k < ls.length) :
    (s.writeRun f ls).readByte ls[k] = some (f k) := by
  induction ls generalizing s f a k with
  | nil => simp at hk
  | cons l ls ih =>
    have hrest : ∀ k, (h : k < ls.length) → ls[k].offset = a + 1 + k ∧ ls[k].writable = true := fun k hk => by
      have := h (k + 1) (by simpa using hk)
      simp only [List.getElem_cons_succ] at this
      exact ⟨by omega, this.2⟩
    cases k with
    | zero =>
      have h0 := h 0 (by simp)
      simp only [List.getElem_cons_zero] at h0 ⊢
      rw [State.writeRun, State.readByte_writeRun_other _ _ _ (a + 1) (fun k hk => (hrest k hk).1) (by omega),
        State.readByte_writeByte _ _ h0.2]
    | succ k =>
      simp only [List.getElem_cons_succ]
      exact ih _ _ (a + 1) hrest k (by simpa using hk)

/-- A run of writes to read-only bytes changes nothing. -/
theorem State.writeRun_readOnly (s : State) (f : Nat → Byte) (ls : List ByteLoc) (h : ∀ l ∈ ls, l.writable = false) :
    s.writeRun f ls = s := by
  induction ls generalizing s f with
  | nil => rfl
  | cons l ls ih =>
    have h0 := h l (by simp)
    have : s.writeByte (f 0) l = s := by
      cases l with
      | rk i => rfl
      | buf b i => cases b <;> first | rfl | simp [ByteLoc.writable] at h0
      | key i | iv i | nonce i | tweak i | block i | tag i => simp [ByteLoc.writable] at h0
    rw [State.writeRun, this]
    exact ih _ _ fun l' hl' => h l' (by simp [hl'])

/-! ### What a bus write can do -/

/-- Every bus write does one of these things. -/
inductive WriteEffect (s : State) (v : Word) : State → Prop where
  /-- refused, dropped, or of a read-only location -/
  | nothing : WriteEffect s v s
  | ctrl : WriteEffect s v { s with ctrl := .ofWord v }
  | accepted (h : s.busy = false) : WriteEffect s v (s.accept v)
  | refused (h : s.busy = true) : WriteEffect s v { s with status := s.status.refuse }
  | cleared : WriteEffect s v { s with status := s.status.writeOneToClear v }
  | operand (r : CtrlReg) (h : s.busy = false) : WriteEffect s v (s.writeOperand v r)
  | bytes (ls : List ByteLoc) (h : s.busy = false) (hv : ∀ l ∈ ls, l.Valid s.config) :
    WriteEffect s v (s.writeRun (lane v) ls)

theorem busWrite_effect (s : State) (a n : Nat) (v : Word) : WriteEffect s v (s.busWrite a n v).1 := by
  unfold State.busWrite
  cases h : target s.config a n with
  | slverr => exact .nothing
  | ctrl r =>
    have hop : ∀ r, WriteEffect s v (if s.busy then s else s.writeOperand v r) := fun r => by
      cases hb : s.busy with
      | true => exact .nothing
      | false => exact .operand r hb
    cases r with
    | ctrl => exact .ctrl
    | status => exact .cleared
    | cmd =>
      show WriteEffect s v (s.issue v)
      rw [State.issue]
      cases hb : s.busy with
      | true => exact .refused hb
      | false => exact .accepted hb
    | id | keyLen | ivLen | nonceLen | tweakLen | msgLen | auxLen | outLen | iter | dkLen | gfA | gfB | gfR =>
      exact hop _
  | bytes ls =>
    show WriteEffect s v (s.writeBytes v ls)
    cases hb : s.busy with
    | true => rw [State.writeBytes, if_pos hb]; exact .nothing
    | false =>
      rw [State.writeBytes_eq hb]
      refine .bytes ls hb fun l hl => ?_
      unfold target at h
      split at h
      · split at h
        · split at h <;> cases h
        · cases hf : byteLocsFrom s.config a n with
          | none => rw [hf] at h; cases h
          | some ls' =>
            rw [hf] at h; cases h
            obtain ⟨k, hk, rfl⟩ := List.getElem_of_mem hl
            exact (byteLocAt_some ((byteLocsFrom_eq_some.1 hf).2 k hk)).2
      · cases h

/-- What no bus write changes. -/
theorem WriteEffect.keeps {s t : State} {v : Word} (h : WriteEffect s v t) :
    t.config = s.config ∧ t.outLen = s.outLen ∧ t.gfR = s.gfR ∧ t.rk = s.rk ∧ t.status.keyValid = s.status.keyValid ∧
      t.status.nr = s.status.nr ∧ t.trace = s.trace ∧ t.hostQueue = s.hostQueue ∧ t.hostLog = s.hostLog ∧
      t.draws = s.draws := by
  cases h with
  | operand r h => cases r <;> exact ⟨rfl, rfl, rfl, rfl, rfl, rfl, rfl, rfl, rfl, rfl⟩
  | bytes ls h hv =>
    have k := sameControl_writeRun s (lane v) ls
    exact ⟨k.config, k.outLen, k.gfR, k.rk, by rw [k.status], by rw [k.status], k.trace, k.hostQueue, k.hostLog,
      k.draws⟩
  | _ => exact ⟨rfl, rfl, rfl, rfl, rfl, rfl, rfl, rfl, rfl, rfl⟩

/-- A run of writes keeps memory in its canonical form, and lists only bytes of the buffers. -/
theorem writeRun_mem {c : Config} (ls : List ByteLoc) (s : State) (f : Nat → Byte) (hv : ∀ l ∈ ls, l.Valid c)
    (hwf : s.mem.wf) (hb : ∀ x ∈ s.mem, ∃ b k, k < Buffer.size c b ∧ x.1 = Buffer.base b + k) :
    (s.writeRun f ls).mem.wf ∧
      ∀ x ∈ (s.writeRun f ls).mem, ∃ b k, k < Buffer.size c b ∧ x.1 = Buffer.base b + k := by
  induction ls generalizing s f with
  | nil => exact ⟨hwf, hb⟩
  | cons l ls ih =>
    refine ih _ _ (fun l' hl' => hv l' (by simp [hl'])) ?_ ?_
    · cases l with
      | buf b i => cases b <;> first | exact hwf | exact Memory.wf_set hwf _ _
      | key i | iv i | nonce i | tweak i | block i | tag i | rk i => exact hwf
    · have hl := hv l (by simp)
      cases l with
      | buf b i =>
        cases b with
        | output => exact hb
        | input | aux =>
          intro x hx
          rcases Memory.mem_set hx with rfl | hx
          · exact ⟨_, i, hl, rfl⟩
          · exact hb x hx
      | key i | iv i | nonce i | tweak i | block i | tag i | rk i => exact hb

end Sys2Proof.Machine
end

