-- ==== Sys2Proof/Laws/Commands.lean ====
section
/-! SUPPORT. What the shared operations of the commands can do, once for each: the checks, the frame of the mode
commands, reading a buffer that holds a string, and storing a result. -/

namespace Sys2Proof.Machine

/-! ### The checks -/

theorem firstError_eq_none_iff (s : State) (cs : List Check) :
    firstError s cs = none ↔ ∀ c ∈ cs, c.passes s = true := by
  induction cs with
  | nil => simp [firstError]
  | cons c cs ih =>
    simp only [firstError, List.forall_mem_cons]
    split
    · next h => simp [h, ih]
    · next h => simp [h]

/-- The error reported is that of a check, never `none`. -/
theorem firstError_ne_none {s : State} {cs : List Check} {e : ErrCode} (h : firstError s cs = some e) :
    e ≠ .none := by
  induction cs with
  | nil => simp [firstError] at h
  | cons c cs ih =>
    simp only [firstError] at h
    split at h
    · exact ih h
    · obtain rfl : c.error = e := by simpa using h
      cases c <;> simp [Check.error]

theorem withChecks_of_error {i : Instr} {s : State} {e : ErrCode} (f : State → Out)
    (h : firstError s (checks i) = some e) :
    withChecks i s f = .next (if writesOut i then s.raiseOut e else s.raise e) := by
  simp [withChecks, h]

theorem withChecks_of_pass {i : Instr} {s : State} (f : State → Out) (h : firstError s (checks i) = none) :
    withChecks i s f = f s := by
  simp [withChecks, h]

/-- A command with checks ends in the error of a failed check or executes. -/
theorem withChecks_cases (i : Instr) (s : State) (f : State → Out) :
    (∃ e, firstError s (checks i) = some e ∧ e ≠ .none ∧
      withChecks i s f = .next (if writesOut i then s.raiseOut e else s.raise e)) ∨
    (firstError s (checks i) = none ∧ withChecks i s f = f s) := by
  cases h : firstError s (checks i) with
  | none => exact .inr ⟨rfl, withChecks_of_pass f h⟩
  | some e => exact .inl ⟨e, rfl, firstError_ne_none h, withChecks_of_error f h⟩

/-- KEY_LEN is legal exactly when the key check passes. -/
theorem passes_keyLength (s : State) : Check.passes s .keyLength = true ↔ s.KeyLegal := by
  simp [Check.passes, State.KeyLegal, or_assoc]

/-- With a legal KEY_LEN the expansion sets NR to Nk + 6. -/
theorem nr_expand {s : State} (h : s.KeyLegal) : s.expand.status.nr.toNat = s.keyLen.toNat / 4 + 6 := by
  rcases h with h | h | h <;> simp [State.keyBytes, roundsOf, Status.expanded, h]

/-- The commands that report a failed check report R340's, in R340's order: the machine's list of a command's
checks and the spec's table agree. -/
theorem firstError_checks (i : Instr) (s : State) : firstError s (checks i) = reportedError i s := by
  cases i <;>
    simp [checks, firstError, reportedError, checkTable, firstFailure, Check.passes, Check.error, keyCommands,
      blockCommands, modeCommands, ecbCommands, cbcCommands, ctrCommands, cfbCommands, ofbCommands,
      xtsCommands, gcmCommands, inputCommands, auxCommands, addRoundKeyRound]

/-! ### Buffers -/

theorem State.bufRead_of_holds {s : State} {b : Buffer} {v : Bytes} {n : Nat} (hn : v.length = n)
    (h : s.Holds b v) : s.bufRead b n = .ok v :=
  (s.bufRead_ok_iff b n v).2 ⟨hn, h⟩

theorem State.holds_of_bufRead {s : State} {b : Buffer} {v : Bytes} {n : Nat} (h : s.bufRead b n = .ok v) :
    v.length = n ∧ s.Holds b v :=
  (s.bufRead_ok_iff b n v).1 h

@[simp] theorem State.bufRead_expand (s : State) (b : Buffer) (n : Nat) :
    s.expand.bufRead b n = s.bufRead b n := State.bufRead_congr rfl b n

@[simp] theorem State.bufRead_emit (s : State) (rs : List TraceRecord) (b : Buffer) (n : Nat) :
    (s.emit rs).bufRead b n = s.bufRead b n := State.bufRead_congr rfl b n

theorem stored_of_mem {s t : State} {b : Buffer} {v : Bytes} (h : t.mem = s.mem.writeFrom (Buffer.base b) v) :
    Stored s t b v :=
  ⟨fun k hk => by rw [h]; exact Memory.get?_writeFrom_inside _ _ _ hk,
    fun a ha => by rw [h]; exact Memory.get?_writeFrom_outside _ _ _ ha⟩

/-- A completion that writes OUT has stored the result there, whatever else the state held. -/
theorem stored_completeOut {s u : State} (out : Bytes) (h : u.mem = s.mem) :
    Stored s (u.completeOut out) .output out :=
  stored_of_mem (by simp [h])

theorem State.msgLen_of_hasMessage {s : State} {m : Bytes} (h : s.HasMessage m) :
    BitVec.ofNat 16 m.length = s.msgLen := by
  rw [h.1]; simp

theorem State.bufRead_of_hasMessage {s : State} {m : Bytes} (h : s.HasMessage m) :
    s.bufRead .input s.msgLen.toNat = .ok m := State.bufRead_of_holds h.1 h.2.2

theorem State.bufRead_of_hasAux {s : State} {a : Bytes} (h : s.HasAux a) :
    s.bufRead .aux s.auxLen.toNat = .ok a := State.bufRead_of_holds h.1 h.2.2

/-! ### Trace records -/

/-- The records of numbered blocks, by block index. -/
theorem flatMap_zipIdx_blocks {α : Type} (bs : List Block) (f : Nat → Block)
    (hf : ∀ j, (h : j < bs.length) → bs[j] = f j) (g : Nat → Block → List α) :
    bs.zipIdx.flatMap (fun x => g x.2 x.1) = (List.range bs.length).flatMap fun j => g j (f j) := by
  have hz : bs.zipIdx = (List.range bs.length).map fun j => (f j, j) := by
    refine List.ext_getElem (by simp) fun i h1 h2 => ?_
    have hi : i < bs.length := by simpa using h1
    simp [hf i hi]
  rw [hz, List.flatMap_map]

theorem State.emitEncryptions_eq (s : State) (bs : List Block) (f : Nat → Block)
    (hf : ∀ j, (h : j < bs.length) → bs[j] = f j) :
    s.emitEncryptions bs = s.emit ((List.range bs.length).flatMap fun j =>
      encryptRecords s.rk s.status.nr.toNat j (f j)) := by
  rw [State.emitEncryptions, flatMap_zipIdx_blocks bs f hf (fun j b => encryptRecords s.rk s.status.nr.toNat j b)]

theorem State.emitDecryptions_eq (s : State) (bs : List Block) (f : Nat → Block)
    (hf : ∀ j, (h : j < bs.length) → bs[j] = f j) :
    s.emitDecryptions bs = s.emit ((List.range bs.length).flatMap fun j =>
      decryptRecords s.rk s.status.nr.toNat j (f j)) := by
  rw [State.emitDecryptions, flatMap_zipIdx_blocks bs f hf (fun j b => decryptRecords s.rk s.status.nr.toNat j b)]

/-! ### The frame of the mode commands -/

/-- A mode command that reports a failed check. -/
theorem modeCommand_of_error {i : Instr} {s : State} {e : ErrCode} (F : State → Bytes → Ending)
    (h : firstError s (checks i) = some e) (hw : writesOut i = true) :
    modeCommand i F s = .next (s.raiseOut e) := by
  simp [modeCommand, withChecks_of_error _ h, hw]

/-- A mode command whose checks pass and whose message holds values runs its function on the message. -/
theorem modeCommand_of_message {i : Instr} {s : State} {m : Bytes} (F : State → Bytes → Ending)
    (h : firstError s (checks i) = none) (hm : s.bufRead .input s.msgLen.toNat = .ok m) :
    modeCommand i F s =
      match F s.expand m with
      | .output out t => .next (t.completeOut out)
      | .raised e t => .next (t.raiseOut e)
      | .fault f => .fault f := by
  rw [modeCommand, withChecks_of_pass _ h]
  simp only [State.bufRead_expand, hm] <;> cases F s.expand m <;> rfl

/-- A mode command whose function succeeds. -/
theorem modeCommand_output {i : Instr} {s t : State} {m out : Bytes} {F : State → Bytes → Ending}
    (h : firstError s (checks i) = none) (hm : s.bufRead .input s.msgLen.toNat = .ok m)
    (hF : F s.expand m = .output out t) : modeCommand i F s = .next (t.completeOut out) := by
  rw [modeCommand_of_message F h hm, hF]

/-- A mode command whose function raises an error. -/
theorem modeCommand_raised {i : Instr} {s t : State} {m : Bytes} {e : ErrCode} {F : State → Bytes → Ending}
    (h : firstError s (checks i) = none) (hm : s.bufRead .input s.msgLen.toNat = .ok m)
    (hF : F s.expand m = .raised e t) : modeCommand i F s = .next (t.raiseOut e) := by
  rw [modeCommand_of_message F h hm, hF]

/-- Everything a mode command can do: a failed check, a message byte without a value, or its function's ending. -/
theorem modeCommand_cases (i : Instr) (F : State → Bytes → Ending) (s : State) (hw : writesOut i = true) :
    (∃ e, firstError s (checks i) = some e ∧ e ≠ .none ∧ modeCommand i F s = .next (s.raiseOut e)) ∨
    (firstError s (checks i) = none ∧
      ((∃ f, s.bufRead .input s.msgLen.toNat = .error f ∧ modeCommand i F s = .fault f) ∨
       ∃ m, s.bufRead .input s.msgLen.toNat = .ok m ∧
        ((∃ out t, F s.expand m = .output out t ∧ modeCommand i F s = .next (t.completeOut out)) ∨
         (∃ e t, F s.expand m = .raised e t ∧ modeCommand i F s = .next (t.raiseOut e)) ∨
         (∃ f, F s.expand m = .fault f ∧ modeCommand i F s = .fault f)))) := by
  cases h : firstError s (checks i) with
  | some e => exact .inl ⟨e, rfl, firstError_ne_none h, modeCommand_of_error F h hw⟩
  | none =>
    refine .inr ⟨rfl, ?_⟩
    cases hm : s.bufRead .input s.msgLen.toNat with
    | error f => exact .inl ⟨f, rfl, by simp [modeCommand, withChecks_of_pass _ h, hm]⟩
    | ok m =>
      refine .inr ⟨m, rfl, ?_⟩
      have hrun := modeCommand_of_message F h hm
      cases hF : F s.expand m with
      | output out t => exact .inl ⟨out, t, rfl, by rw [hrun, hF]⟩
      | raised e t => exact .inr (.inl ⟨e, t, rfl, by rw [hrun, hF]⟩)
      | fault f => exact .inr (.inr ⟨f, rfl, by rw [hrun, hF]⟩)

end Sys2Proof.Machine
end

