-- ==== Sys2Proof/Laws/Modes.lean ====
section
/-! SUPPORT. What each mode function gives, byte by byte or block by block, in the words of Safety.lean. -/

namespace Sys2Proof.Machine

/-! ### Partition by sixteens -/

@[simp] theorem partition_nil : partition [] = [] := rfl

theorem partition_of_ne_nil {m : Bytes} (h : m ≠ []) : partition m = m.take 16 :: partition (m.drop 16) := by
  have hl : 0 < m.length := List.length_pos_iff.2 h
  refine List.ext_getElem (by simp; omega) fun i h1 h2 => ?_
  rw [getElem_partition]
  cases i with
  | zero => simp
  | succ i =>
    simp only [List.getElem_cons_succ]
    rw [getElem_partition, List.drop_drop]
    rw [show 16 + 16 * i = 16 * (i + 1) by omega]

/-- Induction on a message sixteen bytes at a time. -/
theorem chunkInduction {P : Bytes → Prop} (nil : P []) (step : ∀ m, m ≠ [] → P (m.drop 16) → P m) (m : Bytes) :
    P m := by
  generalize hn : m.length = n
  induction n using Nat.strongRecOn generalizing m with
  | ind n ih =>
    by_cases h : m = []
    · exact h ▸ nil
    · have hl : 0 < m.length := List.length_pos_iff.2 h
      exact step m h (ih (m.drop 16).length (by simp; omega) _ rfl)

theorem ofBytes_take (n : Nat) (b : Bytes) : ofBytes n (b.take n) = ofBytes n b := by
  refine Vector.ext fun i h => ?_
  simp [byteAt, h]

theorem getElem_blocks_eq (m : Bytes) (i : Nat) (h : i < (blocks m).length) : (blocks m)[i] = blockAt m i := by
  rw [getElem_blocks, ofBytes_take]; rfl

theorem blockAt_concat (bs : List Block) (j : Nat) (h : j < bs.length) : blockAt (concat bs) j = bs[j] := by
  have h' : j < (blocks (concat bs)).length := by simp; omega
  rw [← getElem_blocks_eq _ _ h']
  simp [blocks_concat]

/-! ### The stream modes -/

theorem xoredWith_nil (ks : Nat → Block) : XoredWith ks [] [] := ⟨rfl, fun k h => by simp at h⟩

/-- A first block and the rest, the rest's keystream one block further on. -/
theorem xoredWith_cons {ks : Nat → Block} {m o : Bytes} (h : XoredWith (fun j => ks (j + 1)) (m.drop 16) o) :
    XoredWith ks m (xorT (m.take 16) (bytesOf (ks 0)) ++ o) := by
  obtain ⟨hl, hb⟩ := h
  simp only [List.length_drop] at hl
  refine ⟨by simp; omega, fun k hk hk' => ?_⟩
  rcases Nat.lt_or_ge k 16 with h16 | h16
  · rw [List.getElem_append_left (by simp; omega)]
    simp [xorT, Nat.div_eq_of_lt h16, Nat.mod_eq_of_lt h16]
  · have hlen : (xorT (m.take 16) (bytesOf (ks 0))).length = 16 := by simp; omega
    rw [List.getElem_append_right (by omega)]
    simp only [hlen]
    rw [hb (k - 16) (by simp [hlen] at hk; omega) (by simp; omega)]
    have h1 : k / 16 = (k - 16) / 16 + 1 := by omega
    have h2 : k % 16 = (k - 16) % 16 := by omega
    have h3 : 16 + (k - 16) = k := by omega
    simp [h1, h2, h3]

theorem counterMode_pieces (ks : Nat → Block) (m : Bytes) (j : Nat) :
    XoredWith (fun i => ks (j + i)) m
      (((partition m).zipIdx j).flatMap fun x => xorT x.1 (bytesOf (ks x.2))) := by
  induction m using chunkInduction generalizing j with
  | nil => exact xoredWith_nil _
  | step m hm ih =>
    rw [partition_of_ne_nil hm, List.zipIdx_cons, List.flatMap_cons]
    refine xoredWith_cons (ks := fun i => ks (j + i)) ?_
    have := ih (j + 1)
    simpa [Nat.add_assoc, Nat.add_comm 1] using this

/-- Counter mode (R241): byte `k` is XORed with the cipher of counter block `k / 16`. -/
theorem xoredWith_counterMode (E : Block → Block) (cb : Nat → Block) (m : Bytes) :
    XoredWith (fun j => E (cb j)) m (counterMode E cb m) := by
  simpa [counterMode] using counterMode_pieces (fun j => E (cb j)) m 0

/-- OFB (R244): the keystream is the cipher iterated on the IV. -/
theorem xoredWith_ofbMode (E : Block → Block) (s : Block) (m : Bytes) :
    XoredWith (fun j => E^[j + 1] s) m (ofbMode E s (partition m)) := by
  induction m using chunkInduction generalizing s with
  | nil => exact xoredWith_nil _
  | step m hm ih =>
    rw [partition_of_ne_nil hm]
    exact xoredWith_cons (ks := fun j => E^[j + 1] s) (ih (E s))

/-- Block `j` of a string past its first sixteen bytes. -/
theorem blockAt_append_succ {a b : Bytes} (h : a.length = 16) (j : Nat) : blockAt (a ++ b) (j + 1) = blockAt b j := by
  unfold blockAt
  rw [show 16 * (j + 1) = a.length + 16 * j by omega, ← List.drop_drop, List.drop_left]

theorem blockAt_append_zero {a b : Bytes} (h : a.length = 16) : blockAt (a ++ b) 0 = ofBytes 16 a := by
  unfold blockAt
  rw [← ofBytes_take 16 (List.drop _ _)]
  simp [h]

/-- XOR with a keystream does not depend on keystream blocks past the message. -/
theorem XoredWith.congr {ks ks' : Nat → Block} {m out : Bytes} (h : XoredWith ks m out)
    (he : ∀ j, 16 * j < m.length → ks j = ks' j) : XoredWith ks' m out := by
  refine ⟨h.1, fun k hk hk' => ?_⟩
  rw [h.2 k hk hk', he (k / 16) (by omega)]

/-- CFB encryption (R242): the keystream block is the cipher of the output block before. -/
theorem xoredWith_cfbEncrypt (E : Block → Block) (s : Block) (m : Bytes) :
    XoredWith (fun j => E (if j = 0 then s else blockAt (cfbEncrypt E s (partition m)) (j - 1))) m
      (cfbEncrypt E s (partition m)) := by
  induction m using chunkInduction generalizing s with
  | nil => exact xoredWith_nil _
  | step m hm ih =>
    rw [partition_of_ne_nil hm]
    simp only [cfbEncrypt]
    refine xoredWith_cons (ks := fun j => E (if j = 0 then s else _)) ((ih _).congr fun j hj => ?_)
    simp only [List.length_drop] at hj
    have hlen : (xorT (m.take 16) (bytesOf (E s))).length = 16 := by simp; omega
    cases j with
    | zero => simp [blockAt_append_zero hlen]
    | succ j => simp [blockAt_append_succ hlen]

/-- CFB decryption (R243): the keystream block is the cipher of the message block before. -/
theorem xoredWith_cfbDecrypt (E : Block → Block) (s : Block) (m : Bytes) :
    XoredWith (fun j => E (if j = 0 then s else blockAt m (j - 1))) m (cfbDecrypt E s (partition m)) := by
  induction m using chunkInduction generalizing s with
  | nil => exact xoredWith_nil _
  | step m hm ih =>
    rw [partition_of_ne_nil hm]
    simp only [cfbDecrypt]
    refine xoredWith_cons (ks := fun j => E (if j = 0 then s else blockAt m (j - 1)))
      ((ih _).congr fun j hj => ?_)
    simp only [List.length_drop] at hj
    cases j with
    | zero => simp [blockAt, ofBytes_take]
    | succ j => simp [blockAt, List.drop_drop, Nat.mul_add, Nat.add_comm]

/-! ### The block modes -/

theorem getElem_cbcInputs (E : Block → Block) (prev : Block) (ps : List Block) (j : Nat)
    (h : j < (cbcInputs E prev ps).length) :
    (cbcInputs E prev ps)[j] = xorV (ps[j]'(by simpa using h))
      (if _h0 : j = 0 then prev else (cbcEncrypt E prev ps)[j - 1]'(by simp at h ⊢; omega)) := by
  induction ps generalizing prev j with
  | nil => simp at h
  | cons p ps ih =>
    cases j with
    | zero => simp [cbcInputs]
    | succ j =>
      simp only [cbcInputs, List.getElem_cons_succ]
      rw [ih _ j (by simpa using h)]
      cases j with
      | zero => simp [cbcEncrypt, cbcInputs]
      | succ j => simp [cbcEncrypt, cbcInputs]

/-- CBC encryption (R235): each block is XORed with the ciphertext block before it. -/
theorem getElem_cbcEncrypt (E : Block → Block) (iv : Block) (ps : List Block) (j : Nat)
    (h : j < (cbcEncrypt E iv ps).length) :
    (cbcEncrypt E iv ps)[j] = E (xorV (ps[j]'(by simpa using h))
      (if _h0 : j = 0 then iv else (cbcEncrypt E iv ps)[j - 1]'(by simp at h ⊢; omega))) := by
  have h' : j < (cbcInputs E iv ps).length := by simpa using h
  rw [← getElem_cbcInputs E iv ps j h']
  simp [cbcEncrypt]

/-- CBC decryption (R237): each decrypted block is XORed with the ciphertext block before it. -/
theorem getElem_cbcDecrypt (D : Block → Block) (prev : Block) (cs : List Block) (j : Nat)
    (h : j < (cbcDecrypt D prev cs).length) :
    (cbcDecrypt D prev cs)[j] = xorV (D (cs[j]'(by simpa using h)))
      (if _h0 : j = 0 then prev else cs[j - 1]'(by simp at h; omega)) := by
  induction cs generalizing prev j with
  | nil => simp at h
  | cons c cs ih =>
    cases j with
    | zero => simp [cbcDecrypt]
    | succ j =>
      simp only [cbcDecrypt, List.getElem_cons_succ]
      rw [ih _ j (by simpa using h)]
      cases j with
      | zero => simp
      | succ j => simp

/-- XTS (R275, R276): block `j` is masked with the first mask doubled `j` times. -/
theorem getElem_xtsMode (C : Block → Block) (t : Block) (bs : List Block) (j : Nat)
    (h : j < (xtsMode C t bs).length) :
    (xtsMode C t bs)[j] =
      xorV (C (xorV (bs[j]'(by simpa using h)) (xtsDouble^[j] t))) (xtsDouble^[j] t) := by
  induction bs generalizing t j with
  | nil => simp at h
  | cons b bs ih =>
    cases j with
    | zero => simp [xtsMode]
    | succ j =>
      simp only [xtsMode, List.getElem_cons_succ]
      rw [ih _ j (by simpa using h)]
      simp

/-! ### Padding -/

/-- Unpadding gives what stands before the padding, and nothing else (R238). -/
theorem unpad_eq_some_iff {q : Bytes} (out : Bytes) (hq16 : 16 ≤ q.length) :
    unpad q = some out ↔ ∃ p, 1 ≤ p ∧ p ≤ 16 ∧ q = out ++ List.replicate p (BitVec.ofNat 8 p) := by
  simp only [unpad]
  constructor
  · intro h
    split at h
    · next hc =>
      obtain ⟨h1, h16, hall⟩ := hc
      obtain rfl := by simpa using h
      refine ⟨(byteAt q (q.length - 1)).toNat, h1, h16, ?_⟩
      set p := byteAt q (q.length - 1) with hp
      have hdrop : q.drop (q.length - p.toNat) = List.replicate (q.drop (q.length - p.toNat)).length p := by
        refine List.eq_replicate_iff.2 ⟨rfl, fun b hb => ?_⟩
        simpa using List.all_eq_true.1 hall b hb
      have hle : p.toNat ≤ q.length := by omega
      have hlen : (q.drop (q.length - p.toNat)).length = p.toNat := by simp; omega
      rw [hlen] at hdrop
      conv_lhs => rw [← List.take_append_drop (q.length - p.toNat) q]
      rw [hdrop]; simp
    · cases h
  · rintro ⟨p, h1, h16, rfl⟩
    have hb : byteAt (out ++ List.replicate p (BitVec.ofNat 8 p))
        ((out ++ List.replicate p (BitVec.ofNat 8 p)).length - 1) = BitVec.ofNat 8 p := by
      rw [byteAt_eq_getElem (by simp; omega), List.getElem_append_right (by simp; omega)]
      simp
    rw [hb]
    have hn : (BitVec.ofNat 8 p).toNat = p := by simp; omega
    rw [hn, if_pos]
    · simp
    · refine ⟨h1, h16, ?_⟩
      simp

end Sys2Proof.Machine
end

