-- ==== Sys2Proof/Laws/Completion.lean ====
section
/-! SUPPORT. Between the machine's mode functions and the words of Safety.lean: blocks, counters, keystreams, the first XTS
mask, and PBKDF2 byte by byte. -/

namespace Sys2Proof.Machine

/-- A command all of whose checks pass. -/
theorem firstError_of_passes {i : Instr} {s : State} (h : ∀ c ∈ checks i, c.passes s = true) :
    firstError s (checks i) = none :=
  (firstError_eq_none_iff s _).2 h

/-- The state of a command that expanded the key and wrote a result as long as its message. -/
theorem completeOut_expand {s : State} {m out : Bytes} (hm : s.HasMessage m) (h : out.length = m.length) :
    s.expand.completeOut out =
      { s.expandedDone with mem := (s.expand.completeOut out).mem, outLen := s.msgLen } := by
  simp only [State.completeOut, State.setOutLen, h, State.msgLen_of_hasMessage hm]
  rfl

/-! ### Blocks -/

theorem ext_blocks {a b : Bytes} (h : a.length = b.length) (h16 : a.length % 16 = 0)
    (hb : ∀ j < a.length / 16, blockAt a j = blockAt b j) : a = b := by
  rw [← concat_blocks h16, ← concat_blocks (m := b) (h ▸ h16)]
  congr 1
  refine List.ext_getElem (by simp [h]) fun j h1 h2 => ?_
  rw [getElem_blocks_eq, getElem_blocks_eq]
  exact hb j (by simp at h1; omega)

/-- The decrypted blocks of CBC are the machine's. -/
theorem cbcPlain_unique {D : Block → Block} {iv : Block} {m q : Bytes} (h16 : m.length % 16 = 0)
    (h : CbcPlain D iv m q) : q = concat (cbcDecrypt D iv (blocks m)) := by
  refine ext_blocks (by simp [h.1]; omega) (by rw [h.1, h16]) fun j hj => ?_
  rw [h.1] at hj
  rw [h.2 j hj, blockAt_concat _ _ (by simp; omega), getElem_cbcDecrypt, getElem_blocks_eq]
  by_cases h0 : j = 0
  · simp [h0]
  · simp [h0, getElem_blocks_eq]

/-! ### XTS and GCM -/

theorem xtsFirstMask_expand (s : State) : xtsFirstMask s.expand = s.xtsMask0 := by
  simp only [xtsFirstMask, State.xtsMask0]
  have : s.expand.config = s.config := rfl
  rw [this]
  cases s.config.xtsBase <;> simp

theorem gcmCounter_add (b : Block) (j k : Nat) : gcmCounter (gcmCounter b j) k = gcmCounter b (j + k) := by
  unfold gcmCounter
  rw [bytesOf_ofBytes (by simp)]
  congr 2
  · simp
  · rw [List.drop_append_of_le_length (by simp)]
    have h : beValue 32 (beBytes 4 (beValue 32 ((bytesOf b).drop 12) + BitVec.ofNat 32 j).toNat) =
        beValue 32 ((bytesOf b).drop 12) + BitVec.ofNat 32 j := by
      refine BitVec.eq_of_toNat_eq ?_
      rw [toNat_beValue _ (by norm_num), beNat_beBytes]
      simp
    have h0 : ((bytesOf b).take 12).drop 12 = [] := by simp
    rw [h0, List.nil_append, h, BitVec.add_assoc, BitVec.ofNat_add]

theorem inc32_iterate (b : Block) (j : Nat) : inc32^[j + 1] b = gcmCounter b (j + 1) := by
  induction j with
  | zero => rfl
  | succ j ih => rw [Function.iterate_succ_apply', ih, inc32, gcmCounter_add]

/-- GCTR from the block after J0. -/
theorem xoredWith_gctr (E : Block → Block) (j0 : Block) (m : Bytes) :
    XoredWith (fun j => E (inc32^[j + 1] j0)) m (gctr E (inc32 j0) m) := by
  refine (xoredWith_counterMode E (gcmCounter (inc32 j0)) m).congr fun j _ => ?_
  rw [inc32_iterate, inc32, gcmCounter_add, Nat.add_comm 1]

/-! ### PBKDF2 -/

/-- `U_(j+1)` of block `i`, as the machine computes it (R307). -/
def kdfU (p salt : Bytes) (i : Nat) : Nat → Bytes
  | 0 => hmac p (salt ++ beBytes 4 i)
  | j + 1 => hmac p (kdfU p salt i j)

/-- Byte `k mod 32` of `U_1 XOR … XOR U_c` of block `k / 32 + 1` (R307, R308). -/
def kdfByte (p salt : Bytes) (c k : Nat) : Byte :=
  (List.range c).foldl (fun acc j => acc ^^^ byteAt (kdfU p salt (k / 32 + 1) j) (k % 32)) 0

theorem byteAt_kdfLoop (p salt : Bytes) (i c n : Nat) (acc : Bytes) (hacc : acc.length = 32) (k : Nat) (hk : k < 32) :
    byteAt (kdfLoop p n (kdfU p salt i c) acc) k =
      (List.range n).foldl (fun a j => a ^^^ byteAt (kdfU p salt i (c + 1 + j)) k) (byteAt acc k) := by
  induction n generalizing c acc with
  | zero => rfl
  | succ n ih =>
    rw [kdfLoop, show hmac p (kdfU p salt i c) = kdfU p salt i (c + 1) from rfl, ih]
    · rw [List.range_succ_eq_map, List.foldl_cons, List.foldl_map]
      have : byteAt (xorT acc (kdfU p salt i (c + 1))) k = byteAt acc k ^^^ byteAt (kdfU p salt i (c + 1)) k := by
        have hl : (kdfU p salt i (c + 1)).length = 32 := by simp [kdfU]
        rw [byteAt_eq_getElem (by simp; omega), byteAt_eq_getElem (by omega), byteAt_eq_getElem (by omega)]
        simp [xorT]
      rw [this]
      congr 1
      funext a j
      congr 3
      omega
    · simp [hacc, kdfU]

theorem byteAt_kdfBlock (p salt : Bytes) (c i k : Nat) (hk : k < 32) (hc : 1 ≤ c) :
    byteAt (kdfBlock p salt c i) k =
      (List.range c).foldl (fun acc j => acc ^^^ byteAt (kdfU p salt i j) k) 0 := by
  obtain ⟨c, rfl⟩ : ∃ d, c = d + 1 := ⟨c - 1, by omega⟩
  rw [List.range_succ_eq_map, List.foldl_cons, List.foldl_map]
  simp only [kdfBlock, Nat.add_sub_cancel]
  rw [show hmac p (salt ++ beBytes 4 i) = kdfU p salt i 0 from rfl,
    byteAt_kdfLoop p salt i 0 c _ (by simp [kdfU]) k hk]
  simp [Nat.add_comm]

theorem getElem_flatMap_32 {f : Nat → Bytes} (hf : ∀ i, (f i).length = 32) (n k : Nat)
    (h : k < ((List.range n).flatMap f).length) :
    ((List.range n).flatMap f)[k] = byteAt (f (k / 32)) (k % 32) := by
  induction n with
  | zero => simp at h
  | succ n ih =>
    have hl : ∀ n, ((List.range n).flatMap f).length = 32 * n := by
      intro n
      simp [List.length_flatMap, hf]
      omega
    have e : (List.range (n + 1)).flatMap f = (List.range n).flatMap f ++ f n := by rw [List.range_succ]; simp
    simp only [e]
    rw [hl] at h
    by_cases hk : k < 32 * n
    · rw [List.getElem_append_left (by rw [hl]; omega), ih]
    · rw [List.getElem_append_right (by rw [hl]; omega), show k / 32 = n by omega,
        byteAt_eq_getElem (by rw [hf]; omega)]
      congr 1
      rw [hl]
      omega

/-- PBKDF2 byte by byte. -/
theorem getElem_pbkdf2 (p salt : Bytes) (c dk k : Nat) (hc : 1 ≤ c) (h : k < (pbkdf2 p salt c dk).length) :
    (pbkdf2 p salt c dk)[k] = kdfByte p salt c k := by
  simp only [pbkdf2, List.getElem_take]
  rw [getElem_flatMap_32 (by simp), byteAt_kdfBlock _ _ _ _ _ (by omega) hc]
  rfl

end Sys2Proof.Machine
end

