-- ==== Sys2Proof/Laws/Effects.lean ====
section
/-! SUPPORT. Everything a command can do, once (`Effect`), and that every command that completes does one of these
things (`exec_effect`). Proofs about all commands go by cases on it. -/

namespace Sys2Proof.Machine

/-- The states a command can leave. -/
inductive Effect (s : State) : Instr → State → Prop where
  /-- a check failed (R340, R342) -/
  | checkFailed {i : Instr} {e : ErrCode} (h : firstError s (checks i) = some e) (he : e ≠ .none) :
      Effect s i (if writesOut i then s.raiseOut e else s.raise e)
  /-- GF_R was written -/
  | gf {i : Instr} (v : Byte) (h : i ∈ gfCommands) : Effect s i (State.complete { s with gfR := v })
  /-- the key was expanded -/
  | keyExpanded (hk : s.KeyLegal) : Effect s .keyExpand s.expand.complete
  /-- STATE was transformed -/
  | round {i : Instr} (b : Block) (h : isRoundCommand i = true) :
      Effect s i (State.complete { s with block := b })
  /-- STATE was encrypted or decrypted -/
  | block {i : Instr} (rs : List TraceRecord) (b : Block) (h : i ∈ blockCommands) (hk : s.KeyLegal) :
      Effect s i (State.complete { s.expand.emit rs with block := b })
  /-- a mode function other than GCM's succeeded -/
  | mode {i : Instr} (rs : List TraceRecord) (out : Bytes) (h : i ∈ modeCommands) (hg : i ∉ gcmCommands)
      (hk : s.KeyLegal) (hm : s.msgLen.toNat ≤ s.config.nIn) (ho : out.length ≤ s.msgLen.toNat + 16)
      (ht : i ∉ tracingCommands → rs = []) :
      Effect s i ((s.expand.emit rs).completeOut out)
  /-- PaddingError (R247) -/
  | paddingError (rs : List TraceRecord) (hk : s.KeyLegal) (hm : s.msgLen.toNat ≤ s.config.nIn) :
      Effect s .cbcDec (((s.expand.emit rs).bufVoid .output s.msgLen.toNat).raiseOut .paddingError)
  /-- GCM_ENC succeeded -/
  | gcmEncrypted (out : Bytes) (tag : Block) (hk : s.KeyLegal) (hm : s.msgLen.toNat ≤ s.config.nIn)
      (ho : out.length = s.msgLen.toNat) :
      Effect s .gcmEnc (State.completeOut { s.expand with tag := tag } out)
  /-- GCM_DEC succeeded -/
  | gcmDecrypted (out : Bytes) (hk : s.KeyLegal) (hm : s.msgLen.toNat ≤ s.config.nIn)
      (ho : out.length = s.msgLen.toNat) :
      Effect s .gcmDec
        (State.completeOut { s.expand with status := { s.expand.status with tagOk := true } } out)
  /-- AuthenticationFailed -/
  | authenticationFailed (hk : s.KeyLegal) :
      Effect s .gcmDec (s.expand.raiseOut .authenticationFailed)
  /-- GHASH wrote TAG -/
  | ghash (tag : Block) (hk : s.KeyLegal) : Effect s .ghash (State.complete { s.expand with tag := tag })
  /-- HMAC_SHA256 wrote OUT -/
  | hmac (out : Bytes) (ho : out.length = 32) : Effect s .hmacSha256 (s.completeOut out)
  /-- PBKDF2 wrote OUT, with or without a generated salt -/
  | pbkdf2 (out : Bytes) (ho : out.length = s.dkLen.toNat) (hd : s.dkLen.toNat ≤ s.config.nOut) :
      Effect s .pbkdf2 (s.generateSalt.completeOut out)

/-- What a mode command's checks say of the key and the message. -/
theorem modeChecks_pass {i : Instr} {s : State} (h : firstError s (checks i) = none) (hi : i ∈ modeCommands) :
    s.KeyLegal ∧ s.msgLen.toNat ≤ s.config.nIn := by
  rw [firstError_eq_none_iff] at h
  have hk : .keyLength ∈ checks i ∧ .msgFits ∈ checks i := by
    simp only [modeCommands, ecbCommands, cbcCommands, ctrCommands, cfbCommands, ofbCommands, xtsCommands,
      gcmCommands, List.cons_append, List.nil_append, List.mem_cons, List.not_mem_nil, or_false] at hi
    rcases hi with rfl | rfl | rfl | rfl | rfl | rfl | rfl | rfl | rfl | rfl | rfl | rfl | rfl | rfl <;>
      simp [checks]
  exact ⟨(passes_keyLength s).1 (h _ hk.1), by simpa [Check.passes] using h _ hk.2⟩

/-- A mode command whose function only succeeds, with records and a result no longer than the padded message. -/
theorem modeCommand_effect {i : Instr} {F : State → Bytes → Ending} {s t : State} (h : modeCommand i F s = .next t)
    (hw : writesOut i = true) (hi : i ∈ modeCommands) (hg : i ∉ gcmCommands)
    (hF : ∀ m, ∃ rs out, F s.expand m = .output out (s.expand.emit rs) ∧ out.length ≤ m.length + 16 ∧
      (i ∉ tracingCommands → rs = [])) : Effect s i t := by
  rcases modeCommand_cases i F s hw with ⟨e, he, hne, hrun⟩ | ⟨hpass, ⟨f, -, hrun⟩ | ⟨m, hm, hrest⟩⟩
  · rw [hrun] at h; cases h
    have := Effect.checkFailed (s := s) he hne
    rwa [hw] at this
  · rw [hrun] at h; cases h
  · obtain ⟨rs, out, hout, hlen, htr⟩ := hF m
    obtain ⟨hk, hn⟩ := modeChecks_pass hpass hi
    rcases hrest with ⟨out', t', hF', hrun⟩ | ⟨e, t', hF', -⟩ | ⟨f, hF', -⟩
    · rw [hout] at hF'; cases hF'
      rw [hrun] at h; cases h
      exact .mode rs out hi hg hk hn (by rw [← (State.holds_of_bufRead hm).1]; exact hlen) htr
    · rw [hout] at hF'; cases hF'
    · rw [hout] at hF'; cases hF'

theorem State.traced_nil (s : State) : s.traced [] = [] := by
  simp only [State.traced]
  split
  · split <;> rfl
  · rfl

theorem State.emit_nil (s : State) : s.emit [] = s := by
  show { s with trace := s.trace ++ s.traced [] } = s
  rw [State.traced_nil, List.append_nil]

/-- Every command that completes does one of these things. -/
theorem exec_effect {i : Instr} {s t : State} (h : exec i s = .next t) : Effect s i t := by
  cases i with
  | gfMul => cases h; exact .gf _ (by simp [gfCommands])
  | gfInv => cases h; exact .gf _ (by simp [gfCommands])
  | sboxFwd => cases h; exact .gf _ (by simp [gfCommands])
  | sboxInv => cases h; exact .gf _ (by simp [gfCommands])
  | keyExpand =>
    rw [exec, execKeyExpand] at h
    rcases withChecks_cases .keyExpand s (fun s => .next s.expand.complete) with
      ⟨e, he, hne, hrun⟩ | ⟨hp, hrun⟩
    · rw [hrun] at h; cases h; exact .checkFailed he hne
    · rw [hrun] at h; cases h
      rw [firstError_eq_none_iff] at hp
      exact .keyExpanded ((passes_keyLength s).1 (hp _ (by simp [checks])))
  | subBytes => cases h; exact .round _ rfl
  | invSubBytes => cases h; exact .round _ rfl
  | shiftRows => cases h; exact .round _ rfl
  | invShiftRows => cases h; exact .round _ rfl
  | mixColumns => cases h; exact .round _ rfl
  | invMixColumns => cases h; exact .round _ rfl
  | addRoundKey r =>
    rw [exec, execAddRoundKey] at h
    rcases withChecks_cases (.addRoundKey r) s (fun s => s.writeBlock (addRoundKey s.rk r s.block)) with
      ⟨e, he, hne, hrun⟩ | ⟨hp, hrun⟩
    · rw [hrun] at h; cases h; exact .checkFailed he hne
    · rw [hrun] at h; cases h; exact .round _ rfl
  | encBlock =>
    rw [exec, execEncBlock] at h
    rcases withChecks_cases .encBlock s (fun s => (s.expand.emitEncryptions [s.expand.block]).writeBlock
      (s.expand.E s.expand.block)) with ⟨e, he, hne, hrun⟩ | ⟨hp, hrun⟩
    · rw [hrun] at h; cases h; exact .checkFailed he hne
    · rw [hrun] at h; cases h
      rw [firstError_eq_none_iff] at hp
      exact .block _ _ (by simp [blockCommands]) ((passes_keyLength s).1 (hp _ (by simp [checks])))
  | decBlock =>
    rw [exec, execDecBlock] at h
    rcases withChecks_cases .decBlock s (fun s => (s.expand.emitDecryptions [s.expand.block]).writeBlock
      (s.expand.D s.expand.block)) with ⟨e, he, hne, hrun⟩ | ⟨hp, hrun⟩
    · rw [hrun] at h; cases h; exact .checkFailed he hne
    · rw [hrun] at h; cases h
      rw [firstError_eq_none_iff] at hp
      exact .block _ _ (by simp [blockCommands]) ((passes_keyLength s).1 (hp _ (by simp [checks])))
  | ecbEnc =>
    rw [exec, execEcbEnc] at h
    exact modeCommand_effect h rfl (by decide) (by decide) fun m =>
      ⟨_, _, rfl, by simp; omega, fun hn => absurd (by decide) hn⟩
  | ecbDec =>
    rw [exec, execEcbDec] at h
    exact modeCommand_effect h rfl (by decide) (by decide) fun m =>
      ⟨_, _, rfl, by simp; omega, fun hn => absurd (by decide) hn⟩
  | cbcEnc =>
    rw [exec, execCbcEnc] at h
    exact modeCommand_effect h rfl (by decide) (by decide) fun m =>
      ⟨_, _, rfl, by rw [length_concat, length_cbcEncrypt, length_blocks, length_pad]; omega,
        fun hn => absurd (by decide) hn⟩
  | cbcDec =>
    rw [exec, execCbcDec] at h
    rcases modeCommand_cases .cbcDec _ s rfl with ⟨e, he, hne, hrun⟩ | ⟨hpass, ⟨f, -, hrun⟩ | ⟨m, hm, hrest⟩⟩
    · rw [hrun] at h; cases h; exact .checkFailed he hne
    · rw [hrun] at h; cases h
    · obtain ⟨hk, hn⟩ := modeChecks_pass hpass (by decide)
      have hl := (State.holds_of_bufRead hm).1
      rcases hrest with ⟨out', t', hF', hrun⟩ | ⟨e, t', hF', hrun⟩ | ⟨f, hF', hrun⟩ <;> rw [hrun] at h <;> cases h
      · cases hu : unpad (concat (cbcDecrypt s.expand.D s.expand.iv (blocks m))) with
        | none => simp only [hu] at hF'; cases hF'
        | some out =>
          simp only [hu] at hF'; cases hF'
          have := length_of_unpad hu
          rw [length_concat, length_cbcDecrypt, length_blocks] at this
          exact .mode _ _ (by decide) (by decide) hk hn (by omega) fun hn => absurd (by decide) hn
      · cases hu : unpad (concat (cbcDecrypt s.expand.D s.expand.iv (blocks m))) with
        | none =>
          simp only [hu] at hF'; cases hF'
          rw [hl]; exact .paddingError _ hk hn
        | some out => simp only [hu] at hF'; cases hF'
  | ctrEnc =>
    rw [exec, execCtrEnc] at h
    exact modeCommand_effect h rfl (by decide) (by decide) fun m =>
      ⟨[], _, by rw [State.emit_nil]; rfl, by simp, fun _ => rfl⟩
  | ctrDec =>
    rw [exec, execCtrDec] at h
    exact modeCommand_effect h rfl (by decide) (by decide) fun m =>
      ⟨[], _, by rw [State.emit_nil]; rfl, by simp, fun _ => rfl⟩
  | cfbEnc =>
    rw [exec, execCfbEnc] at h
    exact modeCommand_effect h rfl (by decide) (by decide) fun m =>
      ⟨[], _, by rw [State.emit_nil], by simp, fun _ => rfl⟩
  | cfbDec =>
    rw [exec, execCfbDec] at h
    exact modeCommand_effect h rfl (by decide) (by decide) fun m =>
      ⟨[], _, by rw [State.emit_nil], by simp, fun _ => rfl⟩
  | ofbEnc =>
    rw [exec, execOfbEnc] at h
    exact modeCommand_effect h rfl (by decide) (by decide) fun m =>
      ⟨[], _, by rw [State.emit_nil]; rfl, by simp, fun _ => rfl⟩
  | ofbDec =>
    rw [exec, execOfbDec] at h
    exact modeCommand_effect h rfl (by decide) (by decide) fun m =>
      ⟨[], _, by rw [State.emit_nil]; rfl, by simp, fun _ => rfl⟩
  | xtsEnc =>
    rw [exec, execXtsEnc] at h
    exact modeCommand_effect h rfl (by decide) (by decide) fun m =>
      ⟨[], _, by rw [State.emit_nil], by simp; omega, fun _ => rfl⟩
  | xtsDec =>
    rw [exec, execXtsDec] at h
    exact modeCommand_effect h rfl (by decide) (by decide) fun m =>
      ⟨[], _, by rw [State.emit_nil], by simp; omega, fun _ => rfl⟩
  | gcmEnc =>
    rw [exec, execGcmEnc] at h
    rcases modeCommand_cases .gcmEnc _ s rfl with ⟨e, he, hne, hrun⟩ | ⟨hpass, ⟨f, -, hrun⟩ | ⟨m, hm, hrest⟩⟩
    · rw [hrun] at h; cases h; exact .checkFailed he hne
    · rw [hrun] at h; cases h
    · obtain ⟨hk, hn⟩ := modeChecks_pass hpass (by decide)
      have hl := (State.holds_of_bufRead hm).1
      rcases hrest with ⟨out', t', hF', hrun⟩ | ⟨e, t', hF', hrun⟩ | ⟨f, hF', hrun⟩ <;> rw [hrun] at h <;> cases h
      · cases ha : s.expand.bufRead .aux s.expand.auxLen.toNat with
        | error f => simp only [ha] at hF'; cases hF'
        | ok a => simp only [ha] at hF'; cases hF'; exact .gcmEncrypted _ _ hk hn (by rw [length_gctr, hl])
      · cases ha : s.expand.bufRead .aux s.expand.auxLen.toNat with
        | error f => simp only [ha] at hF'; cases hF'
        | ok a => simp only [ha] at hF'; cases hF'
  | gcmDec =>
    rw [exec, execGcmDec] at h
    rcases modeCommand_cases .gcmDec _ s rfl with ⟨e, he, hne, hrun⟩ | ⟨hpass, ⟨f, -, hrun⟩ | ⟨m, hm, hrest⟩⟩
    · rw [hrun] at h; cases h; exact .checkFailed he hne
    · rw [hrun] at h; cases h
    · obtain ⟨hk, hn⟩ := modeChecks_pass hpass (by decide)
      have hl := (State.holds_of_bufRead hm).1
      rcases hrest with ⟨out', t', hF', hrun⟩ | ⟨e, t', hF', hrun⟩ | ⟨f, hF', hrun⟩ <;> rw [hrun] at h <;> cases h
      · cases ha : s.expand.bufRead .aux s.expand.auxLen.toNat with
        | error f => simp only [ha] at hF'; cases hF'
        | ok a =>
          simp only [ha] at hF'
          split at hF'
          · cases hF'; exact .gcmDecrypted _ hk hn (by rw [length_gctr, hl])
          · cases hF'
      · cases ha : s.expand.bufRead .aux s.expand.auxLen.toNat with
        | error f => simp only [ha] at hF'; cases hF'
        | ok a =>
          simp only [ha] at hF'
          split at hF'
          · cases hF'
          · cases hF'; exact .authenticationFailed hk
  | ghash =>
    rw [exec, execGhash] at h
    rcases withChecks_cases .ghash s _ with ⟨e, he, hne, hrun⟩ | ⟨hp, hrun⟩
    · rw [hrun] at h; cases h; exact .checkFailed he hne
    · rw [hrun] at h
      rw [firstError_eq_none_iff] at hp
      cases hm : s.expand.bufRead .input s.msgLen.toNat with
      | error f => simp only [hm] at h; cases h
      | ok m =>
        simp only [hm] at h; cases h
        exact .ghash _ ((passes_keyLength s).1 (hp _ (by simp [checks])))
  | hmacSha256 =>
    rw [exec, execHmacSha256] at h
    rcases withChecks_cases .hmacSha256 s _ with ⟨e, he, hne, hrun⟩ | ⟨hp, hrun⟩
    · rw [hrun] at h; cases h; exact .checkFailed he hne
    · rw [hrun] at h
      cases ha : s.bufRead .aux s.auxLen.toNat with
      | error f => simp only [ha] at h; cases h
      | ok k =>
        cases hm : s.bufRead .input s.msgLen.toNat with
        | error f => simp only [ha, hm] at h; cases h
        | ok m => simp only [ha, hm] at h; cases h; exact .hmac _ (by simp)
  | pbkdf2 =>
    rw [exec, execPbkdf2] at h
    rcases withChecks_cases .pbkdf2 s _ with ⟨e, he, hne, hrun⟩ | ⟨hp, hrun⟩
    · rw [hrun] at h; cases h; exact .checkFailed he hne
    · rw [hrun] at h
      rw [firstError_eq_none_iff] at hp
      have hd := hp .kdfParameters (by simp [checks])
      simp only [Check.passes, Bool.and_eq_true, decide_eq_true_eq] at hd
      cases ha : s.generateSalt.bufRead .aux s.auxLen.toNat with
      | error f => simp only [ha] at h; cases h
      | ok k =>
        cases hm : s.generateSalt.bufRead .input s.generateSalt.msgLen.toNat with
        | error f => simp only [ha, hm] at h; cases h
        | ok m => simp only [ha, hm] at h; cases h; exact .pbkdf2 _ (by simp) hd.2

/-- A command appends to the records the trace sink has received. -/
theorem exec_trace {i : Instr} {s t : State} (h : exec i s = .next t) : ∃ rs, t.trace = s.trace ++ rs := by
  cases exec_effect h with
  | checkFailed =>
    refine ⟨[], ?_⟩
    rw [List.append_nil]
    split <;> rfl
  | block rs | mode rs | paddingError rs => exact ⟨s.expand.traced rs, rfl⟩
  | pbkdf2 out => exact ⟨[], by rw [List.append_nil]; exact s.generateSalt_trace⟩
  | gf | keyExpanded | round | gcmEncrypted | gcmDecrypted | authenticationFailed | ghash | hmac =>
    exact ⟨[], (List.append_nil _).symm⟩

end Sys2Proof.Machine
end

