-- ==== Sys2Proof/Laws/KeySchedule.lean ====
section
/-! SUPPORT. The key schedule word by word (spec/41_key_schedule.md R160, R162): what `extendSchedule` adds, the words
of `expandWords`, and where they stand in RK. -/

namespace Sys2Proof.Machine

@[simp] theorem length_extendSchedule (nk n : Nat) (ws : List KeyWord) :
    (extendSchedule nk n ws).length = ws.length + n := by
  induction n generalizing ws with
  | zero => rfl
  | succ n ih => rw [extendSchedule, ih]; simp; omega

/-- The words so far are kept. -/
theorem reverse_extendSchedule_prefix (nk n : Nat) (ws : List KeyWord) :
    ∃ xs, (extendSchedule nk n ws).reverse = ws.reverse ++ xs := by
  induction n generalizing ws with
  | zero => exact ⟨[], by simp [extendSchedule]⟩
  | succ n ih =>
    obtain ⟨xs, hx⟩ := ih (xorV (wordAt ws (nk - 1)) (scheduleStep nk ws.length (wordAt ws 0)) :: ws)
    refine ⟨xorV (wordAt ws (nk - 1)) (scheduleStep nk ws.length (wordAt ws 0)) :: xs, ?_⟩
    rw [extendSchedule, hx]; simp

theorem wordAt_append_left {as bs : List KeyWord} {j : Nat} (h : j < as.length) :
    wordAt (as ++ bs) j = wordAt as j := by
  simp [wordAt, List.getD, List.getElem?_append_left h]

theorem wordAt_reverse {ws : List KeyWord} {j : Nat} (h : j < ws.length) :
    wordAt ws.reverse j = wordAt ws (ws.length - 1 - j) := by
  simp [wordAt, List.getD, List.getElem?_reverse h]

/-- Every word added is the word Nk before it XORed with the step of the word before it (R160). -/
theorem wordAt_extendSchedule {nk : Nat} (hnk : 1 ≤ nk) (n : Nat) (ws : List KeyWord) (hws : nk ≤ ws.length) (i : Nat)
    (h1 : ws.length ≤ i) (h2 : i < ws.length + n) :
    wordAt (extendSchedule nk n ws).reverse i =
      xorV (wordAt (extendSchedule nk n ws).reverse (i - nk))
        (scheduleStep nk i (wordAt (extendSchedule nk n ws).reverse (i - 1))) := by
  induction n generalizing ws with
  | zero => omega
  | succ n ih =>
    rw [extendSchedule]
    rcases Nat.eq_or_lt_of_le h1 with rfl | hlt
    · obtain ⟨xs, hx⟩ := reverse_extendSchedule_prefix nk n
        (xorV (wordAt ws (nk - 1)) (scheduleStep nk ws.length (wordAt ws 0)) :: ws)
      rw [hx]
      rw [wordAt_append_left (by simp), wordAt_append_left (by simp), wordAt_append_left (by simp),
        wordAt_reverse (by simp), wordAt_reverse (by simp), wordAt_reverse (by simp)]
      simp only [List.length_cons]
      rw [show ws.length + 1 - 1 - ws.length = 0 by omega,
        show ws.length + 1 - 1 - (ws.length - nk) = (nk - 1) + 1 by omega,
        show ws.length + 1 - 1 - (ws.length - 1) = 0 + 1 by omega]
      rfl
    · exact ih _ (by simp; omega) (by simp; omega) (by simp; omega)

/-- The first Nk words are the key's (R160). -/
theorem wordAt_expandWords_of_lt {key : Bytes} {i : Nat} (h : i < key.length / 4) :
    wordAt (expandWords key) i = ofBytes 4 (key.drop (4 * i)) := by
  obtain ⟨xs, hx⟩ := reverse_extendSchedule_prefix (key.length / 4)
    (4 * (roundsOf (key.length / 4) + 1) - key.length / 4) (keyWords (key.length / 4) key).reverse
  rw [expandWords, hx, List.reverse_reverse, wordAt_append_left (by simpa [keyWords] using h)]
  simp [wordAt, keyWords, h]

@[simp] theorem length_expandWords (key : Bytes) : (expandWords key).length =
    key.length / 4 + (4 * (key.length / 4 + 7) - key.length / 4) := by
  simp [expandWords, keyWords, roundsOf]

/-- The later words follow the recurrence (R160). -/
theorem wordAt_expandWords {key : Bytes} {i : Nat} (hk : 4 ≤ key.length) (h1 : key.length / 4 ≤ i)
    (h2 : i < 4 * (key.length / 4 + 7)) :
    wordAt (expandWords key) i = xorV (wordAt (expandWords key) (i - key.length / 4))
      (scheduleStep (key.length / 4) i (wordAt (expandWords key) (i - 1))) :=
  wordAt_extendSchedule (by omega) _ _ (by simp [keyWords]) _ (by simpa [keyWords] using h1)
    (by simp [keyWords, roundsOf]; omega)

@[simp] theorem length_expandKey (key : Bytes) : (expandKey key).length = 4 * (expandWords key).length := by
  have : ∀ ws : List KeyWord, (ws.flatMap bytesOf).length = 4 * ws.length := by
    intro ws
    induction ws with
    | nil => rfl
    | cons w ws ih => simp only [List.flatMap_cons, List.length_append, length_bytesOf, ih, List.length_cons]; omega
  exact this _

/-- Byte `k` of the words in a row is byte `k mod 4` of word `k / 4`. -/
theorem byteAt_flatMap_words (ws : List KeyWord) (k : Nat) :
    byteAt (ws.flatMap bytesOf) k = (wordAt ws (k / 4))[k % 4]'(Nat.mod_lt _ (by omega)) := by
  induction ws generalizing k with
  | nil => simp [byteAt, wordAt]
  | cons w ws ih =>
    rcases Nat.lt_or_ge k 4 with hk | hk
    · have hb : byteAt (bytesOf w ++ ws.flatMap bytesOf) k = byteAt (bytesOf w) k := by
        simp [byteAt, List.getElem?_append_left (show k < (bytesOf w).length by simpa using hk)]
      rw [List.flatMap_cons, hb, byteAt_bytesOf w k hk]
      simp [wordAt, Nat.div_eq_of_lt hk, Nat.mod_eq_of_lt hk]
    · have hb : byteAt (bytesOf w ++ ws.flatMap bytesOf) k = byteAt (ws.flatMap bytesOf) (k - 4) := by
        simp [byteAt, List.getElem?_append_right (show (bytesOf w).length ≤ k by simpa using hk)]
      rw [List.flatMap_cons, hb, ih]
      have h1 : k / 4 = (k - 4) / 4 + 1 := by omega
      have h2 : k % 4 = (k - 4) % 4 := by omega
      simp [wordAt, h1, h2]

/-- Word `i` of RK after an expansion is word `i` of the schedule (R48, R162). -/
theorem scheduleWord_ofBytes (key : Bytes) {i : Nat} (h : i < 60) :
    scheduleWord (ofBytes 240 (expandKey key)) i = wordAt (expandWords key) i := by
  refine Vector.ext fun b hb => ?_
  have hi : 4 * i + b < 240 := by omega
  simp only [scheduleWord, getElem_byteString, Vector.getElem?_eq_getElem hi, Option.getD_some, getElem_ofBytes,
    expandKey, byteAt_flatMap_words]
  have h1 : (4 * i + b) / 4 = i := by omega
  have h2 : (4 * i + b) % 4 = b := by omega
  simp [h1, h2]

end Sys2Proof.Machine
end

