-- ==== Sys2Proof/Laws/Outcomes.lean ====
section
/-! SUPPORT. When a command stops: `exec_outcome` says of every outcome what it tells about the checks and the buffers. -/

namespace Sys2Proof.Machine

/-- The fault of a buffer the command reads. -/
def ReadFault (s : State) (i : Instr) (f : Fault) : Prop :=
  (i ∈ inputCommands ∧ s.bufRead .input s.msgLen.toNat = .error f) ∨
  (i ∈ auxCommands ∧ s.bufRead .aux s.auxLen.toNat = .error f)

/-- What an outcome tells: a fault is a read's, of a command whose checks pass; a next state means a check failed or
no read faults; nothing is refused. -/
def OutcomeOf (i : Instr) (s : State) (o : Out) : Prop :=
  match o with
  | .next _ => firstError s (checks i) ≠ none ∨ ∀ f, ¬ ReadFault s i f
  | .fault f => firstError s (checks i) = none ∧ ReadFault s i f
  | .refused _ => False

theorem outcome_withChecks (i : Instr) (s : State) (g : State → Out)
    (h : firstError s (checks i) = none → OutcomeOf i s (g s)) : OutcomeOf i s (withChecks i s g) := by
  rcases withChecks_cases i s g with ⟨e, he, -, hr⟩ | ⟨hp, hr⟩ <;> rw [hr]
  · exact .inl (by simp [he])
  · exact h hp

theorem outcome_modeCommand (i : Instr) (F : State → Bytes → Ending) (s : State) (hin : i ∈ inputCommands)
    (h : ∀ m, s.bufRead .input s.msgLen.toNat = .ok m →
      match F s.expand m with
      | .fault f => i ∈ auxCommands ∧ s.bufRead .aux s.auxLen.toNat = .error f
      | _ => i ∈ auxCommands → ∃ a, s.bufRead .aux s.auxLen.toNat = .ok a) :
    OutcomeOf i s (modeCommand i F s) := by
  rw [modeCommand]
  refine outcome_withChecks _ _ _ fun hp => ?_
  simp only [State.bufRead_expand]
  cases hm : s.bufRead .input s.msgLen.toNat with
  | error f => exact ⟨hp, .inl ⟨hin, hm⟩⟩
  | ok m =>
    have hF := h m hm
    have key : (i ∈ auxCommands → ∃ a, s.bufRead .aux s.auxLen.toNat = .ok a) → ∀ f, ¬ ReadFault s i f := by
      rintro ha f (hr | ⟨h1, h2⟩)
      · simp_all
      · obtain ⟨a, ha⟩ := ha h1; simp_all
    cases hE : F s.expand m <;> simp only [hE] at hF ⊢
    · exact .inr (key hF)
    · exact .inr (key hF)
    · exact ⟨hp, .inr hF⟩

/-- A command that reads no buffer and has come to its next state. -/
theorem outcome_next {i : Instr} {s : State} (h1 : i ∉ inputCommands) (h2 : i ∉ auxCommands) (t : State) :
    OutcomeOf i s (.next t) :=
  .inr (by rintro f (h | h) <;> simp_all)

/-! ### The generated salt -/

/-- A generated salt changes memory in IN[0:16] only. -/
theorem State.get?_generateSalt (s : State) {a : Nat} (h : a < 0x2000 ∨ 0x2010 ≤ a) :
    s.generateSalt.mem.get? a = s.mem.get? a := by
  unfold State.generateSalt
  split
  · exact Memory.get?_writeFrom_outside _ _ _ (by simp [State.draw16, Buffer.base]; omega)
  · rfl

theorem State.generateSalt_of_ne {s : State} (h : s.msgLen ≠ 0) : s.generateSalt = s := by
  rw [State.generateSalt, if_neg h]

/-- AUX reads the same after salt generation. -/
theorem State.bufRead_aux_generateSalt (s : State) (n : Nat) :
    s.generateSalt.bufRead .aux n = s.bufRead .aux n := by
  have hg : ∀ k, s.generateSalt.mem.get? (0x4000 + k) = s.mem.get? (0x4000 + k) := fun k =>
    s.get?_generateSalt (.inr (by omega))
  have key : ∀ n pos, s.generateSalt.mem.readFrom 0x4000 pos n = s.mem.readFrom 0x4000 pos n := by
    intro n
    induction n with
    | zero => intro pos; rfl
    | succ n ih => intro pos; simp only [Memory.readFrom, hg, ih]
  simp only [State.bufRead, Buffer.base, key]

/-- With MSG_LEN = 0 the generated salt is what the salt read finds. -/
theorem State.bufRead_input_generateSalt {s : State} (h : s.msgLen = 0) :
    s.generateSalt.bufRead .input s.generateSalt.msgLen.toNat = .ok s.draw16 := by
  rw [State.generateSalt, if_pos h]
  have hl : s.draw16.length = (s.salted s.draw16).msgLen.toNat := by
    simp only [State.draw16, List.length_map, List.length_range]; rfl
  have hs : (s.salted s.draw16).mem = s.mem.writeFrom Buffer.input.base s.draw16 := rfl
  exact State.bufRead_of_holds hl fun k hk => by rw [hs]; exact Memory.get?_writeFrom_inside _ _ _ hk

/-- What every outcome of every command tells. -/
theorem exec_outcome (i : Instr) (s : State) : OutcomeOf i s (exec i s) := by
  cases i with
  | gfMul => exact outcome_next (by decide) (by decide) _
  | gfInv => exact outcome_next (by decide) (by decide) _
  | sboxFwd => exact outcome_next (by decide) (by decide) _
  | sboxInv => exact outcome_next (by decide) (by decide) _
  | keyExpand =>
    rw [exec, execKeyExpand]
    exact outcome_withChecks _ _ _ fun _ => outcome_next (by decide) (by decide) _
  | subBytes => exact outcome_next (by decide) (by decide) _
  | invSubBytes => exact outcome_next (by decide) (by decide) _
  | shiftRows => exact outcome_next (by decide) (by decide) _
  | invShiftRows => exact outcome_next (by decide) (by decide) _
  | mixColumns => exact outcome_next (by decide) (by decide) _
  | invMixColumns => exact outcome_next (by decide) (by decide) _
  | addRoundKey r =>
    rw [exec, execAddRoundKey]
    exact outcome_withChecks _ _ _ fun _ => outcome_next
      (by simp [inputCommands, modeCommands, ecbCommands, cbcCommands, ctrCommands, cfbCommands, ofbCommands,
        xtsCommands, gcmCommands])
      (by simp [auxCommands, gcmCommands]) _
  | encBlock =>
    rw [exec, execEncBlock]
    exact outcome_withChecks _ _ _ fun _ => outcome_next (by decide) (by decide) _
  | decBlock =>
    rw [exec, execDecBlock]
    exact outcome_withChecks _ _ _ fun _ => outcome_next (by decide) (by decide) _
  | cbcDec =>
    rw [exec, execCbcDec]
    refine outcome_modeCommand _ _ _ (by decide) fun m hm => ?_
    cases unpad (concat (cbcDecrypt s.expand.D s.expand.iv (blocks m))) <;> exact fun h => absurd h (by decide)
  | gcmEnc =>
    rw [exec, execGcmEnc]
    refine outcome_modeCommand _ _ _ (by decide) fun m hm => ?_
    simp only [State.bufRead_expand, show s.expand.auxLen = s.auxLen from rfl]
    cases s.bufRead .aux s.auxLen.toNat <;> simp [auxCommands, gcmCommands]
  | gcmDec =>
    rw [exec, execGcmDec]
    refine outcome_modeCommand _ _ _ (by decide) fun m hm => ?_
    simp only [State.bufRead_expand, show s.expand.auxLen = s.auxLen from rfl]
    cases s.bufRead .aux s.auxLen.toNat with
    | error f => simp [auxCommands, gcmCommands]
    | ok a =>
      by_cases ht : tagEqual (gcmTag s.expand.E s.expand.j0 a m) s.expand.tag = true <;>
        simp only [ht] <;> exact fun _ => ⟨a, rfl⟩
  | ghash =>
    rw [exec, execGhash]
    refine outcome_withChecks _ _ _ fun hp => ?_
    simp only [State.bufRead_expand]
    cases hm : s.bufRead .input s.msgLen.toNat with
    | error f => exact ⟨hp, .inl ⟨by decide, hm⟩⟩
    | ok m =>
      refine .inr ?_
      rintro f (h | ⟨h1, h2⟩)
      · simp_all
      · exact absurd h1 (by decide)
  | hmacSha256 =>
    rw [exec, execHmacSha256]
    refine outcome_withChecks _ _ _ fun hp => ?_
    cases ha : s.bufRead .aux s.auxLen.toNat with
    | error f => exact ⟨hp, .inr ⟨by decide, ha⟩⟩
    | ok k =>
      cases hm : s.bufRead .input s.msgLen.toNat with
      | error f => exact ⟨hp, .inl ⟨by decide, hm⟩⟩
      | ok m => exact .inr (by rintro f (h | ⟨h1, h2⟩) <;> simp_all)
  | pbkdf2 =>
    rw [exec, execPbkdf2]
    refine outcome_withChecks _ _ _ fun hp => ?_
    rw [s.bufRead_aux_generateSalt]
    cases ha : s.bufRead .aux s.auxLen.toNat with
    | error f => exact ⟨hp, .inr ⟨by decide, ha⟩⟩
    | ok k =>
      by_cases h0 : s.msgLen = 0
      · simp only [State.bufRead_input_generateSalt h0]
        refine .inr ?_
        rintro f (⟨h, h'⟩ | ⟨h1, h2⟩)
        · rw [h0] at h'; simp [State.bufRead, Memory.readFrom] at h'
        · simp_all
      · rw [State.generateSalt_of_ne h0]
        cases hm : s.bufRead .input s.msgLen.toNat with
        | error f => exact ⟨hp, .inl ⟨by decide, hm⟩⟩
        | ok m => exact .inr (by rintro f (h | ⟨h1, h2⟩) <;> simp_all)
  | ecbEnc =>
    rw [exec, execEcbEnc]
    exact outcome_modeCommand _ _ _ (by decide) fun m _ => by exact fun h => absurd h (by decide)
  | ecbDec =>
    rw [exec, execEcbDec]
    exact outcome_modeCommand _ _ _ (by decide) fun m _ => by exact fun h => absurd h (by decide)
  | cbcEnc =>
    rw [exec, execCbcEnc]
    exact outcome_modeCommand _ _ _ (by decide) fun m _ => by exact fun h => absurd h (by decide)
  | ctrEnc =>
    rw [exec, execCtrEnc]
    exact outcome_modeCommand _ _ _ (by decide) fun m _ => by exact fun h => absurd h (by decide)
  | ctrDec =>
    rw [exec, execCtrDec]
    exact outcome_modeCommand _ _ _ (by decide) fun m _ => by exact fun h => absurd h (by decide)
  | cfbEnc =>
    rw [exec, execCfbEnc]
    exact outcome_modeCommand _ _ _ (by decide) fun m _ => by exact fun h => absurd h (by decide)
  | cfbDec =>
    rw [exec, execCfbDec]
    exact outcome_modeCommand _ _ _ (by decide) fun m _ => by exact fun h => absurd h (by decide)
  | ofbEnc =>
    rw [exec, execOfbEnc]
    exact outcome_modeCommand _ _ _ (by decide) fun m _ => by exact fun h => absurd h (by decide)
  | ofbDec =>
    rw [exec, execOfbDec]
    exact outcome_modeCommand _ _ _ (by decide) fun m _ => by exact fun h => absurd h (by decide)
  | xtsEnc =>
    rw [exec, execXtsEnc]
    exact outcome_modeCommand _ _ _ (by decide) fun m _ => by exact fun h => absurd h (by decide)
  | xtsDec =>
    rw [exec, execXtsDec]
    exact outcome_modeCommand _ _ _ (by decide) fun m _ => by exact fun h => absurd h (by decide)

/-- A buffer read faults exactly when one of its bytes holds no value. -/
theorem State.bufRead_error_iff (s : State) (b : Buffer) (n : Nat) :
    (∃ f, s.bufRead b n = .error f) ↔ ∃ k < n, s.mem.get? (Buffer.base b + k) = none := by
  constructor
  · rintro ⟨f, h⟩
    obtain ⟨k, -, hk, hnone, -⟩ := State.bufRead_error s b n f h
    exact ⟨k, hk, hnone⟩
  · rintro ⟨k, hk, hnone⟩
    cases h : s.bufRead b n with
    | error f => exact ⟨f, rfl⟩
    | ok v =>
      obtain ⟨hl, hv⟩ := State.holds_of_bufRead h
      have := hv k (by omega)
      simp_all

end Sys2Proof.Machine
end

