-- ==== Sys2Proof/Laws/PerInstr.lean ====
section
/-! SUPPORT. Statements about every command as syntax, one lemma per constructor. -/

namespace Sys2Proof.Laws.WordFields

/-- R110, R116: the word of a well-formed command has RSVD = 0, and ROUND ≠ 0 only for ADD_ROUND_KEY. -/
def Statement (i : Instr) : Prop :=
  i.wellFormed = true →
    rsvdField (encode i) = 0 ∧ (roundField (encode i) ≠ 0 → ∃ r, i = .addRoundKey r)

theorem gfMul : Statement .gfMul := fun _ => ⟨by decide, fun h => absurd (by decide) h⟩
theorem gfInv : Statement .gfInv := fun _ => ⟨by decide, fun h => absurd (by decide) h⟩
theorem sboxFwd : Statement .sboxFwd := fun _ => ⟨by decide, fun h => absurd (by decide) h⟩
theorem sboxInv : Statement .sboxInv := fun _ => ⟨by decide, fun h => absurd (by decide) h⟩
theorem keyExpand : Statement .keyExpand := fun _ => ⟨by decide, fun h => absurd (by decide) h⟩
theorem subBytes : Statement .subBytes := fun _ => ⟨by decide, fun h => absurd (by decide) h⟩
theorem invSubBytes : Statement .invSubBytes := fun _ => ⟨by decide, fun h => absurd (by decide) h⟩
theorem shiftRows : Statement .shiftRows := fun _ => ⟨by decide, fun h => absurd (by decide) h⟩
theorem invShiftRows : Statement .invShiftRows := fun _ => ⟨by decide, fun h => absurd (by decide) h⟩
theorem mixColumns : Statement .mixColumns := fun _ => ⟨by decide, fun h => absurd (by decide) h⟩
theorem invMixColumns : Statement .invMixColumns := fun _ => ⟨by decide, fun h => absurd (by decide) h⟩

theorem addRoundKey (round : Nat) : Statement (.addRoundKey round) := by
  intro h
  have hr : round < 16 := by
    simp only [Instr.wellFormed, decide_eq_true_eq] at h
    omega
  refine ⟨?_, fun _ => ⟨round, rfl⟩⟩
  have key : ∀ r < 16, rsvdField (encode (.addRoundKey r)) = 0 := by decide
  exact key round hr

theorem encBlock : Statement .encBlock := fun _ => ⟨by decide, fun h => absurd (by decide) h⟩
theorem decBlock : Statement .decBlock := fun _ => ⟨by decide, fun h => absurd (by decide) h⟩
theorem ecbEnc : Statement .ecbEnc := fun _ => ⟨by decide, fun h => absurd (by decide) h⟩
theorem ecbDec : Statement .ecbDec := fun _ => ⟨by decide, fun h => absurd (by decide) h⟩
theorem cbcEnc : Statement .cbcEnc := fun _ => ⟨by decide, fun h => absurd (by decide) h⟩
theorem cbcDec : Statement .cbcDec := fun _ => ⟨by decide, fun h => absurd (by decide) h⟩
theorem ctrEnc : Statement .ctrEnc := fun _ => ⟨by decide, fun h => absurd (by decide) h⟩
theorem ctrDec : Statement .ctrDec := fun _ => ⟨by decide, fun h => absurd (by decide) h⟩
theorem cfbEnc : Statement .cfbEnc := fun _ => ⟨by decide, fun h => absurd (by decide) h⟩
theorem cfbDec : Statement .cfbDec := fun _ => ⟨by decide, fun h => absurd (by decide) h⟩
theorem ofbEnc : Statement .ofbEnc := fun _ => ⟨by decide, fun h => absurd (by decide) h⟩
theorem ofbDec : Statement .ofbDec := fun _ => ⟨by decide, fun h => absurd (by decide) h⟩
theorem xtsEnc : Statement .xtsEnc := fun _ => ⟨by decide, fun h => absurd (by decide) h⟩
theorem xtsDec : Statement .xtsDec := fun _ => ⟨by decide, fun h => absurd (by decide) h⟩
theorem gcmEnc : Statement .gcmEnc := fun _ => ⟨by decide, fun h => absurd (by decide) h⟩
theorem gcmDec : Statement .gcmDec := fun _ => ⟨by decide, fun h => absurd (by decide) h⟩
theorem ghash : Statement .ghash := fun _ => ⟨by decide, fun h => absurd (by decide) h⟩
theorem hmacSha256 : Statement .hmacSha256 := fun _ => ⟨by decide, fun h => absurd (by decide) h⟩
theorem pbkdf2 : Statement .pbkdf2 := fun _ => ⟨by decide, fun h => absurd (by decide) h⟩

end Sys2Proof.Laws.WordFields
end

