-- ==== Sys2Proof/Laws/Sha256.lean ====
section
/-! SUPPORT. The machine's SHA-256, HMAC and PBKDF2 meet the relations of Safety.lean, step by step. -/

namespace Sys2Proof.Machine

/-! ### Folds as sequences -/

/-- The states of a fold, one after each prefix. -/
theorem foldl_take_succ {α β : Type} (f : β → α → β) (b : β) (l : List α) (i : Nat) (h : i < l.length) :
    (l.take (i + 1)).foldl f b = f ((l.take i).foldl f b) l[i] := by
  rw [List.take_add_one, List.getElem?_eq_getElem h, List.foldl_append]
  rfl

/-! ### Padding -/

theorem sha256Padded_shaPad (m : Bytes) : Sha256Padded m (shaPad m) := by
  refine ⟨?_, (119 - m.length % 64) % 64, by omega, beBytes 8 (8 * m.length), by simp, ?_, rfl⟩
  · simp only [shaPad, List.length_append, List.length_cons, List.length_nil, length_zeros, length_beBytes]
    omega
  · rw [beNat_beBytes]
    norm_num

/-! ### The message schedule -/

theorem shaWord_reverse (ws : List Word) (i : Nat) (h : i < ws.length) :
    shaWord ws.reverse i = shaWord ws (ws.length - 1 - i) := by
  simp only [shaWord]
  rw [List.getD_eq_getElem _ _ (by simpa using h), List.getElem_reverse, List.getD_eq_getElem _ _ (by omega)]

/-- Extending a schedule keeps its words and adds words by the recurrence of R302. -/
theorem shaExtend_spec (n : Nat) (ws : List Word) (h : 16 ≤ ws.length) :
    (shaExtend n ws).length = ws.length + n ∧
    (∀ i < ws.length, shaWord (shaExtend n ws).reverse i = shaWord ws.reverse i) ∧
    ∀ i, ws.length ≤ i → i < ws.length + n → shaWord (shaExtend n ws).reverse i =
      smallSigma1 (shaWord (shaExtend n ws).reverse (i - 2)) + shaWord (shaExtend n ws).reverse (i - 7) +
      smallSigma0 (shaWord (shaExtend n ws).reverse (i - 15)) + shaWord (shaExtend n ws).reverse (i - 16) := by
  induction n generalizing ws with
  | zero => exact ⟨rfl, fun _ _ => rfl, fun i h1 h2 => by omega⟩
  | succ n ih =>
    rw [shaExtend]
    generalize hx : smallSigma1 (shaWord ws 1) + shaWord ws 6 + smallSigma0 (shaWord ws 14) + shaWord ws 15 = x
    obtain ⟨hl, hold, hnew⟩ := ih (x :: ws) (by simp; omega)
    have hkeep : ∀ i < ws.length, shaWord (shaExtend n (x :: ws)).reverse i = shaWord ws.reverse i := by
      intro i hi
      rw [hold i (by simp; omega), List.reverse_cons]
      simp only [shaWord]
      rw [List.getD_append _ _ _ _ (by simpa using hi)]
    refine ⟨by rw [hl]; simp; omega, hkeep, fun i h1 h2 => ?_⟩
    by_cases hi : i = ws.length
    · subst hi
      have hback : ∀ k < 16, shaWord (shaExtend n (x :: ws)).reverse (ws.length - (k + 1)) = shaWord ws k := by
        intro k hk
        rw [hkeep _ (by omega), shaWord_reverse _ _ (by omega)]
        congr 1
        omega
      rw [hback 1 (by omega), hback 6 (by omega), hback 14 (by omega), hback 15 (by omega), hx,
        hold _ (by simp), shaWord_reverse _ _ (by simp)]
      simp [shaWord]
    · exact hnew i (by simp; omega) (by simp; omega)

theorem sha256Schedule_shaSchedule (blk : Bytes) : Sha256Schedule blk (shaWord (shaSchedule blk)) := by
  obtain ⟨-, hold, hnew⟩ := shaExtend_spec 48
    ((List.range 16).map fun i => beValue 32 ((blk.drop (4 * i)).take 4)).reverse (by simp)
  refine ⟨fun i hi => ?_, fun i h1 h2 => hnew i (by simpa using h1) (by simpa using h2)⟩
  rw [shaSchedule, hold i (by simpa using hi), List.reverse_reverse, shaWord, List.getD_eq_getElem _ _ (by simpa using hi)]
  simp only [List.getElem_map, List.getElem_range]
  rw [toNat_beValue _ (by norm_num), Nat.mod_eq_of_lt]
  exact lt_of_lt_of_le (beNat_lt _) (Nat.pow_le_pow_right (n := 256) (by norm_num) (List.length_take_le 4 _))

@[simp] theorem length_shaSchedule (blk : Bytes) : (shaSchedule blk).length = 64 := by
  rw [shaSchedule, List.length_reverse, (shaExtend_spec 48 _ (by simp)).1]
  simp

/-! ### The compression -/

theorem sha256Round_shaRound (v : Hash) (k w : Word) : Sha256Round k w v (shaRound v (k, w)) :=
  ⟨_, _, rfl, rfl, rfl⟩

@[simp] theorem length_sha256K : sha256K.length = 64 := rfl

/-- The working variables after `i` rounds go by the round of R303 to those after `i + 1`. -/
theorem sha256Round_fold (ks ws : List Word) (h : Hash) (i : Nat) (hk : i < ks.length) (hw : i < ws.length) :
    Sha256Round ks[i] (shaWord ws i) (((ks.zip ws).take i).foldl shaRound h)
      (((ks.zip ws).take (i + 1)).foldl shaRound h) := by
  rw [foldl_take_succ _ _ _ i (by simp; omega), List.getElem_zip, shaWord, List.getD_eq_getElem _ _ hw]
  exact sha256Round_shaRound _ _ _

theorem sha256Block_shaCompress (h : Hash) (blk : Bytes) : Sha256Block blk h (shaCompress h blk) := by
  have hk := length_sha256K
  have hw := length_shaSchedule blk
  have hs := sha256Schedule_shaSchedule blk
  unfold Sha256Block shaCompress
  generalize sha256K = ks at hk ⊢
  generalize shaSchedule blk = ws at hw hs ⊢
  refine ⟨shaWord ws, fun i => ((ks.zip ws).take i).foldl shaRound h, hs, rfl, fun i hi =>
    ⟨ks[i], List.getElem?_eq_getElem _, sha256Round_fold ks ws h i (by omega) (by omega)⟩, ?_⟩
  have ht : (ks.zip ws).take 64 = ks.zip ws := List.take_of_length_le (by simp [hk, hw])
  simp only [ht]
  rfl

/-! ### SHA-256, HMAC and PBKDF2 -/

/-- The words of a hash value, read back from its bytes. -/
theorem beNat_hashBytes (h : Hash) :
    [h.a, h.b, h.c, h.d, h.e, h.f, h.g, h.h].map (·.toNat) =
      (List.range 8).map fun j => beNat ((h.bytes.drop (4 * j)).take 4) := by
  have hw : ∀ w : Word, beNat (beBytes 4 w.toNat) = w.toNat := fun w => by
    rw [beNat_beBytes, Nat.mod_eq_of_lt (by simpa using w.isLt)]
  have hr : List.range 8 = [0, 1, 2, 3, 4, 5, 6, 7] := rfl
  simp only [Hash.bytes, hr, List.flatMap_cons, List.flatMap_nil, List.map_cons, List.map_nil]
  simp [List.drop_append, List.drop_eq_nil_of_le, List.take_of_length_le, hw]

theorem sha256Is_sha256 (m : Bytes) : Sha256Is m (sha256 m) := by
  refine ⟨shaPad m, fun t => ((shaBlocks (shaPad m)).take t).foldl shaCompress sha256Initial, sha256Padded_shaPad m, rfl,
    fun t ht => ?_, by simp, ?_⟩
  · beta_reduce
    rw [foldl_take_succ _ _ _ t (by simpa [shaBlocks] using ht)]
    simp only [shaBlocks, List.getElem_map, List.getElem_range]
    exact sha256Block_shaCompress _ _
  · have ht : (shaBlocks (shaPad m)).take ((shaPad m).length / 64) = shaBlocks (shaPad m) :=
      List.take_of_length_le (by simp [shaBlocks])
    simp only [ht]
    exact beNat_hashBytes _

theorem hmacIs_hmac (k m : Bytes) : HmacIs k m (hmac k m) := by
  refine ⟨hmacKey k, _, ?_, sha256Is_sha256 _, sha256Is_sha256 _⟩
  unfold hmacKey
  split_ifs with h
  · exact ⟨sha256 k, sha256Is_sha256 k, by simp [zeros]⟩
  · rfl

theorem derivedKeyIs_pbkdf2 (p salt : Bytes) (c dk : Nat) (hc : 1 ≤ c) : DerivedKeyIs p salt c (pbkdf2 p salt c dk) :=
  ⟨fun i => kdfU p salt (i + 1), fun _ => hmacIs_hmac _ _, fun _ _ => hmacIs_hmac _ _,
    fun k h => getElem_pbkdf2 p salt c dk k hc h⟩

end Sys2Proof.Machine
end

