-- ==== Sys2Proof/Laws/Step.lean ====
section
/-! SUPPORT. What a step does, by the event it takes; that the bus does not look at the host's queue; and runs. -/

namespace Sys2Proof.Machine

/-! ### The step by event -/

theorem step_of_nil {s : State} (h : s.hostQueue = []) : step s = coreTurn s := by
  simp [step, advance, h]

theorem step_of_cons {s : State} {e : HostEvent} {rest : List HostEvent} (h : s.hostQueue = e :: rest) :
    step s = event e { s with hostQueue := rest } := by
  simp [step, advance, h]

theorem coreTurn_idle {s : State} (h : s.latch = none) : coreTurn s = .next s := by
  simp [coreTurn, h]

theorem coreTurn_command {s : State} {l : Latch} {i : Instr} (h : s.latch = some l) (hd : decode l.word = .ok i) :
    coreTurn s = exec i s := by
  simp [coreTurn, h, hd]

theorem coreTurn_illegal {s : State} {l : Latch} {e : IllegalWord} (h : s.latch = some l)
    (hd : decode l.word = .error e) : coreTurn s = .next (s.raise .unsupportedMode) := by
  simp [coreTurn, h, hd]

/-! ### The sequencer's turn -/

/-- A command that completes leaves the latch empty, DONE set, and the host's queue and record as they were. -/
theorem exec_completes {i : Instr} {s t : State} (h : exec i s = .next t) :
    t.latch = none ∧ t.status.done = true ∧ t.hostQueue = s.hostQueue ∧ t.hostLog = s.hostLog := by
  cases exec_effect h with
  | checkFailed e he =>
    cases writesOut i <;> simp [State.raiseOut, Status.completeError]
  | _ => simp [State.completeOut, State.raiseOut, Status.complete, Status.completeError]

/-- No turn of the sequencer is refused. -/
theorem coreTurn_not_refused (s : State) (r : Refusal) : coreTurn s ≠ .refused r := by
  unfold coreTurn
  split
  · simp
  · split
    · next i _ =>
      intro h
      have := exec_outcome i s
      rw [h] at this
      exact this
    · simp

/-- A turn of a busy sequencer that does not stop completes the command. -/
theorem coreTurn_busy {s t : State} (hb : s.busy = true) (h : coreTurn s = .next t) :
    t.busy = false ∧ t.status.done = true ∧ t.hostQueue = s.hostQueue ∧ t.hostLog = s.hostLog := by
  cases hl : s.latch with
  | none => simp [State.busy, hl] at hb
  | some l =>
    cases hd : decode l.word with
    | ok i =>
      rw [coreTurn_command hl hd] at h
      obtain ⟨h1, h2⟩ := exec_completes h
      exact ⟨by simp [State.busy, h1], h2⟩
    | error e =>
      rw [coreTurn_illegal hl hd] at h
      cases h
      exact ⟨rfl, rfl, rfl, rfl⟩

/-! ### The bus and the queue -/

/-- The same state with another queue. -/
def State.queued (s : State) (q : List HostEvent) : State := { s with hostQueue := q }

theorem hostByte_queued (s : State) (q : List HostEvent) (l : ByteLoc) :
    (s.queued q).hostByte l = s.hostByte l := by
  cases l with
  | buf b i => cases b <;> rfl
  | key i | iv i | nonce i | tweak i | block i | tag i | rk i => rfl

/-- A read does not look at the queue. -/
theorem busRead_queued (s : State) (q : List HostEvent) (a n : Nat) :
    (s.queued q).busRead a n = ((s.busRead a n).1.queued q, (s.busRead a n).2) := by
  have hc : (s.queued q).config = s.config := rfl
  unfold State.busRead
  rw [hc]
  cases target s.config a n with
  | ctrl r => cases r <;> rfl
  | slverr => rfl
  | bytes ls =>
    have hl : (s.queued q).readLanes ls = s.readLanes ls := by
      simp only [State.readLanes, hostByte_queued]; rfl
    simp only [State.readBytes, hostByte_queued, hl]
    split <;> rfl

theorem writeByte_queued (s : State) (q : List HostEvent) (v : Byte) (l : ByteLoc) :
    (s.queued q).writeByte v l = (s.writeByte v l).queued q := by
  cases l with
  | buf b i => cases b <;> rfl
  | key i | iv i | nonce i | tweak i | block i | tag i | rk i => rfl

theorem writeRun_queued (q : List HostEvent) (ls : List ByteLoc) (s : State) (f : Nat → Byte) :
    (s.queued q).writeRun f ls = (s.writeRun f ls).queued q := by
  induction ls generalizing s f with
  | nil => rfl
  | cons l ls ih => simp only [State.writeRun, writeByte_queued, ih]

/-- A write does not look at the queue. -/
theorem busWrite_queued (s : State) (q : List HostEvent) (a n : Nat) (v : Word) :
    (s.queued q).busWrite a n v = ((s.busWrite a n v).1.queued q, (s.busWrite a n v).2) := by
  have hc : (s.queued q).config = s.config := rfl
  have hb : (s.queued q).busy = s.busy := rfl
  unfold State.busWrite
  rw [hc]
  cases target s.config a n with
  | slverr => rfl
  | ctrl r =>
    simp only [Prod.mk.injEq, and_true]
    cases r <;> simp only [State.writeCtrl, State.issue, hb] <;> (try split) <;> rfl
  | bytes ls =>
    simp only [Prod.mk.injEq, and_true]
    cases h : s.busy with
    | true => rw [State.writeBytes, State.writeBytes, hb, if_pos h, if_pos h]
    | false => rw [State.writeBytes_eq (by rw [hb, h]), State.writeBytes_eq h, writeRun_queued]

/-! ### Reset -/

/-- With no command in the latch, reset adds no record (R370). -/
theorem recordsBeforeReset_idle {s : State} (h : ∀ l i, s.latch = some l → decode l.word ≠ .ok i) :
    s.recordsBeforeReset = [] := by
  have hc : coreTurn s = .next s ∨ coreTurn s = .next (s.raise .unsupportedMode) := by
    cases hl : s.latch with
    | none => exact .inl (coreTurn_idle hl)
    | some l =>
      cases hd : decode l.word with
      | ok i => exact absurd hd (h l i hl)
      | error e => exact .inr (coreTurn_illegal hl hd)
  rcases hc with hc | hc <;> simp [State.recordsBeforeReset, hc]

/-- The records of a command that reset abandons are the first of those it would have sent (R370). -/
theorem recordsBeforeReset_command {s t : State} {l : Latch} {i : Instr} (h : s.latch = some l)
    (hd : decode l.word = .ok i) (ht : exec i s = .next t) :
    ∃ more, t.trace = s.trace ++ s.recordsBeforeReset ++ more := by
  obtain ⟨rs, hrs⟩ := exec_trace ht
  refine ⟨rs.drop (Config.freeCount s.draws), ?_⟩
  have hc : coreTurn s = .next t := (coreTurn_command h hd).trans ht
  simp [State.recordsBeforeReset, hc, hrs]

/-! ### WAIT and runs -/

/-- What a read of STATUS leaves: the state, and its entry in the host's log. -/
def State.polled (s : State) : State :=
  { s with hostLog := s.hostLog ++
      [{ access := .read 0x00C 4, reply := { resp := .okay, data := some s.statusWord } }] }

/-- A poll sees BUSY (R34, R121). -/
theorem statusWord_busy (s : State) : s.statusWord.getLsbD 0 = s.busy := by
  unfold State.statusWord Status.word
  rw [BitVec.getLsbD_append]
  simp [bit]

theorem wait_idle {s : State} (h : s.busy = false) (late : Nat) : s.wait late = s.polled := by
  unfold State.wait
  rw [h]
  rfl

theorem wait_turn {s : State} (h : s.busy = true) :
    s.wait 0 = { s with hostQueue := .coreTurn :: .wait 0 :: s.hostQueue } := by
  unfold State.wait
  rw [h]
  rfl

theorem wait_late {s : State} (h : s.busy = true) (n : Nat) :
    s.wait (n + 1) = { s.polled with hostQueue := .wait n :: s.hostQueue } := by
  unfold State.wait
  rw [h]
  rfl

theorem run_zero (s : State) : Sys2Proof.core.run 0 s = .next s := rfl

theorem run_succ {s t : State} (h : step s = .next t) (k : Nat) :
    Sys2Proof.core.run (k + 1) s = Sys2Proof.core.run k t := by
  have h' : Sys2Proof.core.step s = .next t := h
  simp only [Host.Core.run, h']

theorem run_fault {s : State} {f : Fault} (h : step s = .fault f) (k : Nat) :
    Sys2Proof.core.run (k + 1) s = .fault f := by
  have h' : Sys2Proof.core.step s = .fault f := h
  simp only [Host.Core.run, h']

end Sys2Proof.Machine
end

