-- ==== Sys2Proof/Laws/Trace.lean ====
section
/-! SUPPORT. The latched trace enable changes nothing of a command but its records: `agree_exec`. -/

namespace Sys2Proof.Machine

/-- The state with a command word latched and the trace on or off. -/
def latched (s : State) (w : Word) (on : Bool) : State := { s with latch := some ⟨w, on⟩ }

/-- The records a command adds: any if it traces, else none. -/
def RecordsOf (i : Instr) (rs : List TraceRecord) : Prop := i ∉ tracingCommands → rs = []

/-- The outcome with the trace off, `a`, sends no record, and the outcome with the trace on, `b`, is the same but for
its records. -/
def Agree (i : Instr) (s : State) (a b : Out) : Prop :=
  match a with
  | .next t => t.trace = s.trace ∧ ∃ rs, b = .next { t with trace := s.trace ++ rs } ∧ RecordsOf i rs
  | .fault f => b = .fault f
  | .refused _ => False

theorem recordsOf_nil (i : Instr) : RecordsOf i [] := fun _ => rfl

theorem agree_next {i : Instr} {s t u : State} (rs : List TraceRecord) (h1 : t.trace = s.trace)
    (h2 : u = { t with trace := s.trace ++ rs }) (h3 : RecordsOf i rs) : Agree i s (.next t) (.next u) :=
  ⟨h1, rs, by rw [h2], h3⟩

/-- An update that neither looks at the latch nor touches the trace. -/
theorem agree_update {i : Instr} {s : State} {w : Word} (f : State → State)
    (hf : f (latched s w true) = f (latched s w false)) (ht : (f (latched s w false)).trace = s.trace) :
    Agree i s (.next (f (latched s w false))) (.next (f (latched s w true))) :=
  agree_next [] ht (by rw [hf, List.append_nil, ← ht]) (recordsOf_nil i)

theorem firstError_latched (s : State) (w : Word) (on : Bool) (cs : List Check) :
    firstError (latched s w on) cs = firstError s cs := by
  induction cs with
  | nil => rfl
  | cons c cs ih => simp only [firstError, ih]; cases c <;> rfl

theorem agree_withChecks {i : Instr} {s : State} {w : Word} {g : State → Out}
    (h : Agree i s (g (latched s w false)) (g (latched s w true))) :
    Agree i s (withChecks i (latched s w false) g) (withChecks i (latched s w true) g) := by
  unfold withChecks
  simp only [firstError_latched]
  cases firstError s (checks i) with
  | none => exact h
  | some e =>
    refine agree_next [] ?_ ?_ (recordsOf_nil i)
    · split <;> rfl
    · cases writesOut i <;> simp [latched, State.raise, State.raiseOut, State.setOutLen]

/-- The states two mode functions leave agree but for the latch and the records. -/
def AgreeState (i : Instr) (s t u : State) : Prop :=
  ∃ rs l, t.trace = s.trace ∧ u = { t with latch := l, trace := s.trace ++ rs } ∧ RecordsOf i rs

/-- `Agree` for the endings of mode functions. -/
def AgreeEnding (i : Instr) (s : State) (a b : Ending) : Prop :=
  match a with
  | .output out t => ∃ u, b = .output out u ∧ AgreeState i s t u
  | .raised e t => ∃ u, b = .raised e u ∧ AgreeState i s t u
  | .fault f => b = .fault f

theorem agree_modeCommand {i : Instr} {s : State} {w : Word} {F : State → Bytes → Ending}
    (hF : ∀ m, AgreeEnding i s (F (latched s.expand w false) m) (F (latched s.expand w true) m)) :
    Agree i s (modeCommand i F (latched s w false)) (modeCommand i F (latched s w true)) := by
  unfold modeCommand
  refine agree_withChecks ?_
  have h1 : ∀ on, (latched s w on).expand = latched s.expand w on := fun on => rfl
  have h2 : ∀ on, (latched s.expand w on).bufRead .input (latched s w on).msgLen.toNat =
      s.bufRead .input s.msgLen.toNat := fun on => rfl
  simp only [h1, h2]
  cases s.bufRead .input s.msgLen.toNat with
  | error f => exact rfl
  | ok m =>
    have hm := hF m
    dsimp only
    revert hm
    generalize F (latched s.expand w false) m = a
    generalize F (latched s.expand w true) m = b
    intro hm
    cases a with
    | output out t =>
      obtain ⟨u, rfl, rs, l, h3, h4, h5⟩ := hm
      exact agree_next rs h3 (by rw [h4]; rfl) h5
    | raised e t =>
      obtain ⟨u, rfl, rs, l, h3, h4, h5⟩ := hm
      exact agree_next rs h3 (by rw [h4]; rfl) h5
    | fault f => rw [show b = _ from hm]; exact rfl

/-- A mode function that leaves the expanded state. -/
theorem agreeState_expand (i : Instr) (s : State) (w : Word) :
    AgreeState i s (latched s.expand w false) (latched s.expand w true) :=
  ⟨[], some ⟨w, true⟩, rfl, by simp [latched, State.expand], recordsOf_nil i⟩

/-- A mode function that emits records. -/
theorem agreeState_emit {i : Instr} (s : State) (w : Word) (rs : List TraceRecord) (h : i ∈ tracingCommands) :
    AgreeState i s ((latched s.expand w false).emit rs) ((latched s.expand w true).emit rs) :=
  ⟨rs, some ⟨w, true⟩, by simp [latched, State.emit, State.traced], by simp [latched, State.emit, State.traced],
    fun h' => absurd h h'⟩

/-- Every command's outcome with the trace on is that with the trace off, but for the records. -/
theorem agree_exec (i : Instr) (s : State) (w : Word) :
    Agree i s (exec i (latched s w false)) (exec i (latched s w true)) := by
  cases i with
  | gfMul | gfInv | sboxFwd | sboxInv => exact agree_update (fun t => State.complete { t with gfR := _ }) rfl rfl
  | subBytes | invSubBytes | shiftRows | invShiftRows | mixColumns | invMixColumns =>
    exact agree_update (fun t => State.complete { t with block := _ }) rfl rfl
  | keyExpand =>
    rw [exec, execKeyExpand]
    exact agree_withChecks (agree_update (fun t => t.expand.complete) rfl rfl)
  | addRoundKey r =>
    rw [exec, execAddRoundKey]
    exact agree_withChecks (agree_update (fun t => State.complete { t with block := addRoundKey t.rk r t.block }) rfl rfl)
  | encBlock =>
    rw [exec, execEncBlock]
    refine agree_withChecks ?_
    have h1 : ∀ on, (latched s w on).expand = latched s.expand w on := fun on => rfl
    simp only [h1]
    exact agree_next (encryptRecords s.expand.rk s.expand.status.nr.toNat 0 s.expand.block ++ [])
      (by simp [latched, State.emitEncryptions, State.emit, State.traced])
      (by simp [State.complete, latched, State.emitEncryptions, State.emit, State.traced, State.E])
      fun h => absurd (by decide) h
  | decBlock =>
    rw [exec, execDecBlock]
    refine agree_withChecks ?_
    have h1 : ∀ on, (latched s w on).expand = latched s.expand w on := fun on => rfl
    simp only [h1]
    exact agree_next (decryptRecords s.expand.rk s.expand.status.nr.toNat 0 s.expand.block ++ [])
      (by simp [latched, State.emitDecryptions, State.emit, State.traced])
      (by simp [State.complete, latched, State.emitDecryptions, State.emit, State.traced, State.D])
      fun h => absurd (by decide) h
  | ecbEnc => rw [exec, execEcbEnc]; exact agree_modeCommand fun m => ⟨_, rfl, agreeState_emit _ _ _ (by decide)⟩
  | ecbDec => rw [exec, execEcbDec]; exact agree_modeCommand fun m => ⟨_, rfl, agreeState_emit _ _ _ (by decide)⟩
  | cbcEnc => rw [exec, execCbcEnc]; exact agree_modeCommand fun m => ⟨_, rfl, agreeState_emit _ _ _ (by decide)⟩
  | cbcDec =>
    rw [exec, execCbcDec]
    refine agree_modeCommand fun m => ?_
    have h1 : ∀ on, (latched s.expand w on).D = s.expand.D := fun on => rfl
    have h2 : ∀ on, (latched s.expand w on).iv = s.iv := fun on => rfl
    simp only [h1, h2]
    cases unpad (concat (cbcDecrypt s.expand.D s.iv (blocks m))) with
    | some out => exact ⟨_, rfl, agreeState_emit _ _ _ (by decide)⟩
    | none =>
      refine ⟨_, rfl, ?_⟩
      obtain ⟨rs, l, h3, h4, h5⟩ := agreeState_emit (i := .cbcDec) s w
        ((blocks m).zipIdx.flatMap fun x => decryptRecords s.expand.rk s.expand.status.nr.toNat x.2 x.1) (by decide)
      refine ⟨rs, l, h3, ?_, h5⟩
      exact congrArg (State.bufVoid · .output m.length) h4
  | ctrEnc => rw [exec, execCtrEnc]; exact agree_modeCommand fun m => ⟨_, rfl, agreeState_expand _ _ _⟩
  | ctrDec => rw [exec, execCtrDec]; exact agree_modeCommand fun m => ⟨_, rfl, agreeState_expand _ _ _⟩
  | cfbEnc => rw [exec, execCfbEnc]; exact agree_modeCommand fun m => ⟨_, rfl, agreeState_expand _ _ _⟩
  | cfbDec => rw [exec, execCfbDec]; exact agree_modeCommand fun m => ⟨_, rfl, agreeState_expand _ _ _⟩
  | ofbEnc => rw [exec, execOfbEnc]; exact agree_modeCommand fun m => ⟨_, rfl, agreeState_expand _ _ _⟩
  | ofbDec => rw [exec, execOfbDec]; exact agree_modeCommand fun m => ⟨_, rfl, agreeState_expand _ _ _⟩
  | xtsEnc => rw [exec, execXtsEnc]; exact agree_modeCommand fun m => ⟨_, rfl, agreeState_expand _ _ _⟩
  | xtsDec => rw [exec, execXtsDec]; exact agree_modeCommand fun m => ⟨_, rfl, agreeState_expand _ _ _⟩
  | gcmEnc =>
    rw [exec, execGcmEnc]
    refine agree_modeCommand fun m => ?_
    have h1 : ∀ on, (latched s.expand w on).bufRead .aux (latched s.expand w on).auxLen.toNat =
        s.bufRead .aux s.auxLen.toNat := fun on => rfl
    simp only [h1]
    cases s.bufRead .aux s.auxLen.toNat with
    | error f => exact rfl
    | ok a => exact ⟨_, rfl, [], some ⟨w, true⟩, rfl, by simp [latched, State.expand]; rfl, recordsOf_nil _⟩
  | gcmDec =>
    rw [exec, execGcmDec]
    refine agree_modeCommand fun m => ?_
    have h1 : ∀ on, (latched s.expand w on).bufRead .aux (latched s.expand w on).auxLen.toNat =
        s.bufRead .aux s.auxLen.toNat := fun on => rfl
    have h2 : ∀ on, (latched s.expand w on).E = s.expand.E := fun on => rfl
    have h3 : ∀ on, (latched s.expand w on).j0 = s.expand.j0 := fun on => rfl
    have h4 : ∀ on, (latched s.expand w on).tag = s.tag := fun on => rfl
    simp only [h1, h2, h3, h4]
    cases s.bufRead .aux s.auxLen.toNat with
    | error f => exact rfl
    | ok a =>
      by_cases h : tagEqual (gcmTag s.expand.E s.expand.j0 a m) s.tag = true
      · simp only [h]
        exact ⟨_, rfl, [], some ⟨w, true⟩, rfl, by simp [latched, State.expand], recordsOf_nil _⟩
      · simp only [h]
        exact ⟨_, rfl, agreeState_expand _ _ _⟩
  | ghash =>
    rw [exec, execGhash]
    refine agree_withChecks ?_
    have h1 : ∀ on, (latched s w on).expand.bufRead .input (latched s w on).msgLen.toNat =
        s.bufRead .input s.msgLen.toNat := fun on => rfl
    simp only [h1]
    cases s.bufRead .input s.msgLen.toNat with
    | error f => exact rfl
    | ok m => exact agree_update (fun t => State.complete { t.expand with tag := _ }) rfl rfl
  | hmacSha256 =>
    rw [exec, execHmacSha256]
    refine agree_withChecks ?_
    have h1 : ∀ on, (latched s w on).bufRead .aux (latched s w on).auxLen.toNat =
        s.bufRead .aux s.auxLen.toNat := fun on => rfl
    have h2 : ∀ on, (latched s w on).bufRead .input (latched s w on).msgLen.toNat =
        s.bufRead .input s.msgLen.toNat := fun on => rfl
    simp only [h1, h2]
    cases s.bufRead .aux s.auxLen.toNat with
    | error f => exact rfl
    | ok k =>
      cases s.bufRead .input s.msgLen.toNat with
      | error f => exact rfl
      | ok m =>
        dsimp only
        generalize hmac k m = out
        exact agree_update (fun t => t.completeOut out) rfl rfl
  | pbkdf2 =>
    rw [exec, execPbkdf2]
    refine agree_withChecks ?_
    have h0 : ∀ on, (latched s w on).generateSalt = latched s.generateSalt w on := by
      intro on
      show (if s.msgLen = 0 then _ else _) = _
      unfold State.generateSalt
      split <;> rfl
    have h3 : s.generateSalt.trace = s.trace := by
      unfold State.generateSalt
      split <;> simp [State.salted, State.drew, State.bufWrite]
    simp only [h0]
    revert h3
    generalize s.generateSalt = g
    intro h3
    have h1 : ∀ on, (latched g w on).bufRead .aux (latched s w on).auxLen.toNat =
        g.bufRead .aux s.auxLen.toNat := fun on => rfl
    have h2 : ∀ on, (latched g w on).bufRead .input (latched g w on).msgLen.toNat =
        g.bufRead .input g.msgLen.toNat := fun on => rfl
    simp only [h1, h2]
    cases g.bufRead .aux s.auxLen.toNat with
    | error f => exact rfl
    | ok k =>
      cases g.bufRead .input g.msgLen.toNat with
      | error f => exact rfl
      | ok salt =>
        dsimp only [latched]
        generalize pbkdf2 k salt s.iter.toNat s.dkLen.toNat = out
        refine agree_next [] h3 ?_ (recordsOf_nil _)
        rw [List.append_nil, ← h3]
        rfl

end Sys2Proof.Machine
end

