-- ==== Sys2Proof/Tests/Slice0.lean ====
section
/-! SUPPORT. The model's own tests: the well-formedness smoke test, words written out from spec/30_encoding.md R115, single
steps whose expected results are rows of spec/95_test_vectors.md, and for every obligation that has hypotheses a
concrete state and operands that meet them. -/

namespace Sys2Proof.Tests

open Sys2Proof.Machine

/-! ### Well-formedness (R110, R120): the one operand has four bits -/

theorem test_round_16_is_ill_formed : (Instr.addRoundKey 16).wellFormed = false := by decide
theorem test_round_15_is_well_formed : (Instr.addRoundKey 15).wellFormed = true := by decide

/-! ### Decoding: RSVD (20 bits), ROUND (4 bits), UNIT (4 bits), function (4 bits), from R110, R111, R115 -/

theorem test_decode_gf_mul : decode 0b00000000000000000000_0000_0001_0000 = .ok .gfMul := by decide
theorem test_decode_gf_inv : decode 0b00000000000000000000_0000_0001_0001 = .ok .gfInv := by decide
theorem test_decode_sbox_fwd : decode 0b00000000000000000000_0000_0001_0010 = .ok .sboxFwd := by decide
theorem test_decode_sbox_inv : decode 0b00000000000000000000_0000_0001_0011 = .ok .sboxInv := by decide
theorem test_decode_key_expand : decode 0b00000000000000000000_0000_0010_0000 = .ok .keyExpand := by decide
theorem test_decode_sub_bytes : decode 0b00000000000000000000_0000_0011_0000 = .ok .subBytes := by decide
theorem test_decode_inv_sub_bytes : decode 0b00000000000000000000_0000_0011_0001 = .ok .invSubBytes := by decide
theorem test_decode_shift_rows : decode 0b00000000000000000000_0000_0011_0010 = .ok .shiftRows := by decide
theorem test_decode_inv_shift_rows : decode 0b00000000000000000000_0000_0011_0011 = .ok .invShiftRows := by decide
theorem test_decode_mix_columns : decode 0b00000000000000000000_0000_0011_0100 = .ok .mixColumns := by decide
theorem test_decode_inv_mix_columns : decode 0b00000000000000000000_0000_0011_0101 = .ok .invMixColumns := by decide
theorem test_decode_add_round_key_0 : decode 0b00000000000000000000_0000_0011_0110 = .ok (.addRoundKey 0) := by decide
theorem test_decode_add_round_key_10 : decode 0b00000000000000000000_1010_0011_0110 = .ok (.addRoundKey 10) := by
  decide
theorem test_decode_enc_block : decode 0b00000000000000000000_0000_0100_0000 = .ok .encBlock := by decide
theorem test_decode_dec_block : decode 0b00000000000000000000_0000_0100_0001 = .ok .decBlock := by decide
theorem test_decode_ecb_enc : decode 0b00000000000000000000_0000_0101_0000 = .ok .ecbEnc := by decide
theorem test_decode_ecb_dec : decode 0b00000000000000000000_0000_0101_0001 = .ok .ecbDec := by decide
theorem test_decode_cbc_enc : decode 0b00000000000000000000_0000_0101_0010 = .ok .cbcEnc := by decide
theorem test_decode_cbc_dec : decode 0b00000000000000000000_0000_0101_0011 = .ok .cbcDec := by decide
theorem test_decode_ctr_enc : decode 0b00000000000000000000_0000_0101_0100 = .ok .ctrEnc := by decide
theorem test_decode_ctr_dec : decode 0b00000000000000000000_0000_0101_0101 = .ok .ctrDec := by decide
theorem test_decode_cfb_enc : decode 0b00000000000000000000_0000_0101_0110 = .ok .cfbEnc := by decide
theorem test_decode_cfb_dec : decode 0b00000000000000000000_0000_0101_0111 = .ok .cfbDec := by decide
theorem test_decode_ofb_enc : decode 0b00000000000000000000_0000_0101_1000 = .ok .ofbEnc := by decide
theorem test_decode_ofb_dec : decode 0b00000000000000000000_0000_0101_1001 = .ok .ofbDec := by decide
theorem test_decode_xts_enc : decode 0b00000000000000000000_0000_0101_1010 = .ok .xtsEnc := by decide
theorem test_decode_xts_dec : decode 0b00000000000000000000_0000_0101_1011 = .ok .xtsDec := by decide
theorem test_decode_gcm_enc : decode 0b00000000000000000000_0000_0101_1100 = .ok .gcmEnc := by decide
theorem test_decode_gcm_dec : decode 0b00000000000000000000_0000_0101_1101 = .ok .gcmDec := by decide
theorem test_decode_ghash : decode 0b00000000000000000000_0000_0110_0000 = .ok .ghash := by decide
theorem test_decode_hmac_sha256 : decode 0b00000000000000000000_0000_0110_0001 = .ok .hmacSha256 := by decide
theorem test_decode_pbkdf2 : decode 0b00000000000000000000_0000_0110_0010 = .ok .pbkdf2 := by decide

/-- spec/95_test_vectors.md 2.13: the illegal words. -/
theorem test_decode_illegal :
    decode 0x37 = .error .unassignedOpcode ∧ decode 0x1040 = .error .reservedBitsSet ∧
      decode 0x5E = .error .reservedMode ∧ decode 0x140 = .error .roundSet ∧ decode 0 = .error .reservedUnit ∧
      decode 0x130 = .error .roundSet := by decide

/-- R83: byte lane 0 is the low byte. -/
theorem test_decode_bytes : decodeBytes [0x36, 0x0A, 0x00, 0x00] = .ok (.addRoundKey 10, []) := by decide

theorem test_decode_truncated : decodeBytes [0x36, 0x0A, 0x00] = .error .truncated := by decide

theorem test_decode_table_word : decodeTableWord 32 0x5D = some .gcmDec ∧ decodeTableWord 32 0x70 = none := by decide

/-- The host's placement: the next step runs the word's command (R334, R336). -/
theorem test_fetch_word_runs :
    (match step (State.withFetchWord { State.reset with gfA := 0x57, gfB := 0x83 } 32 0x10) with
      | .next t => some (t.gfR, t.statusWord, t.lastCmd, t.hostQueue)
      | _ => none) = some (0xC1, 0x00000002, 0x10, []) := by decide +kernel

/-! ### Host programs (R119–R124), from the programs of spec/95_test_vectors.md section 3 -/

/-- P2's `BYTES 0x2000`, cut to six bytes: one whole word, and the bytes past it (R122). -/
theorem test_bytes_accesses :
    (HostStmt.bytes 0x2000 [0x6b, 0xc1, 0xbe, 0xe2, 0x2e, 0x40]).accesses =
      [.write 0x2000 4 0xe2bec16b, .write 0x2004 1 0x2e, .write 0x2005 1 0x40] := by decide

/-- P1's and P4's `READ 0x0090, 16`, cut to six bytes: two words cover them (R123). -/
theorem test_read_accesses :
    (HostStmt.read 0x0090 6 "ct").accesses = [.read 0x0090 4, .read 0x0094 4] := by decide

/-- The end of P2: a poll, OUT_LEN, and the last words of the plaintext, as the encoding writes them (R124). -/
def p2End : List Transaction :=
  [ ⟨.read 0x00C 4, .okay, some 0x000a0012⟩, ⟨.read 0x028 4, .okay, some 0x00000014⟩,
    ⟨.read 0x600C 4, .okay, some 0x2a179373⟩, ⟨.read 0x6010 4, .okay, some 0x578a2dae⟩ ]

theorem test_encode_transactions :
    (⟨.write 0x010 1 0x20, .slverr, none⟩ : Transaction).encode = ⟨.write, 1, 0x010, 0x20⟩ ∧
      p2End.map Transaction.encode =
        [⟨.read, 4, 0x00C, 0x000a0012⟩, ⟨.read, 4, 0x028, 0x00000014⟩,
          ⟨.read, 4, 0x600C, 0x2a179373⟩, ⟨.read, 4, 0x6010, 0x578a2dae⟩] := by decide

/-- P2's message ends `73 93 17 2a ae 2d 8a 57`; a READ of six bytes keeps the first six. -/
theorem test_kept_results :
    keptResults [.wait, .rd32 0x028 (some "n2"), .read 0x600C 6 "pt"] p2End =
      [("n2", .value 20), ("pt", .bytes [0x73, 0x93, 0x17, 0x2a, 0xae, 0x2d])] := by decide

/-- A poll that reads BUSY = 1 is followed by another (R121). -/
theorem test_wait_polls :
    pollCount [⟨.read 0x00C 4, .okay, some 0x1⟩, ⟨.read 0x00C 4, .okay, some 0x000a0012⟩,
      ⟨.read 0x00C 4, .okay, some 0x000a0012⟩] = 2 := by decide

/-! ### Single steps against spec/95_test_vectors.md -/

/-- A block from the number its 32 hexadecimal digits write. -/
def block (v : Nat) : Block := ofBytes 16 (beBytes 16 v)

/-- The reset state with a key of `n` bytes, from its hexadecimal digits. -/
def keyed (n v : Nat) : State :=
  { State.reset with keyLen := BitVec.ofNat 8 n, key := ofBytes 32 (beBytes n v ++ zeros (32 - n)) }

/-- The state with a message of `n` bytes in IN. -/
def withMessage (s : State) (n v : Nat) : State :=
  { s with msgLen := BitVec.ofNat 16 n, mem := s.mem.writeFrom 0x2000 (beBytes n v) }

/-- The state with `n` bytes in AUX. -/
def withAux (s : State) (n v : Nat) : State :=
  { s with auxLen := BitVec.ofNat 16 n, mem := s.mem.writeFrom 0x4000 (beBytes n v) }

def withIv (s : State) (v : Nat) : State := { s with ivLen := 16, iv := block v }

/-- The key of most vectors. -/
def key0 : Nat := 0x2b7e151628aed2a6abf7158809cf4f3c

/-- The IV of most vectors. -/
def iv0 : Nat := 0x000102030405060708090a0b0c0d0e0f

/-- The first block of the message of most vectors. -/
def block0 : Nat := 0x6bc1bee22e409f96e93d7e117393172a

def sample : Nat := 0x00112233445566778899aabbccddeeff

/-- One field of the next state. -/
def after {α : Type} (o : Out) (f : State → α) : Option α :=
  match o with
  | .next t => some (f t)
  | .fault _ => none
  | .refused _ => none

/-- OUT[0 : OUT_LEN] as a number, OUT_LEN and STATUS. -/
def outOf (o : Out) : Option (Nat × Nat × Word) :=
  (after o fun t =>
    match t.bufRead .output t.outLen.toNat with
    | .ok v => some (beNat v, v.length, t.statusWord)
    | .error _ => none).join

/-- 2.1. -/
theorem test_gf_mul : after (exec .gfMul { State.reset with gfA := 0x57, gfB := 0x13 }) (·.gfR) = some 0xFE := by
  decide +kernel
theorem test_gf_mul_reduces : after (exec .gfMul { State.reset with gfA := 0x80, gfB := 0x02 }) (·.gfR) = some 0x1B := by
  decide +kernel
theorem test_gf_inv : after (exec .gfInv { State.reset with gfA := 0x53 }) (·.gfR) = some 0xCA := by decide +kernel
theorem test_gf_inv_zero : after (exec .gfInv { State.reset with gfA := 0x00 }) (·.gfR) = some 0x00 := by
  decide +kernel
theorem test_sbox_fwd : after (exec .sboxFwd { State.reset with gfA := 0x53 }) (·.gfR) = some 0xED := by decide +kernel
theorem test_sbox_inv : after (exec .sboxInv { State.reset with gfA := 0x16 }) (·.gfR) = some 0xFF := by decide +kernel

/-- 2.2. -/
theorem test_key_expand :
    after (exec .keyExpand (keyed 16 key0)) (fun t => (t.statusWord, scheduleWord t.rk 4, scheduleWord t.rk 43)) =
      some (0x000A0012, #v[0xA0, 0xFA, 0xFE, 0x17], #v[0xB6, 0x63, 0x0C, 0xA6]) := by decide +kernel
theorem test_key_expand_256 :
    after (exec .keyExpand (keyed 32 0x603deb1015ca71be2b73aef0857d77811f352c073b6108d72d9810a30914dff4))
        (fun t => (t.statusWord, scheduleWord t.rk 12, scheduleWord t.rk 59)) =
      some (0x000E0012, #v[0xA8, 0xB0, 0x9C, 0x1A], #v[0x70, 0x6C, 0x63, 0x1E]) := by decide +kernel

/-- 2.3. -/
theorem test_sub_bytes :
    after (exec .subBytes { State.reset with block := block sample }) (·.block) =
      some (block 0x638293c31bfc33f5c4eeacea4bc12816) := by decide +kernel
theorem test_inv_sub_bytes :
    after (exec .invSubBytes { State.reset with block := block sample }) (·.block) =
      some (block 0x52e3946686edd30297f962fe27c9997d) := by decide +kernel
theorem test_shift_rows :
    after (exec .shiftRows { State.reset with block := block sample }) (·.block) =
      some (block 0x0055aaff4499ee3388dd2277cc1166bb) := by decide +kernel
theorem test_inv_shift_rows :
    after (exec .invShiftRows { State.reset with block := block sample }) (·.block) =
      some (block 0x00ddaa774411eebb885522ffcc996633) := by decide +kernel
theorem test_mix_columns :
    after (exec .mixColumns { State.reset with block := block 0xdb135345f20a225c01010101c6c6c6c6 }) (·.block) =
      some (block 0x8e4da1bc9fdc589d01010101c6c6c6c6) := by decide +kernel
theorem test_inv_mix_columns :
    after (exec .invMixColumns { State.reset with block := block 0xdb135345f20a225c01010101c6c6c6c6 }) (·.block) =
      some (block 0x32a41d55aec3698201010101c6c6c6c6) := by decide +kernel
theorem test_add_round_key :
    after (exec (.addRoundKey 10) { (keyed 16 key0).expand with block := block sample }) (·.block) =
      some (block 0xd005db9b8dbb43fe69a6a6737abee259) := by decide +kernel
theorem test_add_round_key_without_schedule :
    after (exec (.addRoundKey 3) State.reset) (·.statusWord) = some 0x00000906 := by decide +kernel

/-- V1 and V3. -/
theorem test_enc_block :
    after (exec .encBlock { keyed 16 iv0 with block := block sample }) (fun t => (t.block, t.statusWord)) =
      some (block 0x69c4e0d86a7b0430d8cdb78070b4c55a, 0x000A0012) := by decide +kernel
theorem test_dec_block :
    after (exec .decBlock { keyed 32 0x000102030405060708090a0b0c0d0e0f101112131415161718191a1b1c1d1e1f with
      block := block 0x8ea2b7ca516745bfeafc49904b496089 }) (·.block) = some (block sample) := by decide +kernel

/-- 2.5, the 20-byte row. -/
theorem test_ecb_enc_unaligned :
    outOf (exec .ecbEnc (withMessage (keyed 16 key0) 20 0)) = some (0, 0, 0x00000206) := by decide +kernel

/-- 2.5, the ciphertext of the empty message. -/
theorem test_cbc_dec_empty :
    outOf (exec .cbcDec (withMessage (withIv (keyed 16 key0) iv0) 16 0xc84af0b613435d5d9182801a9bd9320b)) =
      some (0, 0, 0x000A0012) := by decide +kernel

/-- 2.6, the one-byte row, and the first bytes of the CFB and OFB rows. -/
theorem test_ctr_enc :
    outOf (exec .ctrEnc (withMessage { keyed 16 key0 with
      nonceLen := 16, nonce := block 0xf0f1f2f3f4f5f6f7f8f9fafbfcfdfeff } 1 0)) =
      some (0xEC, 1, 0x000A0012) := by decide +kernel
theorem test_cfb_dec :
    outOf (exec .cfbDec (withMessage (withIv (keyed 16 key0) iv0) 16 0x3b3fd92eb72dad20333449f8e83cfb4a)) =
      some (block0, 16, 0x000A0012) := by decide +kernel
theorem test_ofb_enc :
    outOf (exec .ofbEnc (withMessage (withIv (keyed 16 key0) iv0) 3 0x6bc1be)) =
      some (0x3b3fd9, 3, 0x000A0012) := by decide +kernel

/-- 2.7: the first block of the RAW row. -/
theorem test_xts_dec_raw :
    outOf (exec .xtsDec (withMessage { keyed 16 key0 with
      tweakLen := 16, tweak := block iv0, config := { Config.default with xtsBase := .raw } } 16
      0x7648a9af851cb441c6e084901ee41772)) = some (block0, 16, 0x000A0012) := by decide +kernel
theorem test_xts_double :
    xtsDouble (block 0x000000000000000000000000000000ff) = block 0x870000000000000000000000000000fe := by
  decide +kernel

/-- 2.8, test case 1. -/
theorem test_gcm_enc :
    after (exec .gcmEnc { keyed 16 0 with ivLen := 12 }) (fun t => (t.tag, t.statusWord)) =
      some (block 0x58e2fccefa7e3061367f1d57a4e7455a, 0x000A0012) := by decide +kernel

/-- 2.9. -/
theorem test_ghash :
    after (exec .ghash (withMessage (keyed 16 0) 16 0x0388dace60b6a392f328c2b971b2fe78)) (·.tag) =
      some (block 0x5e2ec746917062882c85b0685353deb7) := by decide +kernel

/-- 2.10, the empty key and message. -/
theorem test_hmac :
    outOf (exec .hmacSha256 State.reset) =
      some (0xb613679a0814d9ec772f95d778c35fc5ff1697c493715653c6c712144292c5ad, 32, 0x00000002) := by decide +kernel

/-- 2.11: `password`, `salt`, one iteration, one byte. -/
theorem test_pbkdf2 :
    outOf (exec .pbkdf2 (withAux (withMessage { State.reset with iter := 1, dkLen := 1 } 4 0x73616c74) 8
      0x70617373776f7264)) = some (0x12, 1, 0x00000002) := by decide +kernel
theorem test_pbkdf2_too_long :
    outOf (exec .pbkdf2 (withMessage { State.reset with iter := 1, dkLen := 4113 } 4 0)) = some (0, 0, 0x00000A06) := by
  decide +kernel

/-- R375: a message byte that holds no value; R341: MSG_LEN above N_IN wins over the missing IV. -/
theorem test_unwritten_byte :
    after (exec .ecbEnc { keyed 16 key0 with msgLen := 16 }) (·.status) = none := by decide +kernel
theorem test_order_of_checks :
    reportedError .cbcEnc { keyed 16 key0 with msgLen := 4097 } = some .invalidParameter ∧
      reportedError .cbcEnc { State.reset with keyLen := 20 } = some .invalidKeyLength := by decide

/-! ### Witnesses: for each obligation with hypotheses, a state and operands that meet them -/

/-- Every operand set: a 16-byte key, IV, nonce and tweak of zeros, a message of 16 zero bytes, one auxiliary byte, one
iteration, a 20-byte derived key. -/
def loaded : State :=
  { State.reset with
    keyLen := 16, ivLen := 16, nonceLen := 16, tweakLen := 16, msgLen := 16, auxLen := 1, iter := 1, dkLen := 20
    mem := Memory.writeFrom (Memory.writeFrom [] 0x2000 (zeros 16)) 0x4000 [1] }

/-- `loaded` with an empty message. -/
def emptied : State := { loaded with msgLen := 0 }

theorem loaded_key : loaded.KeyLegal := .inl rfl

theorem loaded_message : loaded.HasMessage (zeros 16) :=
  ⟨rfl, by decide, (State.holds_of_bufRead (n := 16) rfl).2⟩

theorem loaded_aux : loaded.HasAux [1] := ⟨rfl, by decide, (State.holds_of_bufRead (n := 1) rfl).2⟩

theorem emptied_message : emptied.HasMessage [] := ⟨rfl, by decide, fun k h => by simp at h⟩

/-- The longest message, N_IN bytes, none of which holds a value: the length check passes. -/
theorem witness_longest_message : ({ loaded with msgLen := 4096 } : State).msgLen.toNat ≤ State.reset.config.nIn := by
  decide

theorem reset_inv : State.reset.Inv :=
  ⟨by decide, List.Pairwise.nil, by simp [State.reset, State.resetWith], ⟨rfl, rfl⟩, Nat.zero_le _,
    by simp [State.reset, State.resetWith], by simp [State.reset, State.resetWith, Status.reset],
    by simp [State.reset, State.resetWith, Status.reset], by simp [State.reset, State.resetWith, Status.reset]⟩

/-- A state with a key of each legal length, and its schedule. -/
theorem witness_KeyExpandCompletes :
    (keyed 16 0).KeyLegal ∧ (keyed 24 0).KeyLegal ∧ (keyed 32 0).KeyLegal ∧ (0 < (keyed 16 0).keyLen.toNat) ∧
      (16 / 4 ≤ 4 ∧ 4 < 4 * (16 / 4 + 7)) ∧ (32 / 4 ≤ 59 ∧ 59 < 4 * (32 / 4 + 7)) ∧
      (16 * (16 / 4 + 7) ≤ 176 ∧ 176 < 240) ∧ (16 * (24 / 4 + 7) ≤ 239 ∧ 239 < 240) :=
  ⟨.inl rfl, .inr (.inl rfl), .inr (.inr rfl), by decide, by decide, by decide, by decide, by decide⟩

theorem witness_DecodeAndEncodeAgree :
    (Instr.addRoundKey 0).wellFormed = true ∧ (Instr.addRoundKey 15).wellFormed = true ∧
      Instr.pbkdf2.wellFormed = true ∧ decode 0xF36 = .ok (.addRoundKey 15) := by decide

theorem witness_DecodeBytesReadsOneWord : Instr.gcmDec.wellFormed = true := rfl

theorem witness_ResetLeavesResetValues :
    ({ loaded with hostQueue := [.reset] } : State).hostQueue = .reset :: [] ∧
      (∀ l i, loaded.latch = some l → decode l.word ≠ .ok i) ∧
      (State.reset.accept 0x10).latch = some ⟨0x10, false⟩ ∧ decode 0x10 = .ok .gfMul ∧
      ∃ u, exec .gfMul { State.reset.accept 0x10 with hostQueue := [] } = .next u :=
  ⟨rfl, fun _ _ h => (nomatch (show (none : Option Latch) = some _ from h)), rfl, rfl, _, rfl⟩

theorem witness_StepKeepsInvariant :
    State.reset.Inv ∧ step State.reset = .next State.reset := ⟨reset_inv, rfl⟩

/-- The same for a step that runs a command, from a legal state with the command in the latch. -/
theorem witness_StepKeepsInvariant_command :
    (State.reset.accept 0x10).Inv ∧ ∃ t, step (State.reset.accept 0x10) = .next t := by
  refine ⟨⟨by decide, List.Pairwise.nil, by simp [State.reset, State.resetWith, State.accept], ⟨rfl, rfl⟩,
    Nat.zero_le _, ?_, ?_, ?_, ?_⟩, _, rfl⟩ <;>
    simp [State.accept, Status.accept]

theorem witness_StepRunsTheLatchedCommand :
    (State.reset.accept 0x10).latch = some ⟨0x10, false⟩ ∧ decode 0x10 = .ok .gfMul ∧
      (State.reset.accept 0x10).hostQueue = [] ∧
      ({ State.reset.accept 0x10 with hostQueue := [.coreTurn, .wait 0] } : State).hostQueue =
        .coreTurn :: [.wait 0] := ⟨rfl, rfl, rfl, rfl⟩

theorem witness_IllegalWordCompletesUnsupported :
    (State.reset.accept 0x37).latch = some ⟨0x37, false⟩ ∧ (∀ i, decode 0x37 ≠ .ok i) ∧
      (State.reset.accept 0x37).hostQueue = [] ∧
      ({ State.reset.accept 0x37 with hostQueue := [.coreTurn] } : State).hostQueue = .coreTurn :: [] :=
  ⟨rfl, fun i h => (nomatch (show (.error .unassignedOpcode : Except IllegalWord Instr) = .ok i from h)), rfl, rfl⟩

theorem witness_StepWithoutACommand :
    State.reset.latch = none ∧ State.reset.hostQueue = [] ∧
      ({ loaded with hostQueue := [.bus (.read 0x00C 4)] } : State).hostQueue = .bus (.read 0x00C 4) :: [] ∧
      ({ loaded with hostQueue := [.bus (.write 0x008 4 0x40)] } : State).hostQueue =
        .bus (.write 0x008 4 0x40) :: [] := ⟨rfl, rfl, rfl, rfl⟩

theorem witness_AcceptOfACommandWord : (State.reset.accept 0x10).busy = true ∧ State.reset.busy = false :=
  ⟨rfl, rfl⟩

theorem witness_CompletedCommandStatus :
    State.reset.status.err = false ∧ State.reset.status.errCode = .none ∧
      (∃ t, exec .gfMul State.reset = .next t) ∧ ∃ t, exec .encBlock State.reset = .next t := by
  have hc : firstError State.reset (checks .encBlock) = some .invalidKeyLength := by decide
  refine ⟨rfl, rfl, ⟨_, rfl⟩, ?_⟩
  rw [exec, execEncBlock, withChecks_of_error _ hc]
  exact ⟨_, rfl⟩

/-- A command that faults: its checks pass and byte 0 of IN holds no value. -/
theorem witness_CommandsFaultExactlyOnUnwrittenBytes :
    exec .hmacSha256 { loaded with mem := [(0x4000, 1)] } = .fault (.unwrittenBuffer .input 0) ∧
      exec .hmacSha256 { loaded with mem := [] } = .fault (.unwrittenBuffer .aux 0) ∧
      reportedError .hmacSha256 { loaded with mem := [] } = none ∧
      Instr.hmacSha256 ∈ inputCommands ∧ Instr.hmacSha256 ∈ auxCommands := by
  refine ⟨rfl, rfl, by decide, by decide, by decide⟩

/-- A state for each row of the table of checks. -/
theorem witness_FailedCheckReportsItsError :
    reportedError .encBlock State.reset = some .invalidKeyLength ∧
      reportedError (.addRoundKey 0) State.reset = some .noKeySchedule ∧
      reportedError (.addRoundKey 11) { State.reset with status := { Status.reset with keyValid := true, nr := 10 } } =
        some .invalidParameter ∧
      reportedError .ghash { loaded with msgLen := 4097 } = some .invalidParameter ∧
      reportedError .hmacSha256 { loaded with auxLen := 4097 } = some .invalidParameter ∧
      reportedError .pbkdf2 { loaded with iter := 0 } = some .invalidParameter ∧
      reportedError .pbkdf2 { loaded with dkLen := 4113 } = some .invalidParameter ∧
      reportedError .gcmEnc { loaded with ivLen := 0 } = some .missingIV ∧
      reportedError .gcmEnc { loaded with ivLen := 17 } = some .invalidHexInput ∧
      reportedError .ctrEnc { loaded with nonceLen := 0 } = some .missingNonce ∧
      reportedError .ctrEnc { loaded with nonceLen := 12 } = some .invalidHexInput ∧
      reportedError .xtsEnc { loaded with tweakLen := 0 } = some .missingTweak ∧
      reportedError .xtsEnc { loaded with tweakLen := 8 } = some .invalidHexInput ∧
      reportedError .cbcEnc { loaded with ivLen := 8 } = some .invalidHexInput ∧
      reportedError .ecbDec { loaded with msgLen := 20 } = some .invalidHexInput ∧
      reportedError .cbcDec { loaded with msgLen := 0 } = some .invalidHexInput ∧
      reportedError .pbkdf2 loaded = none ∧ reportedError .cbcDec loaded = none := by decide

/-- A command that completes, and an offset outside what it may store to, at each edge. -/
theorem witness_CommandsWriteOnlyTheirResults :
    (∃ t, exec .gfMul loaded = .next t) ∧ loaded.config.Legal ∧ Instr.gfMul ∉ outCommands ∧
      (∃ t, exec .pbkdf2 loaded = .next t) ∧ Instr.pbkdf2 ∉ keyCommands ∧ Instr.pbkdf2 ∉ tracingCommands ∧
      ((0x5FFF < 0x6000 ∨ 0x6000 + loaded.config.nOut ≤ 0x5FFF) ∧ (0x5FFF < 0x2000 ∨ 0x2010 ≤ 0x5FFF)) ∧
      ((0x2010 < 0x6000 ∨ 0x6000 + loaded.config.nOut ≤ 0x2010) ∧ (0x2010 < 0x2000 ∨ 0x2010 ≤ 0x2010)) ∧
      ((0x7010 < 0x6000 ∨ 0x6000 + loaded.config.nOut ≤ 0x7010) ∧ (0x7010 < 0x2000 ∨ 0x2010 ≤ 0x7010)) := by
  refine ⟨⟨_, rfl⟩, by decide, by decide, ?_, by decide, by decide, by decide, by decide, by decide⟩
  have hc : firstError loaded (checks .pbkdf2) = none := by decide
  have hg : loaded.generateSalt = loaded := State.generateSalt_of_ne (by decide)
  rw [exec, execPbkdf2, withChecks_of_pass _ hc, hg, State.bufRead_of_hasAux loaded_aux,
    State.bufRead_of_hasMessage loaded_message]
  exact ⟨_, rfl⟩

theorem witness_TraceEnableIsPureObservation :
    (∃ t, exec .gfMul { loaded with latch := some ⟨0x10, false⟩ } = .next t) ∧
      ∃ f, exec .hmacSha256 { loaded with mem := [], latch := some ⟨0x61, false⟩ } = .fault f := ⟨⟨_, rfl⟩, _, rfl⟩

theorem witness_BlockTraceRecords : 1 ≤ 1 ∧ 1 ≤ 10 ∧ 1 ≤ 14 := by decide

theorem witness_TraceRecordWords (r : TraceRecord) : ∃ w, r.words[0]? = some w := ⟨_, rfl⟩

theorem witness_GfCommandsComplete :
    State.reset.gfA = 0 ∧ ({ State.reset with gfA := 1 } : State).gfA ≠ 0 ∧
      ({ State.reset with gfA := 0xFF } : State).gfA ≠ 0 := by decide

theorem witness_KeyScheduleWordFunctions : 1 ≤ 1 ∧ 1 ≤ 9 := by decide

/-- A legal state with a schedule, and one without; the rounds 0, NR and NR + 1. -/
theorem witness_AddRoundKeyCompletes :
    State.reset.Inv ∧ State.reset.status.keyValid = false ∧ (keyed 16 0).expand.Inv ∧
      (keyed 16 0).expand.status.keyValid = true ∧ 0 ≤ (keyed 16 0).expand.status.nr.toNat ∧
      10 ≤ (keyed 16 0).expand.status.nr.toNat ∧ (keyed 16 0).expand.status.nr.toNat < 11 :=
  ⟨reset_inv, rfl,
    ⟨by decide, List.Pairwise.nil, by simp [State.expand, keyed, State.reset, State.resetWith],
      ⟨(keyed 16 0).keyBytes, by decide, rfl⟩, Nat.zero_le _, by simp [State.expand, keyed, State.reset, State.resetWith],
      by simp [State.expand, keyed, State.reset, State.resetWith, Status.reset, Status.expanded],
      by simp [State.expand, keyed, State.reset, State.resetWith, Status.reset, Status.expanded],
      by simp [State.expand, keyed, State.reset, State.resetWith, Status.reset, Status.expanded]⟩,
    rfl, Nat.zero_le _, by decide, by decide⟩

theorem witness_CipherFollowsTheRoundLoop : 1 ≤ 1 ∧ 1 ≤ 14 := by decide

theorem witness_DecryptInvertsEncrypt : 1 ≤ 10 ∧ 1 ≤ 12 ∧ 1 ≤ 14 := by decide

theorem witness_BlockCommandsComplete : loaded.KeyLegal := loaded_key

theorem witness_EcbCommandsComplete :
    loaded.KeyLegal ∧ loaded.HasMessage (zeros 16) ∧ (zeros 16).length % 16 = 0 ∧ 0 < (zeros 16).length / 16 ∧
      emptied.KeyLegal ∧ emptied.HasMessage [] ∧ ([] : Bytes).length % 16 = 0 :=
  ⟨loaded_key, loaded_message, rfl, by decide, loaded_key, emptied_message, rfl⟩

theorem witness_CbcEncCompletes :
    loaded.KeyLegal ∧ loaded.HasMessage (zeros 16) ∧ loaded.ivLen = 16 ∧
      zeros 16 ++ List.replicate 16 16 = zeros 16 ++
        List.replicate (16 - (zeros 16).length % 16) (BitVec.ofNat 8 (16 - (zeros 16).length % 16)) ∧
      emptied.HasMessage [] ∧
      List.replicate 16 16 = ([] : Bytes) ++
        List.replicate (16 - ([] : Bytes).length % 16) (BitVec.ofNat 8 (16 - ([] : Bytes).length % 16)) :=
  ⟨loaded_key, loaded_message, rfl, rfl, emptied_message, rfl⟩

/-- `loaded` with another IV and another TAG. -/
def variant (iv tag : Block) : State := { loaded with iv := iv, tag := tag }

theorem variant_key (iv tag : Block) : (variant iv tag).KeyLegal := loaded_key

theorem variant_message (iv tag : Block) : (variant iv tag).HasMessage (zeros 16) := loaded_message

theorem variant_aux (iv tag : Block) : (variant iv tag).HasAux [1] := loaded_aux

/-- The cipher does not look at IV or TAG. -/
theorem variant_D (iv tag : Block) : (variant iv tag).expand.D = loaded.expand.D := rfl

/-- The tag of a message does not look at TAG. -/
theorem variant_gcmTag (tag : Block) (a c : Bytes) :
    gcmTag (variant zeroBlock tag).expand.E (variant zeroBlock tag).expand.j0 a c =
      gcmTag (variant zeroBlock zeroBlock).expand.E (variant zeroBlock zeroBlock).expand.j0 a c := rfl

/-- With the ciphertext a block of zeros and the IV its decryption XORed with `b`, the decrypted block is `b`. -/
theorem variant_plain (b tag : Block) :
    CbcPlain (variant (xorV (loaded.expand.D zeroBlock) b) tag).expand.D
      (variant (xorV (loaded.expand.D zeroBlock) b) tag).iv (zeros 16) (bytesOf b) := by
  refine ⟨by simp [zeros], fun j hj => ?_⟩
  have h0 : j = 0 := by have : (zeros 16).length / 16 = 1 := rfl; omega
  subst h0
  have hb : blockAt (zeros 16) 0 = zeroBlock := by decide
  rw [if_pos rfl, hb, variant_D]
  show _ = xorV _ (xorV (loaded.expand.D zeroBlock) b)
  generalize loaded.expand.D zeroBlock = d
  refine Vector.ext fun k hk => ?_
  simp [blockAt]

/-- A ciphertext that decrypts to sixteen bytes 16. -/
def padded : State := variant (xorV (loaded.expand.D zeroBlock) (ofBytes 16 (List.replicate 16 16))) zeroBlock

theorem witness_CbcDecCompletes :
    padded.KeyLegal ∧ padded.HasMessage (zeros 16) ∧ padded.ivLen = 16 ∧ (zeros 16).length % 16 = 0 ∧
      (zeros 16).length ≠ 0 ∧
      CbcPlain padded.expand.D padded.iv (zeros 16) (bytesOf (ofBytes 16 (List.replicate 16 16))) ∧ 1 ≤ 16 ∧
      16 ≤ 16 ∧ bytesOf (ofBytes 16 (List.replicate 16 16)) = ([] : Bytes) ++ List.replicate 16 (BitVec.ofNat 8 16) :=
  ⟨variant_key _ _, variant_message _ _, rfl, rfl, by decide, variant_plain _ _, by decide, by decide, by decide⟩

/-- A ciphertext that decrypts to sixteen bytes 0, which are no padding. -/
def unpadded : State := variant (xorV (loaded.expand.D zeroBlock) zeroBlock) zeroBlock

theorem witness_CbcDecPaddingError :
    unpadded.mem.wf ∧ unpadded.KeyLegal ∧ unpadded.HasMessage (zeros 16) ∧ unpadded.ivLen = 16 ∧
      (zeros 16).length % 16 = 0 ∧ (zeros 16).length ≠ 0 ∧
      CbcPlain unpadded.expand.D unpadded.iv (zeros 16) (bytesOf zeroBlock) ∧
      ∀ out p, 1 ≤ p → p ≤ 16 → bytesOf zeroBlock ≠ out ++ List.replicate p (BitVec.ofNat 8 p) := by
  refine ⟨by decide, variant_key _ _, variant_message _ _, rfl, rfl, by decide, variant_plain _ _,
    fun out p h1 h2 h => ?_⟩
  have hu := (unpad_eq_some_iff (q := bytesOf zeroBlock) out (by decide)).2 ⟨p, h1, h2, h⟩
  rw [show unpad (bytesOf zeroBlock) = none from by decide] at hu
  cases hu

theorem witness_CtrCommandsComplete :
    loaded.KeyLegal ∧ loaded.HasMessage (zeros 16) ∧ loaded.nonceLen = 16 ∧ emptied.HasMessage [] :=
  ⟨loaded_key, loaded_message, rfl, emptied_message⟩

theorem witness_CfbAndOfbCommandsComplete :
    loaded.KeyLegal ∧ loaded.HasMessage (zeros 16) ∧ loaded.ivLen = 16 ∧ emptied.HasMessage [] :=
  ⟨loaded_key, loaded_message, rfl, emptied_message⟩

theorem witness_round_trips : ∃ E D : Block → Block, ∀ b, D (E b) = b := ⟨id, id, fun _ => rfl⟩

theorem witness_XtsCommandsComplete :
    loaded.KeyLegal ∧ loaded.HasMessage (zeros 16) ∧ loaded.tweakLen = 16 ∧ (zeros 16).length % 16 = 0 ∧
      emptied.HasMessage [] :=
  ⟨loaded_key, loaded_message, rfl, rfl, emptied_message⟩

theorem witness_GcmEncCompletes :
    loaded.KeyLegal ∧ loaded.HasMessage (zeros 16) ∧ loaded.HasAux [1] ∧ loaded.ivLen ≠ 0 ∧ loaded.ivLen.toNat ≤ 16 ∧
      ({ loaded with ivLen := 12 } : State).ivLen = 12 ∧ loaded.ivLen ≠ 12 ∧
      ({ loaded with ivLen := 1 } : State).ivLen ≠ 0 :=
  ⟨loaded_key, loaded_message, loaded_aux, by decide, by decide, rfl, by decide, by decide⟩

/-- The tag of the message of `loaded`. -/
def messageTag : Block :=
  gcmTag (variant zeroBlock zeroBlock).expand.E (variant zeroBlock zeroBlock).expand.j0 [1] (zeros 16)

/-- With the message's tag in TAG. -/
theorem witness_GcmDecCompletes :
    (variant zeroBlock messageTag).KeyLegal ∧ (variant zeroBlock messageTag).HasMessage (zeros 16) ∧
      (variant zeroBlock messageTag).HasAux [1] ∧ (variant zeroBlock messageTag).ivLen ≠ 0 ∧
      (variant zeroBlock messageTag).ivLen.toNat ≤ 16 ∧
      (variant zeroBlock messageTag).tag =
        gcmTag (variant zeroBlock messageTag).expand.E (variant zeroBlock messageTag).expand.j0 [1] (zeros 16) :=
  ⟨variant_key _ _, variant_message _ _, variant_aux _ _, by decide, by decide, (variant_gcmTag _ _ _).symm⟩

/-- The message's tag with its last bit flipped. -/
def wrongTag : Block := xorV messageTag (ofBytes 16 (zeros 15 ++ [1]))

theorem wrongTag_ne : wrongTag ≠ messageTag := by
  unfold wrongTag
  generalize messageTag = g
  intro h
  have := congrArg (fun v : Block => v[15]) h
  simp [zeros, byteAt] at this

theorem witness_GcmDecAuthenticationFailed :
    (variant zeroBlock wrongTag).KeyLegal ∧ (variant zeroBlock wrongTag).HasMessage (zeros 16) ∧
      (variant zeroBlock wrongTag).HasAux [1] ∧ (variant zeroBlock wrongTag).ivLen ≠ 0 ∧
      (variant zeroBlock wrongTag).ivLen.toNat ≤ 16 ∧
      (variant zeroBlock wrongTag).tag ≠
        gcmTag (variant zeroBlock wrongTag).expand.E (variant zeroBlock wrongTag).expand.j0 [1] (zeros 16) :=
  ⟨variant_key _ _, variant_message _ _, variant_aux _ _, by decide, by decide, by
    rw [variant_gcmTag]; exact wrongTag_ne⟩

theorem witness_GhashCompletes :
    loaded.KeyLegal ∧ loaded.HasMessage (zeros 16) ∧ emptied.HasMessage [] := ⟨loaded_key, loaded_message, emptied_message⟩

theorem witness_ProductAndGhashLaws : (zeros 16).length % 16 = 0 ∧ ([] : Bytes).length % 16 = 0 := ⟨rfl, rfl⟩

/-- Keys of 64 and 65 bytes take the two branches. -/
theorem witness_HmacCompletes :
    loaded.HasMessage (zeros 16) ∧ loaded.HasAux [1] ∧ ¬ (zeros 64).length > 64 ∧ (zeros 65).length > 64 :=
  ⟨loaded_message, loaded_aux, by decide, by decide⟩

theorem witness_Pbkdf2Completes :
    loaded.HasMessage (zeros 16) ∧ loaded.HasAux [1] ∧ loaded.msgLen ≠ 0 ∧ loaded.iter ≠ 0 ∧ loaded.dkLen ≠ 0 ∧
      loaded.dkLen.toNat ≤ loaded.config.nOut ∧
      ({ loaded with dkLen := 4112 } : State).dkLen.toNat ≤ loaded.config.nOut :=
  ⟨loaded_message, loaded_aux, by decide, by decide, by decide, by decide, by decide⟩

theorem witness_Pbkdf2GeneratesItsSalt :
    emptied.HasAux [1] ∧ emptied.msgLen = 0 ∧ emptied.iter ≠ 0 ∧ emptied.dkLen ≠ 0 ∧
      emptied.dkLen.toNat ≤ emptied.config.nOut :=
  ⟨loaded_aux, rfl, by decide, by decide, by decide⟩

/-- Idle states; a read whose bytes hold values, and a byte of IN that holds none. -/
theorem witness_ReadsHaveNoSideEffect :
    State.reset.busy = false ∧ (∀ k < 4, 0x40 ≤ 0x1EC + k → State.reset.byteAtOffset (0x1EC + k) ≠ none) ∧
      State.reset.config.Legal ∧ ¬ Reserved State.reset.config 0x2FFF ∧ State.reset.byteAtOffset 0x2FFF = none ∧
      ¬ Reserved State.reset.config 0x700F ∧ State.reset.byteAtOffset 0x700F = none := by
  refine ⟨rfl, by decide, by decide, ?_, by decide, ?_, by decide⟩ <;>
    simp [Reserved, State.reset, State.resetWith, Config.default]

/-- Each kind of refused access, the reserved ranges at both ends. -/
theorem witness_RefusedAccesses :
    State.reset.config.Legal ∧ (3 ≠ 1 ∧ 3 ≠ 2 ∧ 3 ≠ 4) ∧ 0x2001 % 2 ≠ 0 ∧ (0x3C < 0x40 ∧ 2 ≠ 4) ∧
      ∀ a ∈ [0x00B0, 0x00FF, 0x01F0, 0x1FFF, 0x3000, 0x3FFF, 0x5000, 0x5FFF, 0x7010, 0x7FFF],
        Reserved State.reset.config a := by
  refine ⟨by decide, by decide, by decide, by decide, ?_⟩
  simp [Reserved, State.reset, State.resetWith, Config.default]

/-- Words that hold values in IDLE: RK and TAG, their last words, and the byte of AUX that `loaded` holds. -/
theorem witness_WriteThenRead_read :
    loaded.config.Legal ∧ loaded.busy = false ∧
      (∀ a ∈ [0x0040, 0x00AC, 0x0100, 0x01EC], a % 4 = 0 ∧ ∀ k < 4, loaded.byteAtOffset (a + k) = some 0) ∧
      ∀ k < 1, loaded.byteAtOffset (0x4000 + k) = some 1 := by decide

/-- The first and the last word of each writable region. -/
theorem witness_WriteThenRead :
    State.reset.config.Legal ∧ State.reset.busy = false ∧
      ∀ a ∈ [0x0040, 0x00AC, 0x2000, 0x2FFC, 0x4000, 0x4FFC], a % 4 = 0 ∧ Writable State.reset.config a := by
  refine ⟨by decide, rfl, ?_⟩
  simp [Writable, State.reset, State.resetWith, Config.default]

theorem witness_idle : State.reset.busy = false := rfl

theorem witness_ReadOnlyWritesChangeNothing :
    State.reset.config.Legal ∧
      ∀ a ∈ [0x0100, 0x01EC, 0x6000, 0x700C], a % 4 = 0 ∧ ReadOnly State.reset.config a := by
  refine ⟨by decide, ?_⟩
  simp [ReadOnly, State.reset, State.resetWith, Config.default]

theorem witness_WritesWhileBusy :
    (State.reset.accept 0x20).busy = true ∧ (State.reset.accept 0x20).config.Legal ∧
      Writable (State.reset.accept 0x20).config 0x40 := by
  refine ⟨rfl, by decide, ?_⟩
  simp [Writable]

/-- PBKDF2 running: its results, and what it does not write, at the edges. -/
theorem witness_ReadsWhileBusy :
    (loaded.accept 0x62).latch = some ⟨0x62, false⟩ ∧ decode 0x62 = .ok .pbkdf2 ∧ (loaded.accept 0x62).config.Legal ∧
      ¬ ResultRegister .pbkdf2 .iter ∧ ResultOffset .pbkdf2 0x2000 ∧ ResultOffset .pbkdf2 0x200F ∧
      ¬ ResultOffset .pbkdf2 0x4000 ∧ (loaded.accept 0x62).byteAtOffset 0x4000 = some 1 ∧
      ResultOffset .pbkdf2 0x6000 ∧ ResultOffset .pbkdf2 0x700F ∧
      ¬ Reserved (loaded.accept 0x62).config 0x2000 ∧ ¬ Reserved (loaded.accept 0x62).config 0x700F := by
  refine ⟨rfl, rfl, by decide, ?_, ?_, ?_, ?_, by decide, ?_, ?_, ?_, ?_⟩ <;>
    simp [ResultRegister, ResultOffset, Reserved, outCommands, outCommands, State.accept, loaded, State.reset,
      State.resetWith, Config.default]

/-- The result registers: MSG_LEN and OUT_LEN under PBKDF2, OUT_LEN under ECB_ENC, GF_R under GF_MUL; the registers
around them are not. -/
theorem witness_ReadsWhileBusy_registers :
    ResultRegister .pbkdf2 (ctrlRegAt 0x020) ∧ ResultRegister .pbkdf2 (ctrlRegAt 0x028) ∧
      ¬ ResultRegister .pbkdf2 (ctrlRegAt 0x024) ∧ ¬ ResultRegister .pbkdf2 (ctrlRegAt 0x02C) ∧
      ResultRegister .ecbEnc (ctrlRegAt 0x028) ∧ ¬ ResultRegister .ecbEnc (ctrlRegAt 0x020) ∧
      ResultRegister .gfMul .gfR ∧ ¬ ResultRegister .gfMul (ctrlRegAt 0x038) ∧
      ¬ ResultRegister .pbkdf2 (ctrlRegAt 0x000) ∧ ¬ ResultRegister .pbkdf2 (ctrlRegAt 0x03C) := by
  simp [ResultRegister, ctrlRegAt, outCommands, modeCommands, ecbCommands, gfCommands]

/-- ENC_BLOCK running: RK and STATE are free, TAG is not. -/
theorem witness_ReadsWhileBusy_block :
    ResultOffset .encBlock 0x0090 ∧ ResultOffset .encBlock 0x009F ∧ ResultOffset .encBlock 0x0100 ∧
      ResultOffset .encBlock 0x01EF ∧ ¬ ResultOffset .encBlock 0x00A0 ∧
      (loaded.accept 0x40).byteAtOffset 0x00A0 = some 0 := by
  refine ⟨?_, ?_, ?_, ?_, ?_, by decide⟩ <;>
    simp [ResultOffset, blockCommands, keyCommands, isRoundCommand]

theorem witness_StatusWritesAndIrq :
    (0x2 : Word).getLsbD 1 = true ∧ State.reset.busy = false ∧ (0x1 : Word).getLsbD 1 = false ∧
      ∃ t, exec .gfMul State.reset = .next t := ⟨by decide, rfl, by decide, _, rfl⟩

theorem witness_WaitEnds :
    ({ State.reset with hostQueue := [.wait 0] } : State).hostQueue = .wait 0 :: [] ∧
      ({ State.reset with hostQueue := [.wait 3] } : State).busy = false ∧
      ({ State.reset.accept 0x10 with hostQueue := [.wait 3] } : State).busy = true := ⟨rfl, rfl, rfl⟩

end Sys2Proof.Tests
end

section
/-! PROOF. Every step keeps a legal state legal (O7). Each shared operation keeps `State.Inv`, once each; the commands
follow by cases on `Effect`, the bus writes by cases on `WriteEffect`, and a step by the event it takes. -/

namespace Sys2Proof.Machine

/-! ### Memory -/

/-- A byte that holds a value after a string was stored is one of the string's or held one before. -/
theorem Memory.mem_writeFrom {m : Memory} {a : Nat} {vs : Bytes} {c : Host.Cell} (h : c ∈ m.writeFrom a vs) :
    (∃ k < vs.length, c.1 = a + k) ∨ c ∈ m := by
  induction vs generalizing m a with
  | nil => exact .inr h
  | cons v vs ih =>
    rcases ih h with ⟨k, hk, hc⟩ | hc
    · exact .inl ⟨k + 1, by simpa using hk, by omega⟩
    · rcases Memory.mem_set hc with rfl | hc
      · exact .inl ⟨0, by simp, rfl⟩
      · exact .inr hc

theorem Memory.mem_eraseFrom {m : Memory} {a n : Nat} {c : Host.Cell} (h : c ∈ m.eraseFrom a n) : c ∈ m := by
  induction n generalizing m a with
  | zero => exact h
  | succ n ih => exact Memory.mem_erase (ih h)

/-! ### The key schedule -/

theorem State.length_keyBytes {s : State} (hk : s.KeyLegal) : s.keyBytes.length = s.keyLen.toNat := by
  rcases hk with hk | hk | hk <;> simp [State.keyBytes, hk]

/-- An expansion under a legal KEY_LEN leaves RK, KEY_VALID and NR in agreement (R162, R168). -/
theorem scheduleLegal_expand {s : State} (hk : s.KeyLegal) :
    ScheduleLegal s.expand.status.keyValid s.expand.status.nr s.expand.rk := by
  refine (if_pos rfl).mpr ⟨s.keyBytes, ?_, rfl⟩
  rcases hk with h | h | h <;>
    simp [State.length_keyBytes (s := s) (by simp [State.KeyLegal, h]), h, roundsOf]

/-! ### What the shared operations keep -/

namespace State.Inv

variable {s : State}

theorem expand (h : s.Inv) (hk : s.KeyLegal) : s.expand.Inv :=
  { h with schedule := scheduleLegal_expand hk }

theorem emit (h : s.Inv) (rs : List TraceRecord) : (s.emit rs).Inv := { h with }

theorem bufWrite (h : s.Inv) {b : Buffer} {v : Bytes} (hv : v.length ≤ b.size s.config) : (s.bufWrite b v).Inv :=
  { h with
    memory := Memory.wf_writeFrom h.memory _ _
    buffers := fun c hc => by
      rcases Memory.mem_writeFrom hc with ⟨k, hk, hc⟩ | hc
      · exact ⟨b, k, Nat.lt_of_lt_of_le hk hv, hc⟩
      · exact h.buffers c hc }

theorem bufVoid (h : s.Inv) (b : Buffer) (n : Nat) : (s.bufVoid b n).Inv :=
  { h with
    memory := Memory.wf_eraseFrom h.memory _ _
    buffers := fun c hc => h.buffers c (Memory.mem_eraseFrom hc) }

theorem setOutLen (h : s.Inv) {n : Nat} (hn : n ≤ s.config.nOut) : (s.setOutLen n).Inv :=
  { h with outLen := by simpa using (Nat.mod_le n _).trans hn }

theorem complete (h : s.Inv) : s.complete.Inv :=
  { h with latched := fun _ hl => nomatch hl }

/-- A completion whose result fits in OUT (R40, R335). -/
theorem completeOut (h : s.Inv) {out : Bytes} (ho : out.length ≤ s.config.nOut) : (s.completeOut out).Inv :=
  ((h.bufWrite (b := .output) ho).setOutLen ho).complete

/-- An error ends a command while TAG_OK and SALT_GEN are as accept left them (R334, R335). -/
theorem raise (h : s.Inv) {l : Latch} (hl : s.latch = some l) {e : ErrCode} (he : e ≠ .none) : (s.raise e).Inv := by
  obtain ⟨-, -, -, -, htag, hsalt⟩ := h.latched l hl
  exact { h with
    latched := fun _ hl => nomatch hl
    error := fun _ => he
    tagOk := fun ht => absurd (htag.symm.trans ht) (by decide)
    saltGen := fun hs => absurd (hsalt.symm.trans hs) (by decide) }

theorem raiseOut (h : s.Inv) {l : Latch} (hl : s.latch = some l) {e : ErrCode} (he : e ≠ .none) :
    (s.raiseOut e).Inv :=
  (h.setOutLen (Nat.zero_le _)).raise hl he

theorem accept (h : s.Inv) (w : Word) : (s.accept w).Inv :=
  { h with
    latched := by rintro l ⟨rfl⟩; exact ⟨rfl, rfl, rfl, rfl, rfl, rfl⟩
    error := fun he => nomatch he
    tagOk := fun ht => nomatch ht
    saltGen := fun hs => nomatch hs }

theorem writeOneToClear (h : s.Inv) (v : Word) : State.Inv { s with status := s.status.writeOneToClear v } :=
  { h with
    latched := fun l hl => by
      obtain ⟨hw, hdone, herr, hrest⟩ := h.latched l hl
      exact ⟨hw, by simp [hdone], by simp [herr], hrest⟩
    error := fun he => h.error (Bool.and_eq_true_iff.1 he).1 }

/-! ### The commands -/

/-- OUT holds a padded message of the longest legal length (R9). -/
theorem length_le_nOut (h : s.Inv) {out : Bytes} (hm : s.msgLen.toNat ≤ s.config.nIn)
    (ho : out.length ≤ s.msgLen.toNat + 16) : out.length ≤ s.config.nOut := by
  obtain ⟨-, -, hout, -⟩ := h.config
  omega

/-- A GCM_DEC that completes may set TAG_OK (R34). -/
theorem completeOut_tagOk (h : s.Inv) (hd : decode s.lastCmd = .ok .gcmDec) (hc : s.status.errCode = .none)
    {out : Bytes} (ho : out.length ≤ s.config.nOut) :
    (State.completeOut { s with status := { s.status with tagOk := true } } out).Inv :=
  { h.completeOut ho with
    latched := fun _ hl => nomatch hl
    tagOk := fun _ => ⟨hd, hc⟩ }

/-- A PBKDF2 that completes may set SALT_GEN, its salt lying in IN (R34, R311). -/
theorem completeOut_salted (h : s.Inv) (hd : decode s.lastCmd = .ok .pbkdf2) (hc : s.status.errCode = .none)
    {salt out : Bytes} (hs : salt.length ≤ s.config.nIn) (ho : out.length ≤ s.config.nOut) :
    ((s.salted salt).completeOut out).Inv :=
  { (h.bufWrite (b := .input) hs).completeOut ho with
    latched := fun _ hl => nomatch hl
    saltGen := fun _ => ⟨hd, hc⟩ }

/-- PBKDF2 completes with a supplied salt or a generated one (R312). -/
theorem completeOut_generateSalt (h : s.Inv) (hd : decode s.lastCmd = .ok .pbkdf2) (hc : s.status.errCode = .none)
    {out : Bytes} (ho : out.length ≤ s.config.nOut) : (s.generateSalt.completeOut out).Inv := by
  obtain ⟨⟨hin, -⟩, -⟩ := h.config
  unfold State.generateSalt
  split
  · exact h.completeOut_salted hd hc (by simpa [State.draw16] using hin) ho
  · exact h.completeOut ho

/-- What a latched command does keeps a legal state legal. -/
theorem effect (h : s.Inv) {l : Latch} {i : Instr} {t : State} (hl : s.latch = some l) (hd : decode l.word = .ok i)
    (he : Effect s i t) : t.Inv := by
  obtain ⟨hw, -, -, hcode, -, -⟩ := h.latched l hl
  rw [hw] at hd
  cases he with
  | checkFailed _ hne =>
    split
    · exact h.raiseOut hl hne
    · exact h.raise hl hne
  | gf v => exact { h.complete with }
  | keyExpanded hk => exact (h.expand hk).complete
  | round b => exact { h.complete with }
  | block rs b _ hk => exact { ((h.expand hk).emit rs).complete with }
  | mode rs out _ _ hk hm ho => exact ((h.expand hk).emit rs).completeOut (h.length_le_nOut hm ho)
  | paddingError rs hk => exact (((h.expand hk).emit rs).bufVoid _ _).raiseOut hl (by decide)
  | gcmEncrypted out tag hk hm ho => exact { (h.expand hk).completeOut (h.length_le_nOut hm (by omega)) with }
  | gcmDecrypted out hk hm ho =>
    exact (h.expand hk).completeOut_tagOk hd hcode (h.length_le_nOut hm (by omega))
  | authenticationFailed hk => exact (h.expand hk).raiseOut hl (by decide)
  | ghash tag hk => exact { (h.expand hk).complete with }
  | hmac out ho =>
    obtain ⟨⟨hin, -⟩, -, hout, -⟩ := h.config
    exact h.completeOut (by omega)
  | pbkdf2 out ho hdk => exact h.completeOut_generateSalt hd hcode (by omega)

/-- The sequencer's turn keeps a legal state legal, idle or not. -/
theorem coreTurn (h : s.Inv) {t : State} (ht : coreTurn s = .next t) : t.Inv := by
  cases hl : s.latch with
  | none => rw [coreTurn_idle hl] at ht; cases ht; exact h
  | some l =>
    cases hd : decode l.word with
    | ok i => exact h.effect hl hd (exec_effect ((coreTurn_command hl hd).symm.trans ht))
    | error e => rw [coreTurn_illegal hl hd] at ht; cases ht; exact h.raise hl (by decide)

/-! ### The host -/

theorem writeOperand (h : s.Inv) (v : Word) (r : CtrlReg) : (s.writeOperand v r).Inv := by
  cases r <;> exact { h with }

/-- Byte writes change, of what the invariant speaks of, memory alone. -/
theorem writeRun (h : s.Inv) (f : Nat → Byte) {ls : List ByteLoc} (hv : ∀ l ∈ ls, l.Valid s.config) :
    (s.writeRun f ls).Inv := by
  have k := sameControl_writeRun s f ls
  obtain ⟨hwf, hbuf⟩ := writeRun_mem ls s f hv h.memory h.buffers
  constructor
  case memory => exact hwf
  case buffers => simpa only [k.config] using hbuf
  all_goals simp only [k.config, k.status, k.rk, k.outLen, k.latch, k.lastCmd]
  case config => exact h.config
  case schedule => exact h.schedule
  case outLen => exact h.outLen
  case latched => exact h.latched
  case error => exact h.error
  case tagOk => exact h.tagOk
  case saltGen => exact h.saltGen

theorem writeEffect (h : s.Inv) {v : Word} {t : State} (ht : WriteEffect s v t) : t.Inv := by
  cases ht with
  | nothing => exact h
  | ctrl | refused => exact { h with }
  | accepted => exact h.accept v
  | cleared => exact h.writeOneToClear v
  | operand r => exact h.writeOperand v r
  | bytes ls _ hv => exact h.writeRun _ hv

theorem access (h : s.Inv) (a : Access) : (s.access a).Inv := by
  cases a with
  | read off n =>
    obtain ⟨d, -, hd⟩ := busRead_state s off.toNat n
    have hr : (s.busRead off.toNat n).1.Inv := hd ▸ { h with }
    exact { hr with }
  | write off n v =>
    have hw : (s.busWrite off.toNat n v).1.Inv := h.writeEffect (busWrite_effect s off.toNat n v)
    exact { hw with }

theorem polled (h : s.Inv) : s.polled.Inv := { h with }

theorem wait (h : s.Inv) (late : Nat) : (s.wait late).Inv := by
  cases hb : s.busy with
  | false => rw [wait_idle hb]; exact h.polled
  | true =>
    cases late with
    | zero => rw [wait_turn hb]; exact { h with }
    | succ n => rw [wait_late hb]; exact { h.polled with }

/-- Reset leaves every register legal under the parameters in force (R370). -/
theorem hardReset (h : s.Inv) : s.hardReset.Inv where
  config := h.config
  memory := .nil
  buffers := fun _ hc => nomatch hc
  schedule := ⟨rfl, rfl⟩
  outLen := Nat.zero_le _
  latched := fun _ hl => nomatch hl
  error := fun he => nomatch he
  tagOk := fun ht => nomatch ht
  saltGen := fun hs => nomatch hs

theorem event (h : s.Inv) {e : HostEvent} {t : State} (ht : event e s = .next t) : t.Inv := by
  cases e with
  | bus a => cases ht; exact h.access a
  | wait late => cases ht; exact h.wait late
  | coreTurn => exact h.coreTurn ht
  | reset => cases ht; exact h.hardReset

theorem step (h : s.Inv) {t : State} (ht : step s = .next t) : t.Inv := by
  cases hq : s.hostQueue with
  | nil => exact h.coreTurn ((step_of_nil hq).symm.trans ht)
  | cons e rest =>
    have hrest : State.Inv { s with hostQueue := rest } := { h with }
    exact hrest.event ((step_of_cons hq).symm.trans ht)

end State.Inv

/-- Settles O7, by the event the step takes: the sequencer's turn by cases on what the latched command can do, a bus
access by cases on what a read or a write can do, and reset outright. -/
theorem stepKeepsInvariant : Obligations.StepKeepsInvariant := fun _ _ h ht => h.step ht

end Sys2Proof.Machine
end

section
/-! PROOF. What every command leaves (O15): one lemma per result of spec/10_state.md R56, each by cases on what a command
can do (`Effect`). -/

namespace Sys2Proof.Machine

/-! ### Failed checks and generated salts -/

theorem writesOut_iff (i : Instr) : writesOut i = true ↔ i ∈ outCommands := by
  cases i <;>
    simp [writesOut, outCommands, modeCommands, ecbCommands, cbcCommands, ctrCommands, cfbCommands, ofbCommands,
      xtsCommands, gcmCommands]

/-- The state of R342 after a failed check, whichever kind of command made it. -/
theorem failedCheck_eq (i : Instr) (s : State) (e : ErrCode) :
    (if writesOut i then s.raiseOut e else s.raise e) =
      { s.raise e with outLen := if writesOut i then 0 else s.outLen } := by
  cases writesOut i <;> rfl

@[simp] theorem State.generateSalt_ovr (s : State) : s.generateSalt.status.ovr = s.status.ovr := by
  unfold State.generateSalt; split <;> rfl
@[simp] theorem State.generateSalt_keyValid (s : State) : s.generateSalt.status.keyValid = s.status.keyValid := by
  unfold State.generateSalt; split <;> rfl
@[simp] theorem State.generateSalt_tagOk (s : State) : s.generateSalt.status.tagOk = s.status.tagOk := by
  unfold State.generateSalt; split <;> rfl
@[simp] theorem State.generateSalt_nr (s : State) : s.generateSalt.status.nr = s.status.nr := by
  unfold State.generateSalt; split <;> rfl

/-! ### Registers -/

namespace Effect

variable {s t : State} {i : Instr}

/-- What no command writes (R57): the host's operands, CTRL, LAST_CMD, OVR, the parameters and the host's record. -/
theorem keeps_operands (h : Effect s i t) :
    t.config = s.config ∧ t.ctrl = s.ctrl ∧ t.lastCmd = s.lastCmd ∧ t.keyLen = s.keyLen ∧
      t.ivLen = s.ivLen ∧ t.nonceLen = s.nonceLen ∧ t.tweakLen = s.tweakLen ∧ t.auxLen = s.auxLen ∧
      t.iter = s.iter ∧ t.dkLen = s.dkLen ∧ t.gfA = s.gfA ∧ t.gfB = s.gfB ∧ t.key = s.key ∧ t.iv = s.iv ∧
      t.nonce = s.nonce ∧ t.tweak = s.tweak ∧ t.status.ovr = s.status.ovr ∧
      t.hostQueue = s.hostQueue ∧ t.hostLog = s.hostLog := by
  cases h with
  | checkFailed => rw [failedCheck_eq]; simp
  | _ => simp

theorem keeps_gfR (h : Effect s i t) (hi : i ∉ gfCommands) : t.gfR = s.gfR := by
  cases h with
  | gf v hg => exact absurd hg hi
  | checkFailed => rw [failedCheck_eq]; rfl
  | pbkdf2 => exact s.generateSalt_gfR
  | _ => rfl

theorem keeps_schedule (h : Effect s i t) (hi : i ∉ keyCommands) :
    t.rk = s.rk ∧ t.status.keyValid = s.status.keyValid ∧ t.status.nr = s.status.nr := by
  cases h with
  | block rs b hb => exact absurd (by simp [keyCommands, hb]) hi
  | mode rs out hm => exact absurd (by simp [keyCommands, hm]) hi
  | keyExpanded | paddingError | gcmEncrypted | gcmDecrypted | authenticationFailed | ghash =>
    exact absurd (by decide) hi
  | checkFailed => rw [failedCheck_eq]; exact ⟨rfl, rfl, rfl⟩
  | pbkdf2 => exact ⟨s.generateSalt_rk, s.generateSalt_keyValid, s.generateSalt_nr⟩
  | gf | round | hmac => exact ⟨rfl, rfl, rfl⟩

theorem keeps_stateBlock (h : Effect s i t) (hi : i ∉ blockCommands) (hr : isRoundCommand i = false) :
    t.block = s.block := by
  cases h with
  | block rs b hb => exact absurd hb hi
  | round b hb => exact absurd (hb.symm.trans hr) (by decide)
  | checkFailed => rw [failedCheck_eq]; rfl
  | pbkdf2 => exact s.generateSalt_block
  | _ => rfl

theorem keeps_tag (h : Effect s i t) (h1 : i ≠ .gcmEnc) (h2 : i ≠ .ghash) : t.tag = s.tag := by
  cases h with
  | gcmEncrypted => exact absurd rfl h1
  | ghash => exact absurd rfl h2
  | checkFailed => rw [failedCheck_eq]; rfl
  | pbkdf2 => exact s.generateSalt_tag
  | _ => rfl

theorem keeps_tagOk (h : Effect s i t) (hi : i ≠ .gcmDec) : t.status.tagOk = s.status.tagOk := by
  cases h with
  | gcmDecrypted => exact absurd rfl hi
  | checkFailed => rw [failedCheck_eq]; rfl
  | pbkdf2 => exact s.generateSalt_tagOk
  | _ => rfl

theorem keeps_outLen (h : Effect s i t) (hi : i ∉ outCommands) : t.outLen = s.outLen := by
  cases h with
  | mode rs out hm => exact absurd (by simp [outCommands, hm]) hi
  | paddingError | gcmEncrypted | gcmDecrypted | authenticationFailed | hmac | pbkdf2 => exact absurd (by decide) hi
  | checkFailed => rw [failedCheck_eq]; exact if_neg (mt (writesOut_iff i).1 hi)
  | gf | keyExpanded | round | block | ghash => rfl

theorem keeps_salt (h : Effect s i t) (hi : i ≠ .pbkdf2) :
    t.msgLen = s.msgLen ∧ t.status.saltGen = s.status.saltGen ∧ t.draws = s.draws := by
  cases h with
  | pbkdf2 => exact absurd rfl hi
  | checkFailed => rw [failedCheck_eq]; exact ⟨rfl, rfl, rfl⟩
  | _ => exact ⟨rfl, rfl, rfl⟩

theorem keeps_trace (h : Effect s i t) (hi : i ∉ tracingCommands) : t.trace = s.trace := by
  cases h with
  | block rs b hb => exact absurd (by simp [tracingCommands, hb]) hi
  | paddingError => exact absurd (by decide) hi
  | mode rs out _ _ _ _ _ ht => rw [ht hi, State.emit_nil]; rfl
  | checkFailed => rw [failedCheck_eq]; rfl
  | pbkdf2 => exact s.generateSalt_trace
  | _ => rfl

end Effect

/-! ### Memory -/

/-- An offset outside OUT is outside any result that fits in OUT (R51). -/
theorem outside_result {n nOut a : Nat} (hn : n ≤ nOut) (ha : a < 0x6000 ∨ 0x6000 + nOut ≤ a) :
    a < Buffer.output.base ∨ Buffer.output.base + n ≤ a := by
  simp only [Buffer.base]; omega

/-- A completion that writes OUT leaves every byte outside OUT. -/
theorem State.get?_completeOut (s : State) {out : Bytes} {nOut a : Nat} (hn : out.length ≤ nOut)
    (ha : a < 0x6000 ∨ 0x6000 + nOut ≤ a) : (s.completeOut out).mem.get? a = s.mem.get? a :=
  (stored_completeOut out rfl).2 a (outside_result hn ha)

/-- A command leaves every byte outside OUT, and outside IN[0:16] for PBKDF2 (R56, R98). -/
theorem Effect.keeps_mem {s t : State} {i : Instr} (h : Effect s i t) (hc : s.config.Legal) {a : Nat}
    (hout : i ∈ outCommands → a < 0x6000 ∨ 0x6000 + s.config.nOut ≤ a)
    (hsalt : i = .pbkdf2 → a < 0x2000 ∨ 0x2010 ≤ a) : t.mem.get? a = s.mem.get? a := by
  obtain ⟨⟨hin, -⟩, -, hroom, -⟩ := hc
  cases h with
  | mode rs out hm _ _ hfit ho =>
    exact (s.expand.emit rs).get?_completeOut (by omega) (hout (by simp [outCommands, hm]))
  | paddingError =>
    exact Memory.get?_eraseFrom_outside _ _ _ (outside_result (by omega) (hout (by decide)))
  | gcmEncrypted | gcmDecrypted => exact State.get?_completeOut _ (by omega) (hout (by decide))
  | hmac => exact s.get?_completeOut (by omega) (hout (by decide))
  | pbkdf2 =>
    rw [s.generateSalt.get?_completeOut (by omega) (hout (by decide))]
    exact s.get?_generateSalt (hsalt rfl)
  | checkFailed => rw [failedCheck_eq]; rfl
  | gf | keyExpanded | round | block | authenticationFailed | ghash => rfl

/-- Settles O15, by cases on what a command can do (`Effect`), one lemma per result of R56. -/
theorem commandsWriteOnlyTheirResults : Obligations.CommandsWriteOnlyTheirResults := by
  intro i s t ht
  have h := exec_effect ht
  exact ⟨h.keeps_operands, h.keeps_gfR, h.keeps_schedule, h.keeps_stateBlock, h.keeps_tag, h.keeps_tagOk,
    h.keeps_outLen, h.keeps_salt, h.keeps_trace, fun _ hc => h.keeps_mem hc⟩

end Sys2Proof.Machine
end

section
/-! PROOF. Control registers and read-only bytes over the bus: in IDLE every control register reads as it is (O51), a
write of CTRL or of an operand register keeps the register's bits (O55), a write of a read-only location changes nothing
(O56), and a STATUS write clears the W1C bits it names (O59). -/

namespace Sys2Proof.Machine

/-! ### Control registers over the bus -/

/-- A 32-bit write below 0x40 is a write of the control register there (R82, R86). -/
theorem busWrite_ctrl (s : State) (v : Word) {a : Nat} (ha : a < 0x40) (h4 : a % 4 = 0) :
    s.busWrite a 4 v = (s.writeCtrl v (ctrlRegAt a), { resp := .okay, data := none }) := by
  rw [State.busWrite, target_of_ctrl ha h4]

theorem busRead_ctrl (s : State) {a : Nat} (ha : a < 0x40) (h4 : a % 4 = 0) :
    s.busRead a 4 = s.readReg (ctrlRegAt a) := by
  rw [State.busRead, target_of_ctrl ha h4]

/-- No control register is unspecified in IDLE (R373). -/
theorem unspecifiedCtrl_idle {s : State} (h : s.busy = false) (r : CtrlReg) : s.unspecifiedCtrl r = 0 := by
  have hl : s.latch = none := by simpa [State.busy] using h
  have hrun : s.running = [] := by simp [State.running, hl]
  cases r <;> simp [State.unspecifiedCtrl, hrun]

/-- In IDLE a 32-bit read below 0x40 returns the control register there and changes nothing (R89). -/
theorem busRead_ctrl_idle {s : State} (h : s.busy = false) {a : Nat} (ha : a < 0x40) (h4 : a % 4 = 0) :
    s.busRead a 4 = (s, { resp := .okay, data := some (s.readCtrl (ctrlRegAt a)) }) := by
  rw [busRead_ctrl s ha h4, State.readReg, unspecifiedCtrl_idle h, State.drew_zero, if_pos rfl]

theorem busWrite_control (s : State) (v : Word) :
    s.busWrite 0x004 4 v = ({ s with ctrl := .ofWord v }, { resp := .okay, data := none }) :=
  busWrite_ctrl s v (by decide) (by decide)

theorem busWrite_status (s : State) (v : Word) :
    s.busWrite 0x00C 4 v =
      ({ s with status := s.status.writeOneToClear v }, { resp := .okay, data := none }) :=
  busWrite_ctrl s v (by decide) (by decide)

/-! ### CTRL and STATUS as words -/

theorem Ctrl.word_fields (c : Ctrl) :
    c.word.getLsbD 0 = c.traceEn ∧ c.word.getLsbD 1 = c.irqEn ∧ c.word &&& 0xFFFFFFFC = 0 := by
  obtain ⟨traceEn, irqEn⟩ := c
  revert traceEn irqEn
  decide

theorem Ctrl.word_ofWord (v : Word) : (Ctrl.ofWord v).word = v &&& 3 := by
  apply BitVec.eq_of_getLsbD_eq
  intro k hk
  simp only [Ctrl.word, Ctrl.ofWord, BitVec.getLsbD_and, BitVec.getLsbD_append]
  interval_cases k <;> simp [bit]

theorem Status.word_flags (st : Status) (busy : Bool) :
    (st.word busy).getLsbD 0 = busy ∧ (st.word busy).getLsbD 1 = st.done ∧ (st.word busy).getLsbD 2 = st.err ∧
      (st.word busy).getLsbD 3 = st.ovr ∧ (st.word busy).getLsbD 4 = st.keyValid ∧
      (st.word busy).getLsbD 5 = st.tagOk ∧ (st.word busy).getLsbD 6 = st.saltGen := by
  simp only [Status.word, BitVec.getLsbD_append]
  simp [bit]

theorem Status.word_errCode (st : Status) (busy : Bool) : (st.word busy).extractLsb' 8 4 = st.errCode.code := by
  ext k hk
  simp only [BitVec.getElem_extractLsb', Status.word, BitVec.getLsbD_append]
  interval_cases k <;> simp

theorem Status.word_nr (st : Status) (busy : Bool) : (st.word busy).extractLsb' 16 4 = st.nr := by
  ext k hk
  simp only [BitVec.getElem_extractLsb', Status.word, BitVec.getLsbD_append]
  interval_cases k <;> simp

/-- Bits 31:20, 15:12 and 7 of STATUS read 0 (R53). -/
theorem Status.word_reserved (st : Status) (busy : Bool) : st.word busy &&& 0xFFF0F080 = 0 := by
  apply BitVec.eq_of_getLsbD_eq
  intro k hk
  simp only [Status.word, BitVec.getLsbD_and, BitVec.getLsbD_append]
  interval_cases k <;> simp

/-- Settles O51: each register by the read rule of IDLE, CTRL and STATUS by the fields of their words. -/
theorem idleRegisterReads : Obligations.IdleRegisterReads := by
  intro s hb
  refine ⟨fun p hp => ?_, ⟨_, busRead_ctrl_idle hb (by decide) (by decide), s.ctrl.word_fields⟩,
    ⟨_, busRead_ctrl_idle hb (by decide) (by decide), ?_⟩⟩
  · have h : p.1 < 0x40 ∧ p.1 % 4 = 0 ∧ s.readCtrl (ctrlRegAt p.1) = p.2 := by
      revert p
      simp [ctrlRegAt, State.readCtrl, Config.idValue]
    obtain ⟨hlt, h4, hval⟩ := h
    rw [busRead_ctrl_idle hb hlt h4, hval]
  · show (s.status.word s.busy).getLsbD 0 = false ∧ _
    obtain ⟨hbusy, hdone, herr, hovr, hkey, htag, hsalt⟩ := s.status.word_flags s.busy
    refine ⟨hbusy.trans hb, hdone, herr, hovr, hkey, htag, hsalt, s.status.word_nr _, s.status.word_reserved _,
      (s.status.word_errCode _).trans ?_⟩
    cases s.status.errCode <;> rfl

/-! ### Operand registers -/

/-- How many bits an operand register has (R36–R39, R41–R43); 0 for a register that is none. -/
def CtrlReg.operandBits : CtrlReg → Nat
  | .keyLen | .ivLen | .nonceLen | .tweakLen | .gfA | .gfB => 8
  | .msgLen | .auxLen | .dkLen => 16
  | .iter => 32
  | .id | .ctrl | .cmd | .status | .outLen | .gfR => 0

/-- A word cut to its low `n` bits, as a mask. -/
theorem setWidth_setWidth_eq_and {n : Nat} (hn : n ≤ 32) (v : Word) :
    (v.setWidth n).setWidth 32 = v &&& BitVec.ofNat 32 (2 ^ n - 1) := by
  have hpow : 2 ^ n ≤ 2 ^ 32 := Nat.pow_le_pow_right (by decide) hn
  have hmod : v.toNat % 2 ^ n < 2 ^ n := Nat.mod_lt _ (Nat.two_pow_pos n)
  apply BitVec.eq_of_toNat_eq
  rw [BitVec.toNat_and, BitVec.toNat_setWidth, BitVec.toNat_setWidth, BitVec.toNat_ofNat,
    Nat.mod_eq_of_lt (a := 2 ^ n - 1) (by omega), Nat.and_two_pow_sub_one_eq_mod, Nat.mod_eq_of_lt (by omega)]

/-- An operand register holds the bits of the value that it has; its reserved bits read 0 (R53). -/
theorem readCtrl_writeOperand (s : State) (v : Word) {r : CtrlReg} (hr : r.operandBits ≠ 0) :
    (s.writeOperand v r).readCtrl r = v &&& BitVec.ofNat 32 (2 ^ r.operandBits - 1) := by
  cases r with
  | keyLen | ivLen | nonceLen | tweakLen | gfA | gfB => exact setWidth_setWidth_eq_and (n := 8) (by decide) v
  | msgLen | auxLen | dkLen => exact setWidth_setWidth_eq_and (n := 16) (by decide) v
  | iter => exact (BitVec.and_allOnes (x := v)).symm
  | id | ctrl | cmd | status | outLen | gfR => exact absurd rfl hr

theorem busy_writeOperand (s : State) (v : Word) (r : CtrlReg) : (s.writeOperand v r).busy = s.busy := by
  cases r <;> rfl

/-- In IDLE a write at an operand register's offset takes effect (R372). -/
theorem busWrite_operand {s : State} (hb : s.busy = false) (v : Word) {a : Nat}
    (h : a < 0x40 ∧ a % 4 = 0 ∧ (ctrlRegAt a).operandBits ≠ 0) :
    s.busWrite a 4 v = (s.writeOperand v (ctrlRegAt a), { resp := .okay, data := none }) := by
  obtain ⟨ha, h4, hr⟩ := h
  rw [busWrite_ctrl s v ha h4]
  cases hreg : ctrlRegAt a with
  | id | ctrl | cmd | status | outLen | gfR => exact absurd (congrArg CtrlReg.operandBits hreg) hr
  | keyLen | ivLen | nonceLen | tweakLen | msgLen | auxLen | iter | dkLen | gfA | gfB =>
    exact congrArg (·, _) (if_neg (by simp [hb]))

/-- An operand register of `n` bits reads back as the value cut to them. -/
theorem busRead_busWrite_operand {s : State} (hb : s.busy = false) (v : Word) {a n : Nat} (hn : n ≠ 0)
    (h : a < 0x40 ∧ a % 4 = 0 ∧ (ctrlRegAt a).operandBits = n) :
    ((s.busWrite a 4 v).1.busRead a 4).2 =
      { resp := .okay, data := some (v &&& BitVec.ofNat 32 (2 ^ n - 1)) } := by
  obtain ⟨ha, h4, rfl⟩ := h
  rw [busWrite_operand hb v ⟨ha, h4, hn⟩, busRead_ctrl_idle ((busy_writeOperand s v _).trans hb) ha h4,
    readCtrl_writeOperand s v hn]

/-- CTRL reads back its two bits (R32). -/
theorem busRead_busWrite_control {s : State} (hb : s.busy = false) (v : Word) :
    ((s.busWrite 0x004 4 v).1.busRead 0x004 4).2 = { resp := .okay, data := some (v &&& 3) } := by
  have hb' : ({ s with ctrl := .ofWord v } : State).busy = false := hb
  rw [busWrite_control, busRead_ctrl_idle hb' (by decide) (by decide), ← Ctrl.word_ofWord]
  rfl

/-- Settles O55: the writes by the write rule of an operand register, the values read back by its width. -/
theorem operandRegisterWrites : Obligations.OperandRegisterWrites := by
  intro s v hb
  refine ⟨busWrite_control s v, busWrite_operand hb v (by decide), busWrite_operand hb v (by decide),
    busWrite_operand hb v (by decide), busWrite_operand hb v (by decide), busWrite_operand hb v (by decide),
    busWrite_operand hb v (by decide), busWrite_operand hb v (by decide), busWrite_operand hb v (by decide),
    busWrite_operand hb v (by decide), busWrite_operand hb v (by decide), fun off hoff => ?_, fun off hoff => ?_, ?_,
    busRead_busWrite_control hb v⟩
  · exact busRead_busWrite_operand hb v (n := 8) (by decide) (by revert off; decide)
  · exact busRead_busWrite_operand hb v (n := 16) (by decide) (by revert off; decide)
  · have h := busRead_busWrite_operand hb v (a := 0x02C) (n := 32) (by decide) (by decide)
    rwa [show BitVec.ofNat 32 (2 ^ 32 - 1) = BitVec.allOnes 32 from rfl, BitVec.and_allOnes] at h

/-! ### Read-only locations -/

/-- ID, OUT_LEN and GF_R ignore writes, in IDLE and in BUSY (R54, R372). -/
theorem writeCtrl_readOnly (s : State) (v : Word) {r : CtrlReg} (hr : r = .id ∨ r = .outLen ∨ r = .gfR) :
    s.writeCtrl v r = s := by
  rcases hr with rfl | rfl | rfl <;> exact ite_self s

/-- RK and OUT are whole numbers of words, so an aligned run that starts in one stays in it (R48, R51). -/
theorem readOnly_aligned {c : Config} (hc : c.Legal) {a n k : Nat} (hn : n = 1 ∨ n = 2 ∨ n = 4) (ha : a % n = 0)
    (hr : ReadOnly c a) (hk : k < n) : ReadOnly c (a + k) := by
  obtain ⟨-, -, -, -, hout⟩ := hc
  unfold ReadOnly at hr ⊢
  rcases hn with rfl | rfl | rfl <;> omega

theorem byteLocAt_of_readOnly {c : Config} (hc : c.Legal) {a : Nat} (hr : ReadOnly c a) :
    ∃ l, byteLocAt c a = some l := by
  obtain ⟨⟨-, hin, -⟩, ⟨-, haux, -⟩, -, hout, -⟩ := hc
  unfold ReadOnly at hr
  refine byteLocAt_of_not_reserved ?_ ?_ ?_
  · omega
  · omega
  · unfold Reserved; omega

/-- The bytes at the read-only offsets are those of RK and OUT. -/
theorem writable_of_readOnly {c : Config} (hc : c.Legal) {l : ByteLoc} (hl : l.Valid c) (hr : ReadOnly c l.offset) :
    l.writable = false := by
  obtain ⟨⟨-, hin, -⟩, ⟨-, haux, -⟩, -⟩ := hc
  unfold ReadOnly at hr
  cases l with
  | rk i => rfl
  | buf b i =>
    cases b with
    | output => rfl
    | input | aux => simp only [ByteLoc.offset, ByteLoc.Valid, Buffer.base, Buffer.size] at hl hr; omega
  | key i | iv i | nonce i | tweak i | block i | tag i => simp only [ByteLoc.offset] at hr; omega

/-- A write of bytes the host may only read changes nothing, in IDLE and in BUSY (R54, R372). -/
theorem writeBytes_readOnly (s : State) (v : Word) {ls : List ByteLoc} (h : ∀ l ∈ ls, l.writable = false) :
    s.writeBytes v ls = s := by
  cases hb : s.busy with
  | true => rw [State.writeBytes, if_pos hb]
  | false => rw [State.writeBytes_eq hb, State.writeRun_readOnly _ _ _ h]

theorem busWrite_readOnly {s : State} (hc : s.config.Legal) (v : Word) {a n : Nat} (hn : n = 1 ∨ n = 2 ∨ n = 4)
    (ha : a % n = 0) (hr : ReadOnly s.config a) : s.busWrite a n v = (s, { resp := .okay, data := none }) := by
  obtain ⟨l, hl⟩ := byteLocAt_of_readOnly hc hr
  obtain ⟨ls, htarget, hlen, hls⟩ := target_of_bytes hc hn ha hl
  have hro : ∀ l ∈ ls, l.writable = false := fun l hl => by
    obtain ⟨k, hk, rfl⟩ := List.getElem_of_mem hl
    obtain ⟨hoff, hvalid⟩ := hls k hk
    exact writable_of_readOnly hc hvalid (hoff ▸ readOnly_aligned hc hn ha hr (hlen ▸ hk))
  rw [State.busWrite, htarget]
  exact congrArg (·, _) (writeBytes_readOnly s v hro)

/-- Settles O56: registers by what `writeCtrl` drops, bytes by the address map, STATUS by what a W1C write keeps. -/
theorem readOnlyWritesChangeNothing : Obligations.ReadOnlyWritesChangeNothing := by
  intro s v
  refine ⟨fun off hoff => ?_, fun a n hc hn ha hr => busWrite_readOnly hc v hn ha hr,
    _, busWrite_status s v, rfl, rfl, rfl, rfl, rfl, rfl⟩
  have h : off < 0x40 ∧ off % 4 = 0 ∧ (ctrlRegAt off = .id ∨ ctrlRegAt off = .outLen ∨ ctrlRegAt off = .gfR) := by
    revert off; decide
  obtain ⟨hlt, h4, hreg⟩ := h
  rw [busWrite_ctrl s v hlt h4, writeCtrl_readOnly s v hreg]

/-! ### STATUS and IRQ -/

/-- Settles O59: IRQ follows the DONE and IRQ_EN that a write of STATUS, CMD or CTRL and a completing command leave. -/
theorem statusWritesAndIrq : Obligations.StatusWritesAndIrq := by
  refine ⟨fun s v => ?_, fun _ => rfl, fun s v hv => ?_, fun s cmd hb => ?_, fun s v hv => ?_, fun i s t ht => ?_⟩
  · rw [busWrite_status, Status.writeOneToClear]
    cases v.getLsbD 1 <;> cases v.getLsbD 2 <;> cases v.getLsbD 3 <;> simp
  · rw [busWrite_status, State.irq, Status.writeOneToClear_done, hv]
    simp
  · have hacc : (s.busWrite 0x008 4 cmd).1 = s.accept cmd := by
      rw [busWrite_ctrl s cmd (by decide) (by decide)]
      exact if_neg (by simp [hb])
    rw [hacc, State.irq, State.accept_status, Status.accept_done, Bool.false_and]
  · rw [busWrite_control, State.irq]
    exact (congrArg _ hv).trans (Bool.and_false _)
  · obtain ⟨-, hdone, -⟩ := exec_completes ht
    obtain ⟨-, hctrl, -⟩ := (exec_effect ht).keeps_operands
    rw [State.irq, hdone, hctrl, Bool.true_and]

end Sys2Proof.Machine
end

section
/-! PROOF. The steps that run no command (O10): the sequencer's turn in IDLE, and a host access. -/

namespace Sys2Proof.Machine

/-- A host access is one step: the access in front of the queue (R93). -/
theorem step_bus {s : State} {a : Access} {rest : List HostEvent} (hq : s.hostQueue = .bus a :: rest) :
    step s = .next ((s.queued rest).access a) :=
  step_of_cons hq

/-- A read changes nothing but the count of free values, and is kept with its reply (R89). -/
theorem access_read_queued (s : State) (rest : List HostEvent) (off : BitVec 15) (n : Nat) :
    (s.queued rest).access (.read off n) =
      { s with hostQueue := rest
               draws := (s.busRead off.toNat n).1.draws
               hostLog := s.hostLog ++ [⟨.read off n, (s.busRead off.toNat n).2⟩] } := by
  obtain ⟨d, -, hd⟩ := busRead_state s off.toNat n
  simp only [State.access, busRead_queued, hd]
  rfl

/-- A write does what it does on the bus, and is kept with its reply. -/
theorem access_write_queued (s : State) (rest : List HostEvent) (off : BitVec 15) (n : Nat) (v : Word) :
    (s.queued rest).access (.write off n v) =
      { (s.busWrite off.toNat n v).1 with
        hostQueue := rest
        hostLog := s.hostLog ++ [⟨.write off n v, (s.busWrite off.toNat n v).2⟩] } := by
  obtain ⟨-, -, -, -, -, -, -, -, hlog, -⟩ := (busWrite_effect s off.toNat n v).keeps
  simp only [State.access, busWrite_queued]
  rw [← hlog]
  rfl

/-- Settles O10, by the event the step takes: none, a read or a write. -/
theorem stepWithoutACommand : Obligations.StepWithoutACommand := by
  refine ⟨fun s hl hq => ?_, fun s off n rest hq => ?_, fun s off n v rest hq => ?_⟩
  · rw [step_of_nil hq, coreTurn_idle hl]
  · exact ⟨_, (step_bus hq).trans (congrArg _ (access_read_queued s rest off n)), rfl, rfl, rfl⟩
  · rw [step_bus hq, access_write_queued]

end Sys2Proof.Machine
end

section
/-! PROOF. The host's view of the core's memory: the command word is read from its byte lanes (O4), a refused access
changes nothing (O53), a read changes no register and no byte (O52), and a write of a byte region stores its lanes and
reads back (O54). -/

namespace Sys2Proof.Machine

/-! ### Command words as byte lanes -/

/-- The byte lanes of a word make up the word (R83). -/
theorem wordOfLanes_extract (w : Word) :
    wordOfLanes (w.extractLsb' 0 8) (w.extractLsb' 8 8) (w.extractLsb' 16 8) (w.extractLsb' 24 8) = w := by
  apply BitVec.eq_of_getLsbD_eq
  intro k hk
  simp only [wordOfLanes, BitVec.getLsbD_append, BitVec.getLsbD_extractLsb']
  interval_cases k <;> rfl

/-- The first four bytes of a byte list are its command word; what follows is handed on (R110, R118). -/
theorem decodeBytes_cons (b0 b1 b2 b3 : Byte) (rest : Bytes) :
    decodeBytes (b0 :: b1 :: b2 :: b3 :: rest) = (decode (wordOfLanes b0 b1 b2 b3)).map (·, rest) := by
  rw [decodeBytes]
  cases decode (wordOfLanes b0 b1 b2 b3) <;> rfl

theorem decodeBytes_lanesOfWord (w : Word) (rest : Bytes) :
    decodeBytes (lanesOfWord w ++ rest) = (decode w).map (·, rest) :=
  (decodeBytes_cons _ _ _ _ rest).trans (by rw [wordOfLanes_extract])

/-- A command's word decodes to the command, with its ROUND (R114, R115, R120). -/
theorem decode_encode {i : Instr} (hi : i.wellFormed = true) : decode (encode i) = .ok i := by
  cases i
  case addRoundKey round =>
    have hall : ∀ r ≤ 15, decode (encode (.addRoundKey r)) = .ok (.addRoundKey r) := by decide
    exact hall round (of_decide_eq_true hi)
  all_goals rfl

/-- Settles O4: the four lanes make up the command's word, and the word decodes to the command. -/
theorem decodeBytesReadsOneWord : Obligations.DecodeBytesReadsOneWord := by
  intro i rest hi
  rw [decodeBytes_lanesOfWord, decode_encode hi]
  rfl

/-! ### Refused accesses -/

/-- A misaligned access, one of a wrong width, a narrow one on a control register and one of a reserved offset go
nowhere (R85–R87). -/
theorem target_of_refused {c : Config} (hc : c.Legal) {a n : Nat}
    (h : (n ≠ 1 ∧ n ≠ 2 ∧ n ≠ 4) ∨ a % n ≠ 0 ∨ (a < 0x40 ∧ n ≠ 4) ∨ Reserved c a) : target c a n = .slverr := by
  by_cases hshape : (n = 1 ∨ n = 2 ∨ n = 4) ∧ a % n = 0
  · obtain ⟨hn, ha⟩ := hshape
    rcases h with hwidth | hmis | ⟨hlow, hnarrow⟩ | hres
    · omega
    · exact absurd ha hmis
    · exact target_of_narrow hlow hnarrow
    · exact target_of_hole (by omega) (by unfold Reserved at hres; omega) (byteLocAt_of_reserved hc hres)
  · exact target_of_shape hshape

/-- Settles O53: an access that goes nowhere is refused, a read and a write alike. -/
theorem refusedAccesses : Obligations.RefusedAccesses := by
  intro s a n v hc h
  rw [State.busRead, State.busWrite, target_of_refused hc h]
  exact ⟨rfl, rfl⟩

/-! ### Reads -/

/-- Where an access that reaches a control register went (R86). -/
theorem target_eq_ctrl {c : Config} {a n : Nat} {r : CtrlReg} (h : target c a n = .ctrl r) :
    a < 0x40 ∧ a % 4 = 0 ∧ n = 4 := by
  unfold target at h
  split at h
  · next hshape =>
    split at h
    · next ha =>
      split at h
      · next hn =>
        subst hn
        exact ⟨ha, (legalShape_iff.1 hshape).2, rfl⟩
      · cases h
    · split at h <;> cases h
  · cases h

/-- The bytes an access reaches are those of its run of offsets (R83). -/
theorem target_eq_bytes {c : Config} {a n : Nat} {ls : List ByteLoc} (h : target c a n = .bytes ls) :
    0x40 ≤ a ∧ ls.length = n ∧ ∀ k, (h : k < ls.length) → byteLocAt c (a + k) = some ls[k] := by
  unfold target at h
  split at h
  · split at h
    · split at h <;> cases h
    · next ha =>
      split at h
      · next hls =>
        cases h
        exact ⟨by omega, byteLocsFrom_eq_some.1 hls⟩
      · cases h
  · cases h

/-- In IDLE a host read sees every byte as it is (R373). -/
theorem hostByte_idle {s : State} (hb : s.busy = false) (l : ByteLoc) : s.hostByte l = s.readByte l := by
  have hlatch : s.latch = none := by simpa [State.busy] using hb
  have hrun : s.running = [] := by simp [State.running, hlatch]
  refine if_neg ?_
  cases l with
  | buf b i => cases b <;> simp [State.unspecifiedByte, hrun]
  | key i | iv i | nonce i | tweak i | block i | tag i | rk i => simp [State.unspecifiedByte, hrun]

/-- In IDLE a read of bytes that all hold values takes no free value (R88, R89). -/
theorem readBytes_state {s : State} (hb : s.busy = false) {ls : List ByteLoc} (h : ∀ l ∈ ls, s.readByte l ≠ none) :
    (s.readBytes ls).1 = s := by
  refine if_pos (List.all_eq_true.2 fun l hl => ?_)
  rw [hostByte_idle hb]
  exact Option.isSome_iff_ne_none.2 (h l hl)

/-- In IDLE a read whose bytes hold values changes nothing at all. -/
theorem busRead_state_idle {s : State} (hb : s.busy = false) {a n : Nat}
    (h : ∀ k < n, 0x40 ≤ a + k → s.byteAtOffset (a + k) ≠ none) : (s.busRead a n).1 = s := by
  cases ht : target s.config a n with
  | slverr => rw [State.busRead, ht]
  | ctrl r =>
    obtain ⟨ha, h4, rfl⟩ := target_eq_ctrl ht
    rw [busRead_ctrl_idle hb ha h4]
  | bytes ls =>
    obtain ⟨ha, hlen, hls⟩ := target_eq_bytes ht
    rw [State.busRead, ht]
    refine readBytes_state hb fun l hl => ?_
    obtain ⟨k, hk, rfl⟩ := List.getElem_of_mem hl
    have hbyte := h k (hlen ▸ hk) (by omega)
    rwa [State.byteAtOffset, hls k hk] at hbyte

/-- A read of one byte that holds no value takes the next free value, in IDLE and in BUSY (R88). -/
theorem busRead_valueless {s : State} (hc : s.config.Legal) {a : Nat} (h40 : 0x40 ≤ a) (h : a < 0x8000)
    (hres : ¬ Reserved s.config a) (hnone : s.byteAtOffset a = none) :
    s.busRead a 1 = (s.drew 1, { resp := .okay, data := some ((s.draw 0).setWidth 32) }) := by
  obtain ⟨l, hl⟩ := byteLocAt_of_not_reserved h40 h hres
  obtain ⟨rfl, hvalid⟩ := byteLocAt_some hl
  rw [State.byteAtOffset, hl] at hnone
  refine busRead_free hc hvalid ?_
  rw [State.hostByte, show s.readByte l = none from hnone, ite_self]

/-- Settles O52: the state by `busRead_state`, in IDLE by where the access goes, the free value by `busRead_free`. -/
theorem readsHaveNoSideEffect : Obligations.ReadsHaveNoSideEffect := fun s a n =>
  ⟨busRead_state s a n, fun hb h => busRead_state_idle hb h,
    fun hc h40 h hres hnone => busRead_valueless hc h40 h hres hnone⟩

/-! ### Reads of bytes that hold values -/

theorem byteAtOffset_offset {s : State} (hc : s.config.Legal) {l : ByteLoc} (hl : l.Valid s.config) :
    s.byteAtOffset l.offset = s.readByte l := by
  rw [State.byteAtOffset, byteLocAt_offset hc hl]
  rfl

/-- In IDLE a read of bytes that hold values returns their sum, byte `k` times `2^(8k)`, and changes nothing (R83). -/
theorem readBytes_values {s : State} (hb : s.busy = false) {ls : List ByteLoc} {byte : Nat → Byte}
    (h : ∀ k, (h : k < ls.length) → s.readByte ls[k] = some (byte k)) :
    s.readBytes ls = (s,
      { resp := .okay
        data := some
          (BitVec.ofNat 32 (((List.range ls.length).map fun k => (byte k).toNat * 2 ^ (8 * k)).sum)) }) := by
  have hstate : (s.readBytes ls).1 = s := readBytes_state hb fun l hl => by
    obtain ⟨k, hk, rfl⟩ := List.getElem_of_mem hl
    simp [h k hk]
  have hlanes : s.readLanes ls = (List.range ls.length).map byte := by
    refine List.ext_getElem (by simp [State.readLanes]) fun k h1 h2 => ?_
    have hk : k < ls.length := by simpa using h2
    simp [State.readLanes, hostByte_idle hb, h k hk]
  rw [← leNat_map_range, ← lanesValue_eq, ← hlanes]
  exact Prod.ext hstate rfl

/-- In IDLE an aligned read of a byte region whose bytes hold values (R83). -/
theorem busRead_values {s : State} (hc : s.config.Legal) (hb : s.busy = false) {a n : Nat}
    (hn : n = 1 ∨ n = 2 ∨ n = 4) (ha : a % n = 0) {byte : Nat → Byte}
    (h : ∀ k < n, s.byteAtOffset (a + k) = some (byte k)) :
    s.busRead a n = (s,
      { resp := .okay
        data := some (BitVec.ofNat 32 (((List.range n).map fun k => (byte k).toNat * 2 ^ (8 * k)).sum)) }) := by
  obtain ⟨l, hl, -⟩ := Option.bind_eq_some_iff.1 (h 0 (by omega))
  obtain ⟨ls, htarget, rfl, hls⟩ := target_of_bytes hc hn ha hl
  rw [State.busRead, htarget]
  refine readBytes_values hb fun k hk => ?_
  obtain ⟨hoff, hvalid⟩ := hls k hk
  rw [← byteAtOffset_offset hc hvalid, hoff, h k hk]

/-! ### Writes of byte regions -/

theorem toNat_lane (v : Word) (k : Nat) : (lane v k).toNat = v.toNat / 2 ^ (8 * k) % 2 ^ 8 := by
  rw [lane, BitVec.toNat_setWidth, BitVec.toNat_ushiftRight, Nat.shiftRight_eq_div_pow]

/-- The first `n` lanes of a value make up the value cut to `n` bytes (R83). -/
theorem sum_lanes (v : Word) (n : Nat) :
    ((List.range n).map fun k => (lane v k).toNat * 2 ^ (8 * k)).sum = v.toNat % 2 ^ (8 * n) := by
  induction n with
  | zero => simp [Nat.mod_one]
  | succ n ih =>
    rw [List.range_succ, List.map_append, List.sum_append, ih, Nat.mul_succ, pow_add, Nat.mod_mul]
    simp [toNat_lane, Nat.mul_comm]

/-- The writable regions are whole numbers of words, so an aligned run that starts in one stays in it (R44–R50). -/
theorem writable_aligned {c : Config} (hc : c.Legal) {a n k : Nat} (hn : n = 1 ∨ n = 2 ∨ n = 4) (ha : a % n = 0)
    (hw : Writable c a) (hk : k < n) : Writable c (a + k) := by
  obtain ⟨⟨-, -, hin⟩, ⟨-, -, haux⟩, -⟩ := hc
  unfold Writable at hw ⊢
  rcases hn with rfl | rfl | rfl <;> omega

theorem byteLocAt_of_writable {c : Config} (hc : c.Legal) {a : Nat} (hw : Writable c a) :
    ∃ l, byteLocAt c a = some l := by
  obtain ⟨⟨-, hin, -⟩, ⟨-, haux, -⟩, -⟩ := hc
  unfold Writable at hw
  refine byteLocAt_of_not_reserved ?_ ?_ ?_
  · omega
  · omega
  · unfold Reserved; omega

/-- The bytes at the writable offsets are those the host may write. -/
theorem writable_of_writableOffset {c : Config} (hc : c.Legal) {l : ByteLoc} (hw : Writable c l.offset) :
    l.writable = true := by
  obtain ⟨⟨-, hin, -⟩, ⟨-, haux, -⟩, -⟩ := hc
  unfold Writable at hw
  cases l with
  | rk i => simp only [ByteLoc.offset] at hw; omega
  | buf b i =>
    cases b with
    | output => simp only [ByteLoc.offset, Buffer.base] at hw; omega
    | input | aux => rfl
  | key i | iv i | nonce i | tweak i | block i | tag i => rfl

/-- In IDLE an aligned write of a writable region writes the lanes at its run of bytes (R83, R84). -/
theorem busWrite_bytes {s : State} (hc : s.config.Legal) (hb : s.busy = false) (v : Word) {a n : Nat}
    (hn : n = 1 ∨ n = 2 ∨ n = 4) (ha : a % n = 0) (hw : Writable s.config a) :
    ∃ ls : List ByteLoc, s.busWrite a n v = (s.writeRun (lane v) ls, { resp := .okay, data := none }) ∧ ls.length = n ∧
      ∀ k, (h : k < ls.length) → ls[k].offset = a + k ∧ ls[k].Valid s.config ∧ ls[k].writable = true := by
  obtain ⟨l, hl⟩ := byteLocAt_of_writable hc hw
  obtain ⟨ls, htarget, hlen, hls⟩ := target_of_bytes hc hn ha hl
  refine ⟨ls, by rw [← State.writeBytes_eq hb, State.busWrite, htarget], hlen, fun k hk => ?_⟩
  obtain ⟨hoff, hvalid⟩ := hls k hk
  exact ⟨hoff, hvalid, writable_of_writableOffset hc (hoff ▸ writable_aligned hc hn ha hw (hlen ▸ hk))⟩

/-- Every byte after a run of writes at offsets `a`, `a + 1`, …: the value written, or what it was (R84). -/
theorem byteAtOffset_writeRun {s : State} (hc : s.config.Legal) (f : Nat → Byte) {ls : List ByteLoc} {a : Nat}
    (h : ∀ k, (h : k < ls.length) → ls[k].offset = a + k ∧ ls[k].Valid s.config ∧ ls[k].writable = true) (b : Nat) :
    (s.writeRun f ls).byteAtOffset b =
      if a ≤ b ∧ b < a + ls.length then some (f (b - a)) else s.byteAtOffset b := by
  have hconfig := (sameControl_writeRun s f ls).config
  split
  · next hin =>
    obtain ⟨k, rfl⟩ := Nat.exists_eq_add_of_le hin.1
    have hk : k < ls.length := by omega
    obtain ⟨hoff, hvalid, -⟩ := h k hk
    rw [Nat.add_sub_cancel_left, ← hoff, byteAtOffset_offset (hconfig ▸ hc) (hconfig ▸ hvalid)]
    exact State.readByte_writeRun s f ls a (fun k hk => ⟨(h k hk).1, (h k hk).2.2⟩) k hk
  · next hout =>
    rw [State.byteAtOffset, State.byteAtOffset, hconfig]
    cases hl : byteLocAt s.config b with
    | none => rfl
    | some l =>
      obtain ⟨rfl, -⟩ := byteLocAt_some hl
      exact State.readByte_writeRun_other s f ls a (fun k hk => (h k hk).1) (by omega)

/-- States alike in their registers read alike over the bus. -/
theorem SameControl.readCtrl {s t : State} (h : SameControl s t) (r : CtrlReg) : t.readCtrl r = s.readCtrl r := by
  cases r <;> simp only [State.readCtrl, State.statusWord, State.busy, h.ctrl, h.lastCmd, h.status, h.latch, h.keyLen,
    h.ivLen, h.nonceLen, h.tweakLen, h.msgLen, h.auxLen, h.outLen, h.iter, h.dkLen, h.gfA, h.gfB, h.gfR]

/-- Settles O54: the bytes by the run of writes, the value read back by the read rule of the bytes it stored. -/
theorem writeThenRead : Obligations.WriteThenRead := by
  refine ⟨fun s a n v hc hb hn ha hw => ?_, fun s a n byte hc hb hn ha h => busRead_values hc hb hn ha h⟩
  obtain ⟨ls, hwrite, rfl, hls⟩ := busWrite_bytes hc hb v hn ha hw
  have hsame := sameControl_writeRun s (lane v) ls
  have hbytes := byteAtOffset_writeRun hc (lane v) hls
  refine ⟨_, hwrite, ?_, hbytes, hsame.readCtrl⟩
  have hb' : (s.writeRun (lane v) ls).busy = false := by rw [State.busy, hsame.latch]; exact hb
  rw [← sum_lanes]
  refine busRead_values (hsame.config ▸ hc) hb' hn ha fun k hk => ?_
  rw [hbytes, if_pos (by omega), Nat.add_sub_cancel_left]

end Sys2Proof.Machine
end

section
/-! PROOF. The encoding: each command word has one meaning (O3), the words of the opcode map are the command words (O1,
O2), and a latched word that is none of them completes with UnsupportedMode (O9). -/

namespace Sys2Proof.Machine

/-! ### What the decoder accepts -/

/-- A word is RSVD, OPCODE and ROUND: what ADD_ROUND_KEY's mask keeps, and ROUND at its place (R110, R114). -/
theorem and_mask_or_roundField (w : Word) :
    (w &&& addRoundKeyMask) ||| BitVec.ofNat 32 (roundField w).toNat <<< 8 = w := by
  apply BitVec.eq_of_getLsbD_eq
  intro k hk
  rw [BitVec.ofNat_toNat]
  simp only [roundField, addRoundKeyMask, BitVec.getLsbD_or, BitVec.getLsbD_and, BitVec.getLsbD_shiftLeft,
    BitVec.getLsbD_setWidth, BitVec.getLsbD_extractLsb']
  interval_cases k <;> simp

/-- The word of a row of the opcode map is its command's word (R115). -/
theorem encode_of_mem_opcodeRows {w : Word} {i : Instr} (h : ⟨w, i⟩ ∈ opcodeRows) :
    i.wellFormed = true ∧ encode i = w := by
  have hall : ∀ row ∈ opcodeRows, row.instr.wellFormed = true ∧ encode row.instr = row.word := by decide
  exact hall _ h

/-- R114: a word decodes by ADD_ROUND_KEY's row, whose ROUND is free, or by one of the rows of whole words. -/
theorem decode_eq_ok_iff_row {w : Word} {i : Instr} :
    decode w = .ok i ↔
      (w &&& addRoundKeyMask = addRoundKeyMatch ∧ i = .addRoundKey (roundField w).toNat) ∨
        ⟨w, i⟩ ∈ opcodeRows := by
  constructor
  · intro h
    rw [decode] at h
    split at h
    · next hmask => exact .inl ⟨hmask, (Except.ok.inj h).symm⟩
    · split at h
      · next row hfind =>
        have hword : row.word = w := by simpa using List.find?_some hfind
        have hinstr : row.instr = i := Except.ok.inj h
        exact .inr (hword ▸ hinstr ▸ List.mem_of_find?_eq_some hfind)
      · cases h
  · rintro (⟨hmask, rfl⟩ | hrow)
    · rw [decode, if_pos hmask]
    · obtain ⟨hwf, hw⟩ := encode_of_mem_opcodeRows hrow
      exact hw ▸ decode_encode hwf

/-- R114, R115, R120: a word decodes to a command exactly when it is that command's word. -/
theorem decode_eq_ok_iff_encode {w : Word} {i : Instr} :
    decode w = .ok i ↔ i.wellFormed = true ∧ encode i = w := by
  refine ⟨fun h => ?_, fun ⟨hwf, hw⟩ => hw ▸ decode_encode hwf⟩
  rw [decode_eq_ok_iff_row] at h
  rcases h with ⟨hmask, rfl⟩ | hrow
  · have hround := (roundField w).isLt
    refine ⟨decide_eq_true (Nat.le_of_lt_succ hround), ?_⟩
    calc encode (.addRoundKey (roundField w).toNat)
        = (w &&& addRoundKeyMask) ||| BitVec.ofNat 32 (roundField w).toNat <<< 8 := by rw [hmask]; rfl
      _ = w := and_mask_or_roundField w
  · exact encode_of_mem_opcodeRows hrow

/-- Settles O3: a word decodes to a command exactly when it is that command's word. -/
theorem decodeAndEncodeAgree : Obligations.DecodeAndEncodeAgree :=
  ⟨fun _ => decode_encode, fun _ _ => Iff.mp decode_eq_ok_iff_encode⟩

/-- Settles O2, by the row a word decodes by; the listed words are those of the map's rows. -/
theorem decodeAcceptsExactlyTheMap : Obligations.DecodeAcceptsExactlyTheMap := by
  intro w
  change _ ↔ w &&& addRoundKeyMask = addRoundKeyMatch ∨ w ∈ opcodeRows.map OpcodeRow.word
  simp only [decode_eq_ok_iff_row, exists_or, exists_and_left, exists_eq, and_true]
  refine or_congr_right ⟨fun ⟨i, hrow⟩ => List.mem_map_of_mem hrow, fun hw => ?_⟩
  obtain ⟨row, hrow, rfl⟩ := List.mem_map.mp hw
  exact ⟨row.instr, hrow⟩

/-- Settles O1: each listed word is its command's word, and so decodes to it. -/
theorem opcodeMapWords : Obligations.OpcodeMapWords := by
  intro p hp
  have hwords : p.2.wellFormed = true ∧ encode p.2 = p.1 := by
    revert p
    decide
  exact ⟨Iff.mpr decode_eq_ok_iff_encode hwords, hwords.2⟩

/-! ### A word that is no command's -/

/-- The sequencer's turn with an illegal word: the error of R337, whatever makes the word illegal (R116). -/
theorem coreTurn_no_command {s : State} {l : Latch} (hl : s.latch = some l) (hd : ∀ i, decode l.word ≠ .ok i) :
    coreTurn s = .next (s.raise .unsupportedMode) := by
  cases hw : decode l.word with
  | ok i => exact absurd hw (hd i)
  | error e => exact coreTurn_illegal hl hw

/-- The scheduler's event for the sequencer is the sequencer's turn (R336, R379). -/
theorem step_coreTurn {s : State} {rest : List HostEvent} (hq : s.hostQueue = .coreTurn :: rest) :
    step s = coreTurn (s.queued rest) :=
  step_of_cons hq

/-- Settles O9: the step is the sequencer's turn, with no host event left or with its event in front. -/
theorem illegalWordCompletesUnsupported : Obligations.IllegalWordCompletesUnsupported := by
  refine fun s l hl hd => ⟨fun hq => ?_, fun rest hq => ?_⟩
  · rw [step_of_nil hq]
    exact coreTurn_no_command hl hd
  · rw [step_coreTurn hq]
    exact coreTurn_no_command (s := s.queued rest) hl hd

end Sys2Proof.Machine
end

section
/-! PROOF. A WAIT ends (O60): while BUSY it polls as often as its schedule says, gives the sequencer its turn, and polls
once more. -/

namespace Sys2Proof.Machine

/-- A read of STATUS that finds `s`, as the host's log keeps it (R121). -/
def State.statusPoll (s : State) : Transaction :=
  { access := .read 0x00C 4, reply := { resp := .okay, data := some s.statusWord } }

/-- A poll counts as its statement's, and the next one too when it saw BUSY = 1 (R121). -/
theorem pollCount_statusPoll (s : State) (ts : List Transaction) :
    pollCount (s.statusPoll :: ts) = if s.busy then pollCount ts + 1 else 1 := by
  rw [← statusWord_busy]
  rfl

/-- Polls that saw BUSY = 1 and the one after them are all of one WAIT. -/
theorem pollCount_busy_polls {s : State} (hb : s.busy = true) (t : State) (n : Nat) :
    pollCount (List.replicate n s.statusPoll ++ [t.statusPoll]) = n + 1 := by
  induction n with
  | zero => simp [pollCount_statusPoll, pollCount]
  | succ n ih => rw [List.replicate_succ, List.cons_append, pollCount_statusPoll, if_pos hb, ih]

/-- With the core idle a WAIT is one poll (R121). -/
theorem step_wait_idle {s : State} {late : Nat} {rest : List HostEvent} (hq : s.hostQueue = .wait late :: rest)
    (hb : s.busy = false) : step s = .next (s.queued rest).polled :=
  (step_of_cons hq).trans (congrArg Host.Outcome.next (wait_idle (s := s.queued rest) hb late))

/-- A WAIT whose schedule has a poll left makes it (R379). -/
theorem step_wait_late {s : State} {n : Nat} {rest : List HostEvent} (hq : s.hostQueue = .wait (n + 1) :: rest)
    (hb : s.busy = true) : step s = .next (s.polled.queued (.wait n :: rest)) :=
  (step_of_cons hq).trans (congrArg Host.Outcome.next (wait_late (s := s.queued rest) hb n))

/-- A WAIT whose schedule has no poll left gives the sequencer its turn (R379). -/
theorem step_wait_turn {s : State} {rest : List HostEvent} (hq : s.hostQueue = .wait 0 :: rest)
    (hb : s.busy = true) : step s = .next (s.queued (.coreTurn :: .wait 0 :: rest)) :=
  (step_of_cons hq).trans (congrArg Host.Outcome.next (wait_turn (s := s.queued rest) hb))

/-- The state after `n` polls of it, with the events `q` left. -/
def State.polledTimes (s : State) (n : Nat) (q : List HostEvent) : State :=
  { s with hostQueue := q, hostLog := s.hostLog ++ List.replicate n s.statusPoll }

theorem polledTimes_zero (s : State) : s.polledTimes 0 s.hostQueue = s := by
  simp [State.polledTimes]

/-- A poll changes nothing that a poll reads. -/
theorem polledTimes_succ (s : State) (n : Nat) (q q' : List HostEvent) :
    s.polledTimes (n + 1) q = (s.polled.queued q').polledTimes n q := by
  simp only [State.polledTimes, List.replicate_succ]
  rw [List.append_cons]
  rfl

/-- While BUSY a WAIT makes the polls of its schedule (R121, R379). -/
theorem run_wait_late (late k : Nat) {s : State} {rest : List HostEvent} (hq : s.hostQueue = .wait late :: rest)
    (hb : s.busy = true) :
    Sys2Proof.core.run (late + k) s = Sys2Proof.core.run k (s.polledTimes late (.wait 0 :: rest)) := by
  induction late generalizing s with
  | zero => rw [← hq, polledTimes_zero, Nat.zero_add]
  | succ n ih =>
    rw [Nat.add_right_comm, run_succ (step_wait_late hq hb), polledTimes_succ s n _ (.wait n :: rest)]
    exact ih rfl hb

/-- The end of a WAIT while BUSY: the sequencer's turn faults, or it leaves the core idle for the last poll (R121). -/
theorem run_wait_turn {s : State} {rest : List HostEvent} (hq : s.hostQueue = .wait 0 :: rest) (hb : s.busy = true) :
    (∃ f, Sys2Proof.core.run 2 s = .fault f) ∨
    ∃ u : State, Sys2Proof.core.run 3 s = .next (u.queued rest).polled ∧
      u.busy = false ∧ u.status.done = true ∧ u.hostLog = s.hostLog := by
  have hstep : step (s.queued (.coreTurn :: .wait 0 :: rest)) = coreTurn (s.queued (.wait 0 :: rest)) :=
    step_coreTurn rfl
  cases hturn : coreTurn (s.queued (.wait 0 :: rest)) with
  | fault f => exact .inl ⟨f, (run_succ (step_wait_turn hq hb) 1).trans (run_fault (hstep.trans hturn) 0)⟩
  | refused r => exact absurd hturn (coreTurn_not_refused _ r)
  | next u =>
    obtain ⟨hidle, hdone, huq, hlog⟩ := coreTurn_busy (s := s.queued (.wait 0 :: rest)) hb hturn
    refine .inr ⟨u, ?_, hidle, hdone, hlog⟩
    calc Sys2Proof.core.run 3 s
        = Sys2Proof.core.run 2 (s.queued (.coreTurn :: .wait 0 :: rest)) := run_succ (step_wait_turn hq hb) 2
      _ = Sys2Proof.core.run 1 u := run_succ (hstep.trans hturn) 1
      _ = .next (u.queued rest).polled := run_succ (step_wait_idle huq hidle) 0

/-- Settles O60: an idle core is polled once; a busy one by the WAIT's schedule, and then the sequencer's turn ends
the WAIT. -/
theorem waitEnds : Obligations.WaitEnds := by
  refine fun s late rest hq => ⟨fun hb => ⟨_, run_succ (step_wait_idle hq hb) 0, rfl⟩, fun hb => ?_⟩
  rcases run_wait_turn (s := s.polledTimes late (.wait 0 :: rest)) rfl hb with
    ⟨⟨b, k⟩, hfault⟩ | ⟨u, hrun, hidle, hdone, hlog⟩
  · exact .inl ⟨b, k, (run_wait_late late 2 hq hb).trans hfault⟩
  · refine .inr ⟨_, (run_wait_late late 3 hq hb).trans hrun, rfl, hidle, hdone,
      List.replicate late s.statusPoll ++ [u.statusPoll], by simp, ?_, pollCount_busy_polls hb u late⟩
    calc u.hostLog ++ [u.statusPoll]
        = s.hostLog ++ List.replicate late s.statusPoll ++ [u.statusPoll] := by rw [hlog]; rfl
      _ = s.hostLog ++ (List.replicate late s.statusPoll ++ [u.statusPoll]) := List.append_assoc ..

end Sys2Proof.Machine
end

section
/-! PROOF. The byte field and the GF unit (O19–O22). `gmul` carries XOR to XOR in either factor and commutes with the
product by `x`, and every byte is an XOR of powers of `x`: the field laws follow by induction over such sums. -/

namespace Sys2Proof.Machine

/-! ### XOR of conditional values -/

theorem ite_boolXor_zero {w : Nat} (c d : Bool) (m : BitVec w) :
    (if c ^^ d then m else 0) = (if c then m else 0) ^^^ (if d then m else 0) := by
  cases c <;> cases d <;> simp

theorem ite_xor_zero {w : Nat} (c : Bool) (m m' : BitVec w) :
    (if c then m ^^^ m' else 0) = (if c then m else 0) ^^^ (if c then m' else 0) := by
  cases c <;> simp

theorem ite_xor_eq_xor_ite {w : Nat} (c : Bool) (p m : BitVec w) :
    (if c then p ^^^ m else p) = p ^^^ (if c then m else 0) := by
  cases c <;> simp

/-! ### The bytes as XORs of powers of `x` -/

/-- The product by `x`, as a round of the multiplication loop computes it (R141). -/
def xtime (a : Byte) : Byte := (a <<< 1) ^^^ (if a.getLsbD 7 then 0x1B else 0)

theorem xtime_xor (a b : Byte) : xtime (a ^^^ b) = xtime a ^^^ xtime b := by
  simp only [xtime, BitVec.shiftLeft_xor_distrib, BitVec.getLsbD_xor, ite_boolXor_zero]
  ac_rfl

theorem xtime_ite (c : Bool) (a : Byte) : xtime (if c then a else 0) = if c then xtime a else 0 :=
  apply_ite xtime ..

theorem xtime_twoPow : ∀ i < 7, xtime (.twoPow 8 i) = .twoPow 8 (i + 1) := by decide

/-- What holds of the powers of two and of XORs holds of every byte whose bits from `n` up are 0. -/
theorem byte_induction_below {P : Byte → Prop} (twoPow : ∀ i < 8, P (.twoPow 8 i))
    (xor : ∀ a b, P a → P b → P (a ^^^ b)) {n : Nat} (hn : n ≤ 8) {x : Byte}
    (hx : ∀ i, n ≤ i → x.getLsbD i = false) : P x := by
  induction n generalizing x with
  | zero =>
    have hzero : x = 0 := BitVec.eq_of_getLsbD_eq fun i _ => by simp [hx i]
    exact hzero ▸ xor _ _ (twoPow 0 (by decide)) (twoPow 0 (by decide))
  | succ n ih =>
    cases hbit : x.getLsbD n with
    | false =>
      refine ih (by omega) fun i hi => ?_
      rcases hi.eq_or_lt with rfl | hlt
      · exact hbit
      · exact hx i hlt
    | true =>
      have hclear : P (x ^^^ .twoPow 8 n) := by
        refine ih (by omega) fun i hi => ?_
        rcases hi.eq_or_lt with rfl | hlt
        · simp [hbit, Nat.lt_of_succ_le hn]
        · simp [hx i hlt, hlt.ne]
      have hback : (x ^^^ .twoPow 8 n) ^^^ .twoPow 8 n = x := by simp
      exact hback ▸ xor _ _ hclear (twoPow n (by omega))

/-- Every byte is an XOR of powers of two. -/
theorem byte_induction_twoPow {P : Byte → Prop} (twoPow : ∀ i < 8, P (.twoPow 8 i))
    (xor : ∀ a b, P a → P b → P (a ^^^ b)) (x : Byte) : P x :=
  byte_induction_below twoPow xor le_rfl fun i hi => BitVec.getLsbD_of_ge x i hi

/-- Every byte is made from 1 by XOR and the product by `x`. -/
theorem byte_induction_xtime {P : Byte → Prop} (one : P 1) (step : ∀ a, P a → P (xtime a))
    (xor : ∀ a b, P a → P b → P (a ^^^ b)) (x : Byte) : P x := by
  refine byte_induction_twoPow (fun i hi => ?_) xor x
  induction i with
  | zero => exact one
  | succ i ih => exact xtime_twoPow i (by omega) ▸ step _ (ih (by omega))

/-! ### The multiplication loop -/

theorem gmulLoop_succ (n : Nat) (a b p : Byte) :
    gmulLoop (n + 1) a b p = gmulLoop n (xtime a) (b >>> 1) (p ^^^ if b.getLsbD 0 then a else 0) :=
  congrArg (gmulLoop n (xtime a) (b >>> 1)) (ite_xor_eq_xor_ite ..)

theorem gmulLoop_xor_left (n : Nat) (a a' b p p' : Byte) :
    gmulLoop n (a ^^^ a') b (p ^^^ p') = gmulLoop n a b p ^^^ gmulLoop n a' b p' := by
  induction n generalizing a a' b p p' with
  | zero => rfl
  | succ n ih =>
    simp only [gmulLoop_succ, xtime_xor, ite_xor_zero, ← ih]
    ac_rfl

theorem gmulLoop_xor_right (n : Nat) (a b b' p p' : Byte) :
    gmulLoop n a (b ^^^ b') (p ^^^ p') = gmulLoop n a b p ^^^ gmulLoop n a b' p' := by
  induction n generalizing a b b' p p' with
  | zero => rfl
  | succ n ih =>
    simp only [gmulLoop_succ, BitVec.ushiftRight_xor_distrib, BitVec.getLsbD_xor, ite_boolXor_zero, ← ih]
    ac_rfl

theorem gmulLoop_xtime (n : Nat) (a b p : Byte) :
    gmulLoop n (xtime a) b (xtime p) = xtime (gmulLoop n a b p) := by
  induction n generalizing a b p with
  | zero => rfl
  | succ n ih => rw [gmulLoop_succ, gmulLoop_succ, ← ih, xtime_xor, xtime_ite]

/-! ### The laws of `gmul` -/

theorem gmul_xor_left (a a' b : Byte) : gmul (a ^^^ a') b = gmul a b ^^^ gmul a' b :=
  gmulLoop_xor_left 8 a a' b 0 0

theorem gmul_xor_right (a b b' : Byte) : gmul a (b ^^^ b') = gmul a b ^^^ gmul a b' :=
  gmulLoop_xor_right 8 a b b' 0 0

theorem gmul_xtime_left (a b : Byte) : gmul (xtime a) b = xtime (gmul a b) :=
  gmulLoop_xtime 8 a b 0

theorem gmul_zero (a : Byte) : gmul a 0 = 0 := by
  simpa using gmul_xor_right a 0 0

theorem gmul_one (a : Byte) : gmul a 1 = a := by
  induction a using byte_induction_xtime with
  | one => rfl
  | step a ih => rw [gmul_xtime_left, ih]
  | xor a a' ih ih' => rw [gmul_xor_left, ih, ih']

theorem one_gmul (a : Byte) : gmul 1 a = a := by
  induction a using byte_induction_twoPow with
  | twoPow i hi => decide +revert
  | xor a a' ih ih' => rw [gmul_xor_right, ih, ih']

theorem gmul_xtime_right (a b : Byte) : gmul a (xtime b) = xtime (gmul a b) := by
  induction a using byte_induction_xtime with
  | one => rw [one_gmul, one_gmul]
  | step a ih => rw [gmul_xtime_left, gmul_xtime_left, ih]
  | xor a a' ih ih' => rw [gmul_xor_left, gmul_xor_left, ih, ih', xtime_xor]

theorem gmul_two (a : Byte) : gmul a 2 = xtime a := by
  rw [show (2 : Byte) = xtime 1 from rfl, gmul_xtime_right, gmul_one]

theorem gmul_comm (a b : Byte) : gmul a b = gmul b a := by
  induction a using byte_induction_xtime with
  | one => rw [one_gmul, gmul_one]
  | step a ih => rw [gmul_xtime_left, gmul_xtime_right, ih]
  | xor a a' ih ih' => rw [gmul_xor_left, gmul_xor_right, ih, ih']

theorem gmul_assoc (a b c : Byte) : gmul (gmul a b) c = gmul a (gmul b c) := by
  induction a using byte_induction_xtime with
  | one => rw [one_gmul, one_gmul]
  | step a ih => rw [gmul_xtime_left, gmul_xtime_left, gmul_xtime_left, ih]
  | xor a a' ih ih' => rw [gmul_xor_left, gmul_xor_left, gmul_xor_left, ih, ih']

/-! ### The product of polynomials -/

theorem polyTerms_succ (a b : Byte) (n : Nat) :
    polyTerms a b (n + 1) = polyTerms a b n ^^^ if b.getLsbD n then a.setWidth 16 <<< n else 0 :=
  congrArg (polyTerms a b n ^^^ ·) (Bool.cond_eq_ite ..)

theorem polyTerms_xor_left (a a' b : Byte) (n : Nat) :
    polyTerms (a ^^^ a') b n = polyTerms a b n ^^^ polyTerms a' b n := by
  induction n with
  | zero => exact (BitVec.xor_self (x := 0)).symm
  | succ n ih =>
    simp only [polyTerms_succ, ih, BitVec.setWidth_xor, BitVec.shiftLeft_xor_distrib, ite_xor_zero]
    ac_rfl

theorem polyTerms_xor_right (a b b' : Byte) (n : Nat) :
    polyTerms a (b ^^^ b') n = polyTerms a b n ^^^ polyTerms a b' n := by
  induction n with
  | zero => exact (BitVec.xor_self (x := 0)).symm
  | succ n ih =>
    simp only [polyTerms_succ, ih, BitVec.getLsbD_xor, ite_boolXor_zero]
    ac_rfl

theorem polyCancel_succ (n : Nat) (p : BitVec 16) :
    polyCancel (n + 1) p = polyCancel n (p ^^^ if p.getLsbD (n + 8) then (0x11B : BitVec 16) <<< n else 0) :=
  congrArg (polyCancel n) ((Bool.cond_eq_ite ..).trans (ite_xor_eq_xor_ite ..))

theorem polyCancel_xor (n : Nat) (p q : BitVec 16) : polyCancel n (p ^^^ q) = polyCancel n p ^^^ polyCancel n q := by
  induction n generalizing p q with
  | zero => rfl
  | succ n ih =>
    simp only [polyCancel_succ, BitVec.getLsbD_xor, ite_boolXor_zero, ← ih]
    ac_rfl

theorem polyReduce_xor (p q : BitVec 16) : polyReduce (p ^^^ q) = polyReduce p ^^^ polyReduce q :=
  (congrArg _ (polyCancel_xor 7 p q)).trans BitVec.setWidth_xor

theorem polyReduce_polyProduct_xor_left (a a' b : Byte) :
    polyReduce (polyProduct (a ^^^ a') b) = polyReduce (polyProduct a b) ^^^ polyReduce (polyProduct a' b) :=
  (congrArg _ (polyTerms_xor_left a a' b 8)).trans (polyReduce_xor ..)

theorem polyReduce_polyProduct_xor_right (a b b' : Byte) :
    polyReduce (polyProduct a (b ^^^ b')) = polyReduce (polyProduct a b) ^^^ polyReduce (polyProduct a b') :=
  (congrArg _ (polyTerms_xor_right a b b' 8)).trans (polyReduce_xor ..)

theorem gmul_twoPow_twoPow :
    ∀ i < 8, ∀ j < 8,
      gmul (.twoPow 8 i) (.twoPow 8 j) = polyReduce (polyProduct (.twoPow 8 i) (.twoPow 8 j)) := by
  decide

/-- R140: both products are bilinear, and they agree on the powers of `x`. -/
theorem gmul_eq_polyReduce (a b : Byte) : gmul a b = polyReduce (polyProduct a b) := by
  induction a using byte_induction_twoPow with
  | twoPow i hi =>
    induction b using byte_induction_twoPow with
    | twoPow j hj => exact gmul_twoPow_twoPow i hi j hj
    | xor b b' ih ih' => rw [gmul_xor_right, polyReduce_polyProduct_xor_right, ih, ih']
  | xor a a' ih ih' => rw [gmul_xor_left, polyReduce_polyProduct_xor_left, ih, ih']

/-- Settles O20, law by law. -/
theorem gmulFieldLaws : Obligations.GmulFieldLaws := fun a b c =>
  ⟨gmul_comm a b, gmul_assoc a b c, gmul_zero a, gmul_one a, gmul_two a, gmul_eq_polyReduce a b⟩

/-! ### Powers and the inverse -/

/-- `a^n` in GF(2^8), by repeated multiplication. -/
def gpow (a : Byte) (n : Nat) : Byte := (gmul a)^[n] 1

theorem gpow_one (a : Byte) : gpow a 1 = a := gmul_one a

theorem gpow_succ (a : Byte) (n : Nat) : gpow a (n + 1) = gmul a (gpow a n) :=
  Function.iterate_succ_apply' ..

theorem gmul_gpow_gpow (a : Byte) (m n : Nat) : gmul (gpow a m) (gpow a n) = gpow a (m + n) := by
  induction m with
  | zero => rw [Nat.zero_add]; exact one_gmul _
  | succ m ih => rw [gpow_succ, gmul_assoc, ih, Nat.succ_add, gpow_succ]

/-- R142: the exponents 2, 4, …, 128 of the squarings add up to 254. -/
theorem ginv_eq_gpow (a : Byte) : ginv a = gpow a 254 := by
  calc ginv a = ginvLoop 7 (gpow a 1) (gpow a 0) := by rw [gpow_one]; rfl
    _ = gpow a 254 := by simp only [ginvLoop, gmul_gpow_gpow, Nat.reduceAdd]

theorem ginv_zero : ginv 0 = 0 := by
  rw [ginv_eq_gpow, gpow_succ, gmul_comm, gmul_zero]

theorem gmul_self_xor (a b : Byte) : gmul (a ^^^ b) (a ^^^ b) = gmul a a ^^^ gmul b b := by
  rw [gmul_xor_left, gmul_xor_right, gmul_xor_right, gmul_comm b a, BitVec.xor_assoc, ← BitVec.xor_assoc (gmul a b),
    BitVec.xor_self, BitVec.zero_xor]

theorem gpow_two_mul (a : Byte) (n : Nat) : gpow a (2 * n) = gmul (gpow a n) (gpow a n) := by
  rw [gmul_gpow_gpow, Nat.two_mul]

/-- Squaring carries XOR to XOR, and so does each of its iterates. -/
theorem gpow_two_pow_xor (a b : Byte) (k : Nat) : gpow (a ^^^ b) (2 ^ k) = gpow a (2 ^ k) ^^^ gpow b (2 ^ k) := by
  induction k with
  | zero => simp only [Nat.pow_zero, gpow_one]
  | succ k ih => rw [Nat.pow_succ', gpow_two_mul, gpow_two_mul, gpow_two_mul, ih, gmul_self_xor]

theorem gpow_mul (a : Byte) (m n : Nat) : gpow a (m * n) = gpow (gpow a m) n := by
  induction n with
  | zero => rfl
  | succ n ih => rw [Nat.mul_succ, Nat.add_comm, ← gmul_gpow_gpow, ih, gpow_succ]

theorem gpow_x_256 : gpow 2 256 = 2 := by
  have h4 : gpow 2 4 = 0x10 := by decide
  have h16 : gpow 0x10 4 = 0x5E := by decide
  have h64 : gpow 0x5E 4 = 0x4D := by decide
  have h256 : gpow 0x4D 4 = 2 := by decide
  calc gpow 2 256 = gpow (gpow (gpow (gpow 2 4) 4) 4) 4 := by simp only [← gpow_mul, Nat.reduceMul]
    _ = 2 := by rw [h4, h16, h64, h256]

theorem twoPow_eq_gpow : ∀ i < 8, .twoPow 8 i = gpow 2 i := by decide

/-- `a^256 = a`: it holds of the powers of `x`, and both sides carry XOR to XOR. -/
theorem gpow_256 (a : Byte) : gpow a 256 = a := by
  induction a using byte_induction_twoPow with
  | twoPow i hi => rw [twoPow_eq_gpow i hi, ← gpow_mul, Nat.mul_comm, gpow_mul, gpow_x_256]
  | xor a b iha ihb => exact (gpow_two_pow_xor a b 8).trans (congrArg₂ _ iha ihb)

/-- A byte with an inverse has the power 254 as its inverse. -/
theorem ginv_eq_of_gmul_eq_one {a b : Byte} (h : gmul a b = 1) : ginv a = b := by
  have h255 : gmul (ginv a) a = 1 := by
    calc gmul (ginv a) a = gmul a (gpow a 254) := by rw [gmul_comm, ginv_eq_gpow]
      _ = gmul (gmul a (gpow a 254)) (gmul a b) := by rw [h, gmul_one]
      _ = gmul (gmul a (gmul a (gpow a 254))) b := by rw [← gmul_assoc, gmul_comm _ a]
      _ = gmul (gpow a 256) b := by rw [← gpow_succ, ← gpow_succ]
      _ = 1 := by rw [gpow_256, h]
  calc ginv a = gmul (ginv a) (gmul a b) := by rw [h, gmul_one]
    _ = b := by rw [← gmul_assoc, h255, one_gmul]

/-! ### The S-boxes -/

/-- The inverse of the affine transform of R143. -/
def invAffine (y : Byte) : Byte := y.rotateLeft 1 ^^^ y.rotateLeft 3 ^^^ y.rotateLeft 6 ^^^ 0x05

theorem affine_invAffine : ∀ y : Byte, affine (invAffine y) = y := by decide

/-- R145: the table of S gives the inverse of every byte but 0. -/
theorem gmul_invAffine_sbox : ∀ a : Byte, a ≠ 0 → gmul a (invAffine (sbox a)) = 1 := by decide

/-- R142: every byte but 0 has its inverse. -/
theorem gmul_ginv {a : Byte} (ha : a ≠ 0) : gmul a (ginv a) = 1 := by
  have h := gmul_invAffine_sbox a ha
  rwa [ginv_eq_of_gmul_eq_one h]

/-- R143, R145: the table of S is the affine transform of the inverse. -/
theorem sbox_eq_affine_ginv (x : Byte) : sbox x = affine (ginv x) := by
  by_cases hx : x = 0
  · rw [hx, ginv_zero]
    rfl
  · rw [ginv_eq_of_gmul_eq_one (gmul_invAffine_sbox x hx), affine_invAffine]

/-- Settles O22: the table by the inverses it gives, the power by the law of exponents. -/
theorem sboxTableIsAlgebra : Obligations.SboxTableIsAlgebra := by
  refine fun x => ⟨sbox_eq_affine_ginv x, ?_⟩
  calc ginv x = gpow x 254 := ginv_eq_gpow x
    _ = (gmul x)^[253] (gmul x 1) := Function.iterate_succ_apply ..
    _ = (gmul x)^[253] x := by rw [gmul_one]

theorem invSbox_sbox : ∀ x : Byte, invSbox (sbox x) = x := by decide

theorem sbox_invSbox : ∀ x : Byte, sbox (invSbox x) = x := by decide

/-- Settles O21, by the two tables. -/
theorem sboxesAreMutuallyInverse : Obligations.SboxesAreMutuallyInverse :=
  ⟨fun x => ⟨invSbox_sbox x, sbox_invSbox x⟩, rfl⟩

/-- A byte rotated left by `n` has at place `i` the bit that was `n` places lower, modulo 8. -/
theorem getLsbD_rotateLeft_byte (b : Byte) {n k i : Nat} (hk : 0 < k) (h : n + k = 8) (hi : i < 8) :
    (b.rotateLeft n).getLsbD i = b.getLsbD ((i + k) % 8) := by
  rw [BitVec.getLsbD_rotateLeft, Nat.mod_eq_of_lt (by omega)]
  by_cases hlow : i < n
  · rw [decide_eq_true hlow, cond_true]
    congr 1
    omega
  · rw [decide_eq_false hlow, cond_false, decide_eq_true hi, Bool.true_and]
    congr 1
    omega

/-- R143, bit by bit. -/
theorem getLsbD_affine (b : Byte) {i : Nat} (hi : i < 8) :
    (affine b).getLsbD i =
      (b.getLsbD i ^^ b.getLsbD ((i + 4) % 8) ^^ b.getLsbD ((i + 5) % 8) ^^ b.getLsbD ((i + 6) % 8) ^^
        b.getLsbD ((i + 7) % 8) ^^ (0x63 : Byte).getLsbD i) := by
  have h1 := getLsbD_rotateLeft_byte b (n := 1) (k := 7) (by decide) rfl hi
  have h2 := getLsbD_rotateLeft_byte b (n := 2) (k := 6) (by decide) rfl hi
  have h3 := getLsbD_rotateLeft_byte b (n := 3) (k := 5) (by decide) rfl hi
  have h4 := getLsbD_rotateLeft_byte b (n := 4) (k := 4) (by decide) rfl hi
  simp only [affine, BitVec.getLsbD_xor, h1, h2, h3, h4, Bool.xor_assoc, Bool.xor_left_comm]

/-! ### The commands of the GF unit -/

/-- The commands' common end: GF_R and the completion of R335. -/
theorem writeGfR_eq (s : State) (v : Byte) : s.writeGfR v = .next { s.justDone with gfR := v } := rfl

/-- Settles O19: each command writes GF_R and completes; what it writes, by the lemmas on its function. -/
theorem gfCommandsComplete : Obligations.GfCommandsComplete := by
  refine fun s => ⟨?_, ⟨ginv s.gfA, writeGfR_eq s _, fun h => ?_, gmul_ginv⟩,
    ⟨sbox s.gfA, writeGfR_eq s _, fun i hi => ?_⟩, invSbox s.gfA, writeGfR_eq s _, sbox_invSbox s.gfA⟩
  · rw [← gmul_eq_polyReduce]
    exact writeGfR_eq s _
  · rw [h, ginv_zero]
  · rw [sbox_eq_affine_ginv, getLsbD_affine _ hi]

end Sys2Proof.Machine
end

section
/-! PROOF. The key schedule (O23, O24). KEY_EXPAND completes in the expanded state; of its RK, the words follow by the
laws of `expandWords`, the first bytes are the key's, and the bytes past the schedule are 0. -/

namespace Sys2Proof.Machine

/-! ### The word functions -/

theorem rcon_succ {j : Nat} (hj : 1 ≤ j) : rcon (j + 1) = gmul (rcon j) 0x02 := by
  obtain ⟨k, rfl⟩ := Nat.exists_eq_add_of_le' hj
  rfl

/-- Settles O24: the word functions and the powers of `x` by computing, the recurrence by that of the powers. -/
theorem keyScheduleWordFunctions : Obligations.KeyScheduleWordFunctions :=
  ⟨fun _ _ _ _ => ⟨rfl, rfl⟩, rfl, fun _ => rcon_succ, by decide⟩

/-! ### The bytes of an expanded key -/

/-- The expansion keeps the key as its first bytes (R160). -/
theorem byteAt_expandKey_of_lt {key : Bytes} (h4 : key.length % 4 = 0) {k : Nat} (hk : k < key.length) :
    byteAt (expandKey key) k = byteAt key k := by
  rw [expandKey, byteAt_flatMap_words, wordAt_expandWords_of_lt (by omega), getElem_ofBytes]
  simp [byteAt, Nat.div_add_mod]

theorem byteAt_of_length_le {b : Bytes} {k : Nat} (h : b.length ≤ k) : byteAt b k = 0 :=
  List.getD_eq_default _ _ h

/-- RK is 0 beyond the schedule (R48). -/
theorem byteAt_expandKey_of_ge {key : Bytes} {k : Nat} (h : 16 * (key.length / 4 + 7) ≤ k) :
    byteAt (expandKey key) k = 0 :=
  byteAt_of_length_le (by rw [length_expandKey, length_expandWords]; omega)

/-! ### RK after an expansion -/

section
variable {s : State} (hk : s.KeyLegal)
include hk

theorem exec_keyExpand_of_keyLegal : exec .keyExpand s = .next s.expand.complete := by
  rw [exec, execKeyExpand, withChecks_of_pass]
  exact firstError_of_passes (by simpa [checks] using (passes_keyLength s).2 hk)

/-- A legal KEY_LEN is one of three numbers. -/
theorem toNat_keyLen_of_keyLegal : s.keyLen.toNat = 16 ∨ s.keyLen.toNat = 24 ∨ s.keyLen.toNat = 32 := by
  rcases hk with h | h | h <;> simp [h]

/-- Only a key of 32 bytes has 8 words. -/
theorem keyLen_div_four_eq_eight_iff : s.keyLen.toNat / 4 = 8 ↔ s.keyLen = 32 := by
  rcases hk with h | h | h <;> simp [h]

/-- RK begins with the key in use (R160). -/
theorem getElem?_expand_rk_of_lt {k : Nat} (h : k < s.keyLen.toNat) : s.expand.rk[k]? = s.key[k]? := by
  have hlen := State.length_keyBytes hk
  have hle := toNat_keyLen_of_keyLegal hk
  have hk32 : k < 32 := by omega
  have hbyte : byteAt s.keyBytes k = s.key[k] := by
    rw [byteAt_eq_getElem (by omega)]
    simp [State.keyBytes]
  rw [Vector.getElem?_eq_getElem (show k < 240 by omega), Vector.getElem?_eq_getElem hk32, State.expand_rk,
    getElem_ofBytes, byteAt_expandKey_of_lt (by omega) (by omega), hbyte]

/-- RK is 0 beyond the schedule of the key in use (R48). -/
theorem getElem?_expand_rk_of_ge {k : Nat} (h : 16 * (s.keyLen.toNat / 4 + 7) ≤ k) (h240 : k < 240) :
    s.expand.rk[k]? = some 0 := by
  rw [Vector.getElem?_eq_getElem h240, State.expand_rk, getElem_ofBytes,
    byteAt_expandKey_of_ge (by rwa [State.length_keyBytes hk])]

/-- The recurrence of R160 for the words of RK. -/
theorem scheduleWord_expand_rk {i : Nat} (h1 : s.keyLen.toNat / 4 ≤ i) (h2 : i < 4 * (s.keyLen.toNat / 4 + 7)) :
    scheduleWord s.expand.rk i = xorV (scheduleWord s.expand.rk (i - s.keyLen.toNat / 4))
      (scheduleStep (s.keyLen.toNat / 4) i (scheduleWord s.expand.rk (i - 1))) := by
  have hlen := State.length_keyBytes hk
  have hle := toNat_keyLen_of_keyLegal hk
  rw [State.expand_rk, scheduleWord_ofBytes _ (by omega), scheduleWord_ofBytes _ (by omega),
    scheduleWord_ofBytes _ (by omega), ← hlen]
  exact wordAt_expandWords (by omega) (by omega) (by omega)

end

/-- Settles O23: the command completes in the expanded state; each claim on RK is a lemma above. -/
theorem keyExpandCompletes : Obligations.KeyExpandCompletes := by
  refine fun s hk => ⟨s.expand.complete, exec_keyExpand_of_keyLegal hk, ?_, rfl,
    fun k => getElem?_expand_rk_of_lt hk, fun i h1 h2 => ?_, fun k => getElem?_expand_rk_of_ge hk⟩
  · rw [← State.length_keyBytes hk]
    rfl
  · simpa only [State.complete_rk, scheduleStep, keyLen_div_four_eq_eight_iff hk] using scheduleWord_expand_rk hk h1 h2

end Sys2Proof.Machine
end

section
/-! PROOF. The round transforms (O25–O27). A block is read by row and column: the row shifts move a byte within its
row, the column mixes act on each column alone, and their two matrices are inverse by the laws of `gmul`. -/

namespace Sys2Proof.Machine

/-! ### Rows and columns -/

/-- Blocks that agree in every row and column are equal (R15). -/
theorem block_ext_rowColumn {a b : Block} (h : ∀ r c : Fin 4, a[4 * c.val + r.val] = b[4 * c.val + r.val]) :
    a = b := by
  refine Vector.ext fun k hk => ?_
  have hdiv : 4 * (k / 4) + k % 4 = k := Nat.div_add_mod k 4
  simpa only [hdiv] using h ⟨k % 4, by omega⟩ ⟨k / 4, by omega⟩

/-- Blocks with the same columns are equal. -/
theorem block_ext_column {a b : Block} (h : ∀ c, column a c = column b c) : a = b :=
  block_ext_rowColumn fun r c => by simpa [column] using congrArg (fun w : KeyWord => w[r]) (h c)

/-! ### The row shifts -/

/-- R182: row `r` moves left by `r` places. -/
theorem getElem_shiftRows (b : Block) (r c : Fin 4) :
    (shiftRows b)[4 * c.val + r.val] = b[4 * ((c.val + r.val) % 4) + r.val] := by
  fin_cases r <;> fin_cases c <;> rfl

/-- R183: row `r` moves right by `r` places. -/
theorem getElem_invShiftRows (b : Block) (r c : Fin 4) :
    (invShiftRows b)[4 * ((c.val + r.val) % 4) + r.val] = b[4 * c.val + r.val] := by
  fin_cases r <;> fin_cases c <;> rfl

theorem invShiftRows_shiftRows (b : Block) : invShiftRows (shiftRows b) = b := by
  refine block_ext_rowColumn fun r c => ?_
  obtain ⟨d, rfl⟩ : ∃ d, c = d + r := ⟨c - r, (sub_add_cancel c r).symm⟩
  exact (getElem_invShiftRows _ r d).trans (getElem_shiftRows b r d)

/-! ### The byte substitutions -/

theorem invSubBytes_subBytes (b : Block) : invSubBytes (subBytes b) = b :=
  Vector.ext fun k hk => by simp [invSubBytes, subBytes, invSbox_sbox]

/-! ### The column mixes -/

theorem getElem_onColumns (f : KeyWord → KeyWord) (b : Block) (r c : Fin 4) :
    (onColumns f b)[4 * c.val + r.val] = (f (column b c))[r] := by
  fin_cases c <;> fin_cases r <;> rfl

theorem column_onColumns (f : KeyWord → KeyWord) (b : Block) (c : Fin 4) :
    column (onColumns f b) c = f (column b c) :=
  Vector.ext fun r hr => by simpa [column] using getElem_onColumns f b ⟨r, hr⟩ c

/-- The matrix of R184 is the cyclic one of 02 03 01 01. -/
theorem getElem_mixColumn (a : KeyWord) (r : Fin 4) :
    (mixColumn a)[r] = cyclicRow #v[0x02, 0x03, 0x01, 0x01] r a := by
  fin_cases r <;> simp [mixColumn, cyclicRow, List.range_succ]

theorem mixColumn_eq (a : KeyWord) :
    mixColumn a = byteString fun r : Fin 4 => cyclicRow #v[0x02, 0x03, 0x01, 0x01] r a :=
  Vector.ext fun r hr => by simpa using getElem_mixColumn a ⟨r, hr⟩

/-- The matrix of R185 is the cyclic one of 0E 0B 0D 09. -/
theorem getElem_invMixColumn (a : KeyWord) (r : Fin 4) :
    (invMixColumn a)[r] = cyclicRow #v[0x0E, 0x0B, 0x0D, 0x09] r a := by
  fin_cases r <;> simp [invMixColumn, cyclicRow, List.range_succ]

/-- Row 0 of the product of the cyclic matrices of rows `p` and `q`: the entry of `q` beside `p[i]` is at place
`j - i` modulo 4. -/
def cyclicProduct (p q : KeyWord) : KeyWord :=
  byteString fun j : Fin 4 =>
    gmul p[0] q[j] ^^^ gmul p[1] q[j + 3] ^^^ gmul p[2] q[j + 2] ^^^ gmul p[3] q[j + 1]

/-- The product of two cyclic matrices is cyclic. -/
theorem cyclicRow_cyclicRow (p q x : KeyWord) (r : Fin 4) :
    cyclicRow p r (byteString fun i : Fin 4 => cyclicRow q i x) = cyclicRow (cyclicProduct p q) r x := by
  fin_cases r <;>
    simp [cyclicRow, List.range_succ, cyclicProduct, gmul_xor_left, gmul_xor_right, gmul_assoc] <;> ac_rfl

/-- Row 1 0 0 0 gives the identity matrix. -/
theorem cyclicRow_one (x : KeyWord) (r : Fin 4) : cyclicRow #v[1, 0, 0, 0] r x = x[r] := by
  have hone : ∀ a, gmul 1#8 a = a := one_gmul
  have hzero : ∀ a, gmul 0#8 a = 0#8 := fun a => (gmul_comm 0 a).trans (gmul_zero a)
  fin_cases r <;> simp [cyclicRow, List.range_succ, hone, hzero]

/-- The matrices of R184 and R185 are inverse: their product is the identity. -/
theorem invMixColumn_mixColumn (a : KeyWord) : invMixColumn (mixColumn a) = a := by
  have hone : cyclicProduct #v[0x0E, 0x0B, 0x0D, 0x09] #v[0x02, 0x03, 0x01, 0x01] = #v[1, 0, 0, 0] := by decide
  refine Vector.ext fun r hr => ?_
  calc (invMixColumn (mixColumn a))[(⟨r, hr⟩ : Fin 4)]
      = cyclicRow #v[0x0E, 0x0B, 0x0D, 0x09] r (mixColumn a) := getElem_invMixColumn _ ⟨r, hr⟩
    _ = cyclicRow #v[1, 0, 0, 0] r a := by rw [mixColumn_eq, cyclicRow_cyclicRow _ _ _ ⟨r, hr⟩, hone]
    _ = a[r] := cyclicRow_one a ⟨r, hr⟩

theorem invMixColumns_mixColumns (b : Block) : invMixColumns (mixColumns b) = b :=
  block_ext_column fun c => by
    rw [invMixColumns, mixColumns, column_onColumns, column_onColumns, invMixColumn_mixColumn]

/-- Settles O27: a law for each transform, and XOR with the round key twice. -/
theorem roundTransformInverses : Obligations.RoundTransformInverses := fun b _ _ =>
  ⟨invSubBytes_subBytes b, invShiftRows_shiftRows b, invMixColumns_mixColumns b, xorV_cancel_right ..⟩

/-! ### The commands of unit 0x3 -/

/-- The commands' common end: STATE and the completion of R335. -/
theorem writeBlock_eq (s : State) (b : Block) : s.writeBlock b = .next { s.justDone with block := b } := rfl

/-- Settles O25: each command writes STATE and completes; what it writes, by the lemmas on its transform. -/
theorem roundTransformsComplete : Obligations.RoundTransformsComplete := by
  refine fun s => ⟨⟨subBytes s.block, writeBlock_eq s _, fun k => ?_⟩,
    ⟨invSubBytes s.block, writeBlock_eq s _, fun k => ?_⟩,
    ⟨shiftRows s.block, writeBlock_eq s _, getElem_shiftRows s.block⟩,
    ⟨invShiftRows s.block, writeBlock_eq s _, getElem_invShiftRows s.block⟩,
    ⟨mixColumns s.block, writeBlock_eq s _, fun r c => ?_⟩,
    invMixColumns s.block, writeBlock_eq s _, fun r c => ?_⟩
  · exact getElem_byteString _ k k.isLt
  · exact (congrArg sbox (getElem_byteString _ k k.isLt)).trans (sbox_invSbox _)
  · exact (getElem_onColumns _ _ r c).trans (getElem_mixColumn _ r)
  · exact (getElem_onColumns _ _ r c).trans (getElem_invMixColumn _ r)

/-- NR is at most 14: that of a 32-byte key, or 0 without a schedule (R168). -/
theorem State.Inv.nr_le {s : State} (h : s.Inv) : s.status.nr.toNat ≤ 14 := by
  have hschedule := h.schedule
  unfold ScheduleLegal at hschedule
  split at hschedule
  · obtain ⟨_, hmem, -⟩ := hschedule
    have hall : ∀ p ∈ [(16, (10 : BitVec 4)), (24, 12), (32, 14)], p.2.toNat ≤ 14 := by decide
    exact hall _ hmem
  · simp [hschedule.1]

/-- R186: byte `k` of round key `round` is a byte of RK, up to round 14. -/
theorem getElem?_rk_eq_roundKey {rk : ByteString 240} {round : Nat} (hround : round ≤ 14) (k : Fin 16) :
    rk[16 * round + k.val]? = some (roundKey rk round)[k] := by
  have hk : 16 * round + k.val < 240 := by omega
  simp [roundKey, Vector.getElem?_eq_getElem hk]

/-- ADD_ROUND_KEY wants a schedule, then a round of it (R193). -/
theorem firstError_addRoundKey (s : State) (round : Nat) :
    firstError s (checks (.addRoundKey round)) =
      if s.status.keyValid then (if round ≤ s.status.nr.toNat then none else some .invalidParameter)
      else some .noKeySchedule := by
  simp [checks, firstError, Check.passes, Check.error]

/-- A failed check of ADD_ROUND_KEY leaves all but the completion and the code (R342). -/
theorem exec_addRoundKey_of_error {s : State} {round : Nat} {e : ErrCode}
    (h : firstError s (checks (.addRoundKey round)) = some e) :
    exec (.addRoundKey round) s = .next { s.justDone with
      status := { s.justDone.status with err := true, errCode := e } } := by
  rw [exec, execAddRoundKey, withChecks_of_error _ h]
  rfl

/-- Settles O26: the first check that fails names the error; with none, the round key lies in RK. -/
theorem addRoundKeyCompletes : Obligations.AddRoundKeyCompletes := by
  refine fun s round hs => ⟨fun hkv hle => ⟨addRoundKey s.rk round s.block, ?_, fun k => ?_⟩,
    fun hkv => exec_addRoundKey_of_error ?_, fun hkv hlt => exec_addRoundKey_of_error ?_⟩
  · rw [exec, execAddRoundKey, withChecks_of_pass _ (by simp [firstError_addRoundKey, hkv, hle])]
    exact writeBlock_eq s _
  · exact ⟨_, getElem?_rk_eq_roundKey (hle.trans hs.nr_le) k, getElem_xorV _ _ k k.isLt⟩
  · simp [firstError_addRoundKey, hkv]
  · simp [firstError_addRoundKey, hkv, hlt]

end Sys2Proof.Machine
end

section
/-! PROOF. The block core (O28–O30). A stage list runs from left to right, so the full rounds of R201 and R202 give the
two round recursions; decryption then undoes encryption round by round. -/

namespace Sys2Proof.Machine

/-! ### Running stages -/

theorem runStages_cons (rk : ByteString 240) (g : Stage) (gs : List Stage) (b : Block) :
    runStages rk (g :: gs) b = runStages rk gs (g.apply rk b) := rfl

theorem runStages_append (rk : ByteString 240) (gs hs : List Stage) (b : Block) :
    runStages rk (gs ++ hs) b = runStages rk hs (runStages rk gs b) :=
  List.foldl_append

/-- R201: after the first AddRoundKey and `n` full rounds. -/
theorem runStages_fullRounds (rk : ByteString 240) (b : Block) (n : Nat) :
    runStages rk (⟨0, .addRoundKey⟩ :: (List.range n).flatMap fun i => fullRound (i + 1)) b =
      encryptionRound rk b n := by
  induction n with
  | zero => rfl
  | succ n ih =>
    rw [List.range_succ, List.flatMap_append, ← List.cons_append, runStages_append, ih, List.flatMap_singleton]
    rfl

/-- R202 from the top: the `i`-th full round of decryption is labelled Nr-(i+1). -/
theorem decryptStages_eq (nr : Nat) : decryptStages nr =
    ⟨nr, .addRoundKey⟩ :: ((List.range (nr - 1)).flatMap fun i => invFullRound (nr - (i + 1))) ++
      [⟨0, .invShiftRows⟩, ⟨0, .invSubBytes⟩, ⟨0, .addRoundKey⟩] := by
  have hrounds : (List.range (nr - 1)).reverse.flatMap (fun i => invFullRound (i + 1)) =
      (List.range (nr - 1)).flatMap fun i => invFullRound (nr - (i + 1)) := by
    rw [List.range_eq_range', List.reverse_range', List.flatMap_map, List.range_eq_range']
    refine List.flatMap_congr fun i hi => ?_
    have hlt : i < nr - 1 := by simpa using hi
    congr 1
    omega
  rw [decryptStages, hrounds]

/-- R202: after the first AddRoundKey and `n` full rounds. -/
theorem runStages_invFullRounds (rk : ByteString 240) (nr : Nat) (b : Block) (n : Nat) :
    runStages rk (⟨nr, .addRoundKey⟩ :: (List.range n).flatMap fun i => invFullRound (nr - (i + 1))) b =
      decryptionRound rk nr b n := by
  induction n with
  | zero => rfl
  | succ n ih =>
    rw [List.range_succ, List.flatMap_append, ← List.cons_append, runStages_append, ih, List.flatMap_singleton]
    rfl

/-! ### The round loop -/

theorem encrypt_eq (rk : ByteString 240) (nr : Nat) (b : Block) :
    encrypt rk nr b = addRoundKey rk nr (shiftRows (subBytes (encryptionRound rk b (nr - 1)))) := by
  rw [encrypt, encryptStages, runStages_append, runStages_fullRounds]
  rfl

theorem decrypt_eq (rk : ByteString 240) (nr : Nat) (b : Block) :
    decrypt rk nr b = addRoundKey rk 0 (invSubBytes (invShiftRows (decryptionRound rk nr b (nr - 1)))) := by
  rw [decrypt, decryptStages_eq, runStages_append, runStages_invFullRounds]
  rfl

/-- Settles O28: the stage lists run to the two recursions, whatever the number of rounds. -/
theorem cipherFollowsTheRoundLoop : Obligations.CipherFollowsTheRoundLoop :=
  fun rk nr b _ => ⟨encrypt_eq rk nr b, decrypt_eq rk nr b⟩

/-! ### Decryption undoes encryption -/

theorem addRoundKey_addRoundKey (rk : ByteString 240) (r : Nat) (b : Block) :
    addRoundKey rk r (addRoundKey rk r b) = b := xorV_cancel_right ..

/-- After `n` full rounds, decryption has undone the last `n` rounds of the encryption but for the SubBytes and ShiftRows
of the round before them. -/
theorem decryptionRound_encrypt (rk : ByteString 240) {nr : Nat} (b : Block) {n : Nat} (hn : n + 1 ≤ nr) :
    decryptionRound rk nr (encrypt rk nr b) n = shiftRows (subBytes (encryptionRound rk b (nr - (n + 1)))) := by
  induction n with
  | zero => rw [decryptionRound, encrypt_eq, addRoundKey_addRoundKey]
  | succ n ih =>
    obtain ⟨m, hm⟩ : ∃ m, nr - (n + 1) = m + 1 := ⟨nr - (n + 2), by omega⟩
    have hprev : nr - (n + 1 + 1) = m := by omega
    rw [decryptionRound, ih (by omega), invShiftRows_shiftRows, invSubBytes_subBytes, hm, encryptionRound,
      addRoundKey_addRoundKey, invMixColumns_mixColumns, hprev]

/-- Settles O29: all full rounds are undone, then the last stages undo round 0. -/
theorem decryptInvertsEncrypt : Obligations.DecryptInvertsEncrypt := by
  intro rk nr b hnr
  have hlast : nr - (nr - 1 + 1) = 0 := by omega
  rw [decrypt_eq, decryptionRound_encrypt rk b (by omega), invShiftRows_shiftRows, invSubBytes_subBytes, hlast,
    encryptionRound, addRoundKey_addRoundKey]

/-! ### The commands of unit 0x4 -/

/-- The block commands' one check is that of KEY_LEN (R163). -/
theorem firstError_of_keyLegal {s : State} (hk : s.KeyLegal) {i : Instr} (hi : checks i = [.keyLength]) :
    firstError s (checks i) = none :=
  firstError_of_passes (by simpa [hi] using (passes_keyLength s).2 hk)

/-- A block command's end after the expansion: STATE, the records let through, and the completion. -/
theorem writeBlock_emit_expand (s : State) (rs : List TraceRecord) (b : Block) :
    (s.expand.emit rs).writeBlock b =
      .next { s.expandedDone with block := b, trace := s.trace ++ s.traced rs } := rfl

theorem emitEncryptions_singleton (s : State) (b : Block) :
    s.emitEncryptions [b] = s.emit (encryptRecords s.rk s.status.nr.toNat 0 b) := by
  simp [State.emitEncryptions]

theorem emitDecryptions_singleton (s : State) (b : Block) :
    s.emitDecryptions [b] = s.emit (decryptRecords s.rk s.status.nr.toNat 0 b) := by
  simp [State.emitDecryptions]

theorem exec_encBlock_of_keyLegal {s : State} (hk : s.KeyLegal) :
    exec .encBlock s = (s.expand.emitEncryptions [s.expand.block]).writeBlock (s.expand.E s.expand.block) := by
  rw [exec, execEncBlock, withChecks_of_pass _ (firstError_of_keyLegal hk rfl)]

theorem exec_decBlock_of_keyLegal {s : State} (hk : s.KeyLegal) :
    exec .decBlock s = (s.expand.emitDecryptions [s.expand.block]).writeBlock (s.expand.D s.expand.block) := by
  rw [exec, execDecBlock, withChecks_of_pass _ (firstError_of_keyLegal hk rfl)]

/-- Settles O30: the check passes, the records are those of block 0, and NR is Nk + 6. -/
theorem blockCommandsComplete : Obligations.BlockCommandsComplete := by
  refine fun s hk => ⟨?_, ?_⟩
  · rw [exec_encBlock_of_keyLegal hk, emitEncryptions_singleton, writeBlock_emit_expand, State.E, nr_expand hk,
      State.expand_block]
  · rw [exec_decBlock_of_keyLegal hk, emitDecryptions_singleton, writeBlock_emit_expand, State.D, nr_expand hk,
      State.expand_block]

end Sys2Proof.Machine
end

section
/-! PROOF. The trace (O16–O18). A block's records are read by their place: the record of a stage holds the state after the
stages up to it. The words on the trace port are read field by field. -/

namespace Sys2Proof.Machine

/-! ### The records of a list of stages -/

@[simp] theorem length_stageRecords (rk : ByteString 240) (blk : Nat) (dir : Direction) (gs : List Stage) (b : Block) :
    (stageRecords rk blk dir gs b).length = gs.length := by
  induction gs generalizing b with
  | nil => rfl
  | cons g gs ih => simp [stageRecords, ih]

/-- R205: record `k` is labelled by stage `k`, and its snapshot is the state after the stages up to it. -/
theorem getElem_stageRecords (rk : ByteString 240) (blk : Nat) (dir : Direction) (gs : List Stage) (b : Block) (k : Nat)
    (h : k < (stageRecords rk blk dir gs b).length) :
    (stageRecords rk blk dir gs b)[k] =
      { block := blk, round := (gs[k]'(by simpa using h)).round, op := (gs[k]'(by simpa using h)).op, dir := dir,
        snapshot := runStages rk (gs.take (k + 1)) b } := by
  induction gs generalizing b k with
  | nil => simp [stageRecords] at h
  | cons g gs ih =>
    cases k with
    | zero => rfl
    | succ k => exact ih (g.apply rk b) k _

/-- The records of the INPUT pseudo-stage and the stages after it are those of one block (R206, R207). -/
theorem tracesBlock_stageRecords (rk : ByteString 240) (blk : Nat) (dir : Direction) (r : Nat) (gs : List Stage)
    (b : Block) :
    TracesBlock rk blk dir ((⟨r, .input⟩ :: gs).map fun g => (g.round, g.op)) b (runStages rk gs b)
      (stageRecords rk blk dir (⟨r, .input⟩ :: gs) b) := by
  refine ⟨?_, fun x hx => ?_, rfl, ?_, fun k hk => ?_⟩
  · exact List.ext_getElem (by simp) fun k h1 h2 => by
      rw [List.getElem_map, List.getElem_map, getElem_stageRecords]
  · obtain ⟨k, hk, rfl⟩ := List.getElem_of_mem hx
    simp [getElem_stageRecords]
  · have hlast : gs.length < (stageRecords rk blk dir (⟨r, .input⟩ :: gs) b).length := by simp
    rw [List.getLast?_eq_getElem?, length_stageRecords, List.length_cons, Nat.add_sub_cancel,
      List.getElem?_eq_getElem hlast, getElem_stageRecords]
    simp [runStages_cons, Stage.apply]
  · rw [getElem_stageRecords, getElem_stageRecords]
    exact foldl_take_succ (fun s g => Stage.apply rk g s) b _ _ (by simpa using hk)

/-! ### The labels of the round loops -/

theorem length_encryptStages {nr : Nat} (h : 1 ≤ nr) : (encryptStages nr).length = 4 * nr := by
  simp [encryptStages, fullRound]
  omega

theorem length_decryptStages {nr : Nat} (h : 1 ≤ nr) : (decryptStages nr).length = 4 * nr := by
  simp [decryptStages, invFullRound]
  omega

theorem labels_encryptStages (nr : Nat) :
    ((⟨0, .input⟩ :: encryptStages nr).map fun g : Stage => (g.round, g.op)) = encryptLabels nr := by
  simp [encryptStages, encryptLabels, roundLabels, fullRound, List.map_flatMap]

theorem labels_decryptStages (nr : Nat) :
    ((⟨nr, .input⟩ :: decryptStages nr).map fun g : Stage => (g.round, g.op)) = decryptLabels nr := by
  simp [decryptStages_eq, decryptLabels, roundLabels, invFullRound, List.map_flatMap, Nat.sub_sub, Nat.add_comm 1]

/-- Settles O17: both directions send the records of a stage list; the lists have the lengths and labels claimed. -/
theorem blockTraceRecords : Obligations.BlockTraceRecords := by
  refine fun rk nr blk b hnr => ⟨?_, ?_, ?_, ?_⟩
  · rw [encryptRecords, length_stageRecords, List.length_cons, length_encryptStages hnr]
  · rw [← labels_encryptStages]
    exact tracesBlock_stageRecords ..
  · rw [decryptRecords, length_stageRecords, List.length_cons, length_decryptStages hnr]
  · rw [← labels_decryptStages]
    exact tracesBlock_stageRecords ..

/-! ### TRACE_EN -/

/-- Settles O16: a next state with the trace off, and a fault, are two cases of the agreement of the two runs. -/
theorem traceEnableIsPureObservation : Obligations.TraceEnableIsPureObservation := by
  intro i s w
  have hagree := agree_exec i s w
  refine ⟨fun t ht => ?_, fun f hf => ?_⟩
  · rwa [show exec i (latched s w false) = .next t from ht] at hagree
  · rwa [show exec i (latched s w false) = .fault f from hf] at hagree

/-! ### A record on the trace port -/

/-- Byte `i` of a little-endian number (R14). -/
theorem leNat_div_mod (b : Bytes) (i : Nat) : leNat b / 256 ^ i % 256 = (byteAt b i).toNat := by
  induction i generalizing b with
  | zero =>
    cases b with
    | nil => rfl
    | cons x b => simp [leNat, byteAt, Nat.mod_eq_of_lt x.isLt]
  | succ i ih =>
    cases b with
    | nil => simp [leNat, byteAt]
    | cons x b =>
      have hstep : leNat (x :: b) / 256 = leNat b := by
        have hx := x.isLt
        simp only [leNat, List.foldr_cons]
        omega
      rw [Nat.pow_succ', ← Nat.div_div_eq_div_mul, hstep, ih]
      rfl

/-- Byte lane `i` of the word of a little-endian string. -/
theorem extractLsb'_leValue (b : Bytes) {i : Nat} (hi : i < 4) :
    (leValue 32 b).extractLsb' (8 * i) 8 = byteAt b i := by
  have hsplit : (2 : Nat) ^ 32 = 256 ^ i * 256 ^ (4 - i) := by
    rw [← Nat.pow_add, Nat.add_sub_cancel' (by omega)]
    norm_num
  have hbyte : (2 : Nat) ^ 8 = 256 := by norm_num
  have hdvd : 256 ∣ 256 ^ (4 - i) := dvd_pow_self 256 (by omega)
  refine BitVec.eq_of_toNat_eq ?_
  rw [BitVec.extractLsb'_toNat, leValue, toNat_beValue _ (by norm_num), ← leNat_eq, Nat.shiftRight_eq_div_pow, pow_mul,
    hbyte, hsplit, Nat.mod_mul_right_div_self, Nat.mod_mod_of_dvd _ hdvd, leNat_div_mod]

/-- Where word 0 of a record has its fields (R205). -/
theorem recordWord_fields {w : Word} {dir : BitVec 1} {op : BitVec 3} {round : BitVec 4} {blk : BitVec 16}
    (hw : w = (0 : BitVec 7) ++ dir ++ (0 : BitVec 1) ++ op ++ round ++ blk) :
    w.extractLsb' 0 16 = blk ∧ w.extractLsb' 16 4 = round ∧ w.extractLsb' 20 3 = op ∧ w.getLsbD 23 = false ∧
      w.getLsbD 24 = dir.getLsbD 0 ∧ w.extractLsb' 25 7 = 0 := by
  subst hw
  refine ⟨BitVec.extractLsb'_append_eq_right, ?_, ?_, ?_, ?_, ?_⟩
  · rw [BitVec.extractLsb'_append_eq_of_le (by decide), BitVec.extractLsb'_append_eq_right]
  · rw [BitVec.extractLsb'_append_eq_of_le (by decide), BitVec.extractLsb'_append_eq_of_le (by decide),
      BitVec.extractLsb'_append_eq_right]
  · simp only [BitVec.getLsbD_append]
    rfl
  · simp only [BitVec.getLsbD_append]
    rfl
  · simp (disch := decide) only [BitVec.extractLsb'_append_eq_of_le]
    rfl

/-- Word `1 + j` of a record holds bytes `4j` to `4j + 3` of the snapshot (R205). -/
theorem getElem?_words_succ (r : TraceRecord) {j : Nat} (hj : j < 4) :
    r.words[1 + j]? = some (leValue 32 (((bytesOf r.snapshot).drop (4 * j)).take 4)) := by
  rw [Nat.add_comm]
  simp [TraceRecord.words, hj]

theorem extractLsb'_snapshotWord (b : Block) (k : Fin 16) :
    (leValue 32 (((bytesOf b).drop (4 * (k.val / 4))).take 4)).extractLsb' (8 * (k.val % 4)) 8 = b[k] := by
  have hlen : k.val % 4 < (((bytesOf b).drop (4 * (k.val / 4))).take 4).length := by simp; omega
  rw [extractLsb'_leValue _ (by omega), byteAt_eq_getElem hlen, List.getElem_take, List.getElem_drop,
    getElem_bytesOf]
  simp only [Nat.div_add_mod]
  rfl

/-- Settles O18: word 0 by its fields, words 1 to 4 by the byte lanes of the snapshot. -/
theorem traceRecordWords : Obligations.TraceRecordWords := by
  refine fun r => ⟨rfl, fun w hw => ?_, fun k => ?_⟩
  · obtain ⟨hblk, hround, hop, h23, hdir, hrest⟩ := recordWord_fields (Option.some.inj hw).symm
    exact ⟨hblk, hround, hop.trans (by cases r.op <;> rfl), h23, hdir.trans (by cases r.dir <;> rfl), hrest⟩
  · exact ⟨_, getElem?_words_succ r (by omega), extractLsb'_snapshotWord r.snapshot k⟩

end Sys2Proof.Machine
end

section
/-! PROOF. The basic modes (O31–O39). Each mode function's result and records are read off by the laws of Modes.lean, and
the frame of the mode commands carries them to the next state. Decryption undoes the stream modes because it XORs the
same keystream again. -/

namespace Sys2Proof.Machine

/-! ### The checks of the mode commands -/

section
variable {s : State} {m : Bytes} {i : Instr}

theorem passes_msgFits (hm : s.HasMessage m) : Check.passes s .msgFits = true := by
  obtain ⟨-, hfits, -⟩ := hm
  simpa [Check.passes] using hfits

theorem passes_msgAligned (hm : s.HasMessage m) (h16 : m.length % 16 = 0) : Check.passes s .msgAligned = true := by
  obtain ⟨hlen, -⟩ := hm
  simpa [Check.passes, ← hlen] using h16

theorem passes_msgNonempty (hm : s.HasMessage m) (h0 : m.length ≠ 0) : Check.passes s .msgNonempty = true := by
  obtain ⟨hlen, -⟩ := hm
  have hne : s.msgLen ≠ 0 := fun h => h0 (by simp [hlen, h])
  simpa [Check.passes] using hne

theorem passes_ivPresent (hiv : s.ivLen = 16) : Check.passes s .ivPresent = true := by simp [Check.passes, hiv]

theorem passes_ivIs16 (hiv : s.ivLen = 16) : Check.passes s .ivIs16 = true := by simp [Check.passes, hiv]

theorem passes_noncePresent (hn : s.nonceLen = 16) : Check.passes s .noncePresent = true := by
  simp [Check.passes, hn]

theorem passes_nonceIs16 (hn : s.nonceLen = 16) : Check.passes s .nonceIs16 = true := by simp [Check.passes, hn]

/-- The checks of the commands that need KEY and IV (R340). -/
theorem firstError_of_ivLen (hi : checks i = [.keyLength, .msgFits, .ivPresent, .ivIs16]) (hk : s.KeyLegal)
    (hm : s.HasMessage m) (hiv : s.ivLen = 16) : firstError s (checks i) = none :=
  firstError_of_passes (by simp [hi, (passes_keyLength s).2 hk, passes_msgFits hm, passes_ivPresent hiv,
    passes_ivIs16 hiv])

/-- The checks of the CTR commands (R340). -/
theorem firstError_of_nonceLen (hi : checks i = [.keyLength, .msgFits, .noncePresent, .nonceIs16]) (hk : s.KeyLegal)
    (hm : s.HasMessage m) (hn : s.nonceLen = 16) : firstError s (checks i) = none :=
  firstError_of_passes (by
    simp [hi, (passes_keyLength s).2 hk, passes_msgFits hm, passes_noncePresent hn, passes_nonceIs16 hn])

/-- The checks of the ECB commands (R340). -/
theorem firstError_of_aligned (hi : checks i = [.keyLength, .msgFits, .msgAligned]) (hk : s.KeyLegal)
    (hm : s.HasMessage m) (h16 : m.length % 16 = 0) : firstError s (checks i) = none :=
  firstError_of_passes (by
    simp [hi, (passes_keyLength s).2 hk, passes_msgFits hm, passes_msgAligned hm h16])

/-- The checks of CBC_DEC (R340). -/
theorem firstError_cbcDec (hk : s.KeyLegal) (hm : s.HasMessage m) (hiv : s.ivLen = 16) (h16 : m.length % 16 = 0)
    (h0 : m.length ≠ 0) : firstError s (checks .cbcDec) = none :=
  firstError_of_passes (by
    simp [checks, (passes_keyLength s).2 hk, passes_msgFits hm, passes_ivPresent hiv, passes_ivIs16 hiv,
      passes_msgAligned hm h16, passes_msgNonempty hm h0])

/-! ### The end of a mode command -/

/-- R230: a mode command whose checks pass and whose function succeeds on its message. -/
theorem modeCommand_output_of_hasMessage {F : State → Bytes → Ending} {out : Bytes} {t : State}
    (hp : firstError s (checks i) = none) (hm : s.HasMessage m) (hF : F s.expand m = .output out t) :
    modeCommand i F s = .next (t.completeOut out) :=
  modeCommand_output hp (State.bufRead_of_hasMessage hm) hF

/-- A completion that writes as many bytes as the message, with records sent. -/
theorem completeOut_emit_expand {out : Bytes} (hm : s.HasMessage m) (hlen : out.length = m.length)
    (rs : List TraceRecord) :
    (s.expand.emit rs).completeOut out = { s.expandedDone with
      mem := ((s.expand.emit rs).completeOut out).mem
      outLen := s.msgLen
      trace := s.trace ++ s.traced rs } := by
  simp only [State.completeOut, State.setOutLen, hlen, State.msgLen_of_hasMessage hm]
  rfl

end

/-! ### ECB -/

theorem length_blocks_of_aligned {m : Bytes} (h16 : m.length % 16 = 0) : (blocks m).length = m.length / 16 := by
  rw [length_blocks]
  omega

theorem length_concat_map_blocks (C : Block → Block) {m : Bytes} (h16 : m.length % 16 = 0) :
    (concat ((blocks m).map C)).length = m.length := by
  rw [length_concat, List.length_map, length_blocks_of_aligned h16]
  omega

theorem blockAt_concat_map_blocks (C : Block → Block) {m : Bytes} {j : Nat} (hj : j < m.length / 16) :
    blockAt (concat ((blocks m).map C)) j = C (blockAt m j) := by
  rw [blockAt_concat _ _ (by simp; omega), List.getElem_map, getElem_blocks_eq]

/-- The records of the encrypted blocks of a message of whole blocks (R246). -/
theorem emitEncryptions_blocks (s : State) {m : Bytes} (h16 : m.length % 16 = 0) :
    s.emitEncryptions (blocks m) = s.emit ((List.range (m.length / 16)).flatMap fun j =>
      encryptRecords s.rk s.status.nr.toNat j (blockAt m j)) := by
  rw [State.emitEncryptions_eq s _ (blockAt m) fun j h => getElem_blocks_eq m j h, length_blocks_of_aligned h16]

/-- The records of the decrypted blocks of a message of whole blocks (R246). -/
theorem emitDecryptions_blocks (s : State) {m : Bytes} (h16 : m.length % 16 = 0) :
    s.emitDecryptions (blocks m) = s.emit ((List.range (m.length / 16)).flatMap fun j =>
      decryptRecords s.rk s.status.nr.toNat j (blockAt m j)) := by
  rw [State.emitDecryptions_eq s _ (blockAt m) fun j h => getElem_blocks_eq m j h, length_blocks_of_aligned h16]

/-- Settles O31: both commands send every block through the cipher of their direction. -/
theorem ecbCommandsComplete : Obligations.EcbCommandsComplete := by
  intro s m hk hm h16
  have hlen (C : Block → Block) := length_concat_map_blocks C h16
  constructor
  · rw [exec, execEcbEnc]
    exact ⟨_, _, modeCommand_output_of_hasMessage (firstError_of_aligned rfl hk hm h16) hm
        (congrArg _ (emitEncryptions_blocks _ h16)),
      stored_completeOut _ rfl, hlen _, fun j => blockAt_concat_map_blocks _,
      completeOut_emit_expand hm (hlen _) _⟩
  · rw [exec, execEcbDec]
    exact ⟨_, _, modeCommand_output_of_hasMessage (firstError_of_aligned rfl hk hm h16) hm
        (congrArg _ (emitDecryptions_blocks _ h16)),
      stored_completeOut _ rfl, hlen _, fun j => blockAt_concat_map_blocks _,
      completeOut_emit_expand hm (hlen _) _⟩

/-! ### CBC -/

theorem length_blocks_pad (m : Bytes) : (blocks (pad m)).length = m.length / 16 + 1 := by
  rw [length_blocks, length_pad]
  omega

/-- R235: the `j`-th cipher input, by the ciphertext as a string. -/
theorem getElem_cbcInputs_eq (E : Block → Block) (iv : Block) (p : Bytes) (j : Nat)
    (h : j < (cbcInputs E iv (blocks p)).length) :
    (cbcInputs E iv (blocks p))[j] =
      xorV (blockAt p j) (if j = 0 then iv else blockAt (concat (cbcEncrypt E iv (blocks p))) (j - 1)) := by
  rw [length_cbcInputs] at h
  rw [getElem_cbcInputs, getElem_blocks_eq, blockAt_concat _ _ (by simp at h ⊢; omega)]
  by_cases h0 : j = 0 <;> simp [h0]

/-- R235: a block of the ciphertext is the cipher of its input. -/
theorem blockAt_cbcEncrypt (E : Block → Block) (iv : Block) (p : Bytes) {j : Nat} (h : j < (blocks p).length) :
    blockAt (concat (cbcEncrypt E iv (blocks p))) j = E (xorV (blockAt p j)
      (if j = 0 then iv else blockAt (concat (cbcEncrypt E iv (blocks p))) (j - 1))) := by
  rw [← getElem_cbcInputs_eq E iv p j (by simpa using h), blockAt_concat _ _ (by simpa using h)]
  simp [cbcEncrypt]

/-- Settles O32: the padded message is one block longer than the message's whole blocks, and its cipher inputs chain. -/
theorem cbcEncCompletes : Obligations.CbcEncCompletes := by
  intro s m p hk hm hiv hpad
  obtain rfl : p = pad m := hpad
  have hlen : (concat (cbcEncrypt s.expand.E s.iv (blocks (pad m)))).length = 16 * (m.length / 16 + 1) := by
    rw [length_concat, length_cbcEncrypt, length_blocks_pad]
  have hsent := State.emitEncryptions_eq s.expand _ _ (getElem_cbcInputs_eq s.expand.E s.iv (pad m))
  rw [length_cbcInputs, length_blocks_pad] at hsent
  rw [exec, execCbcEnc]
  exact ⟨_, _, modeCommand_output_of_hasMessage (firstError_of_ivLen rfl hk hm hiv) hm (congrArg _ hsent),
    stored_completeOut _ rfl, hlen, fun j hj => blockAt_cbcEncrypt _ _ _ (by rw [length_blocks_pad]; omega), rfl⟩

section
variable {s : State} {m : Bytes} (hp : firstError s (checks .cbcDec) = none) (hm : s.HasMessage m)
include hp hm

/-- R237: the decrypted blocks end in padding. -/
theorem exec_cbcDec_of_unpad_some {out : Bytes}
    (hunpad : unpad (concat (cbcDecrypt s.expand.D s.iv (blocks m))) = some out) :
    exec .cbcDec s = .next ((s.expand.emitDecryptions (blocks m)).completeOut out) := by
  rw [exec, execCbcDec]
  exact modeCommand_output_of_hasMessage hp hm (by rw [State.expand_iv, hunpad])

/-- R247: the decrypted blocks end in no padding. -/
theorem exec_cbcDec_of_unpad_none (hunpad : unpad (concat (cbcDecrypt s.expand.D s.iv (blocks m))) = none) :
    exec .cbcDec s =
      .next (((s.expand.emitDecryptions (blocks m)).bufVoid .output m.length).raiseOut .paddingError) := by
  rw [exec, execCbcDec]
  exact modeCommand_raised hp (State.bufRead_of_hasMessage hm) (by rw [State.expand_iv, hunpad])

end

/-- Unpadding the decrypted blocks gives exactly what stands before their padding (R237, R238). -/
theorem unpad_cbcDecrypt_eq_some_iff {D : Block → Block} {iv : Block} {m q : Bytes} (h16 : m.length % 16 = 0)
    (h0 : m.length ≠ 0) (hq : CbcPlain D iv m q) (out : Bytes) :
    unpad (concat (cbcDecrypt D iv (blocks m))) = some out ↔
      ∃ p, 1 ≤ p ∧ p ≤ 16 ∧ q = out ++ List.replicate p (BitVec.ofNat 8 p) := by
  have hlen : q.length = m.length := hq.1
  rw [← cbcPlain_unique h16 hq, unpad_eq_some_iff out (by omega)]

/-- Settles O33: unpadding gives what stands before the padding, and the command completes with it. -/
theorem cbcDecCompletes : Obligations.CbcDecCompletes := by
  intro s m q out p hk hm hiv h16 h0 hq h1 hp16 hpad
  have hunpad := (unpad_cbcDecrypt_eq_some_iff h16 h0 hq out).2 ⟨p, h1, hp16, hpad⟩
  rw [exec_cbcDec_of_unpad_some (firstError_cbcDec hk hm hiv h16 h0) hm hunpad, emitDecryptions_blocks _ h16]
  exact ⟨_, rfl, stored_completeOut _ rfl, rfl⟩

/-- Settles O34: unpadding fails, so after the records OUT[0 : MSG_LEN] is voided and the error raised. -/
theorem cbcDecPaddingError : Obligations.CbcDecPaddingError := by
  intro s m q hwf hk hm hiv h16 h0 hq hnopad
  have hunpad : unpad (concat (cbcDecrypt s.expand.D s.iv (blocks m))) = none := by
    refine Option.eq_none_iff_forall_ne_some.2 fun out hout => ?_
    obtain ⟨p, h1, hp16, hpad⟩ := (unpad_cbcDecrypt_eq_some_iff h16 h0 hq out).1 hout
    exact hnopad out p h1 hp16 hpad
  rw [exec_cbcDec_of_unpad_none (firstError_cbcDec hk hm hiv h16 h0) hm hunpad, emitDecryptions_blocks _ h16]
  exact ⟨_, rfl, fun k hlt => Memory.get?_eraseFrom_inside hwf _ hlt,
    fun a ha => Memory.get?_eraseFrom_outside _ _ _ ha, rfl⟩

theorem unpad_pad (m : Bytes) : unpad (pad m) = some m :=
  (unpad_eq_some_iff m (by rw [length_pad]; omega)).2
    ⟨padLength m.length, by simp only [padLength]; omega, by simp only [padLength]; omega, rfl⟩

/-- R239: the ciphertext block fed back is the same in both directions. -/
theorem cbcDecrypt_cbcEncrypt {E D : Block → Block} (hD : ∀ b, D (E b) = b) (iv : Block) (ps : List Block) :
    cbcDecrypt D iv (cbcEncrypt E iv ps) = ps := by
  induction ps generalizing iv with
  | nil => rfl
  | cons p ps ih =>
    have htail := ih (E (xorV p iv))
    rw [cbcEncrypt] at htail ⊢
    rw [cbcInputs, List.map_cons, cbcDecrypt, hD, xorV_cancel_right, htail]

/-- Settles O35: CBC decryption gives the padded message back, and unpadding the message. -/
theorem cbcRoundTrip : Obligations.CbcRoundTrip := by
  refine ⟨unpad_pad, fun E D iv m hD => ?_⟩
  rw [blocks_concat, cbcDecrypt_cbcEncrypt hD, concat_blocks (by rw [length_pad]; omega), unpad_pad]

/-! ### CTR, CFB and OFB -/

/-- R240: the counter is NONCE plus the block index modulo 2^128. -/
theorem beNat_counterBlock (nonce : Block) (j : Nat) :
    beNat (bytesOf (counterBlock nonce j)) = (beNat (bytesOf nonce) + j) % 2 ^ 128 := by
  rw [counterBlock, beNat_blockOfBe, BitVec.toNat_add, toNat_blockBe, BitVec.toNat_ofNat, Nat.add_mod_mod]

/-- Settles O36: both commands are counter mode from NONCE on. -/
theorem ctrCommandsComplete : Obligations.CtrCommandsComplete := by
  intro s m hk hm hn
  refine ⟨counterMode s.expand.E (counterBlock s.nonce) m, counterBlock s.nonce, beNat_counterBlock s.nonce,
    xoredWith_counterMode _ _ m, fun i hi => ?_⟩
  obtain ⟨hrun, hchecks⟩ : exec i s = modeCommand i ctrFunction s ∧
      checks i = [.keyLength, .msgFits, .noncePresent, .nonceIs16] := by
    simp only [ctrCommands, List.mem_cons, List.not_mem_nil, or_false] at hi
    rcases hi with rfl | rfl <;> exact ⟨rfl, rfl⟩
  exact ⟨_, hrun.trans (modeCommand_output_of_hasMessage (firstError_of_nonceLen hchecks hk hm hn) hm rfl),
    stored_completeOut _ rfl, completeOut_expand hm (length_counterMode ..)⟩

/-- Settles O37: the feedback of either direction is a law of its mode function. -/
theorem cfbCommandsComplete : Obligations.CfbCommandsComplete := by
  intro s m hk hm hiv
  constructor
  · rw [exec, execCfbEnc]
    exact ⟨_, _, modeCommand_output_of_hasMessage (firstError_of_ivLen rfl hk hm hiv) hm rfl, stored_completeOut _ rfl,
      xoredWith_cfbEncrypt _ _ m, completeOut_expand hm (length_cfbEncrypt_partition ..)⟩
  · rw [exec, execCfbDec]
    exact ⟨_, _, modeCommand_output_of_hasMessage (firstError_of_ivLen rfl hk hm hiv) hm rfl, stored_completeOut _ rfl,
      xoredWith_cfbDecrypt _ _ m, completeOut_expand hm (length_cfbDecrypt_partition ..)⟩

/-- Settles O38: both commands are OFB from the IV on. -/
theorem ofbCommandsComplete : Obligations.OfbCommandsComplete := by
  intro s m hk hm hiv
  refine ⟨ofbMode s.expand.E s.iv (partition m), xoredWith_ofbMode _ _ m, fun i hi => ?_⟩
  obtain ⟨hrun, hchecks⟩ : exec i s = modeCommand i ofbFunction s ∧
      checks i = [.keyLength, .msgFits, .ivPresent, .ivIs16] := by
    simp only [ofbCommands, List.mem_cons, List.not_mem_nil, or_false] at hi
    rcases hi with rfl | rfl <;> exact ⟨rfl, rfl⟩
  exact ⟨_, hrun.trans (modeCommand_output_of_hasMessage (firstError_of_ivLen hchecks hk hm hiv) hm rfl),
    stored_completeOut _ rfl, completeOut_expand hm (length_ofbMode_partition ..)⟩

/-! ### Decryption undoes encryption -/

/-- XOR with one keystream twice gives the message back (R236). -/
theorem XoredWith.cancel {ks : Nat → Block} {m c out : Bytes} (h₁ : XoredWith ks m c) (h₂ : XoredWith ks c out) :
    out = m := by
  obtain ⟨hl₁, hb₁⟩ := h₁
  obtain ⟨hl₂, hb₂⟩ := h₂
  refine List.ext_getElem (hl₂.trans hl₁) fun k hk hk' => ?_
  rw [hb₂ k hk (by omega), hb₁ k (by omega) hk', BitVec.xor_assoc, BitVec.xor_self, BitVec.xor_zero]

/-- R276: both directions mask a block with the same mask. -/
theorem xtsMode_xtsMode {E D : Block → Block} (hD : ∀ b, D (E b) = b) (t : Block) (bs : List Block) :
    xtsMode D t (xtsMode E t bs) = bs := by
  induction bs generalizing t with
  | nil => rfl
  | cons b bs ih => rw [xtsMode, xtsMode, xorV_cancel_right, hD, xorV_cancel_right, ih]

/-- Settles O39: the stream modes XOR the same keystream in both directions, CFB's being that of the ciphertext. -/
theorem streamAndXtsRoundTrips : Obligations.StreamAndXtsRoundTrips :=
  fun E _ cb iv m bs =>
    ⟨(xoredWith_counterMode E cb m).cancel (xoredWith_counterMode E cb _),
      (xoredWith_cfbEncrypt E iv m).cancel (xoredWith_cfbDecrypt E iv _),
      (xoredWith_ofbMode E iv m).cancel (xoredWith_ofbMode E iv _),
      fun hD => xtsMode_xtsMode hD iv bs⟩

end Sys2Proof.Machine
end

section
/-! PROOF. XTS, GCM and GHASH (O40–O47). The multiplication loop is linear in either factor, and a first factor with one
bit adds one multiple of the second. The GCM commands find their associated data, read J0 off their nonce's length, and
compare tags by equality; the frame of the mode commands carries their result to the next state. -/

namespace Sys2Proof.Machine

/-! ### Comparing tags -/

theorem foldl_or_eq_zero_iff (bs : Bytes) (acc : Byte) :
    bs.foldl (· ||| ·) acc = 0 ↔ acc = 0 ∧ ∀ x ∈ bs, x = 0 := by
  induction bs generalizing acc with
  | nil => simp
  | cons b bs ih =>
    rw [List.foldl_cons, ih, List.forall_mem_cons, ← and_assoc]
    exact and_congr_left' BitVec.or_eq_zero_iff

/-- Settles O47: the bytes' OR is 0 exactly when every byte of the XOR is. -/
theorem tagEqualIsEquality : Obligations.TagEqualIsEquality := by
  intro a b
  have hbytes : (∀ x ∈ bytesOf (xorV a b), x = 0) ↔ ∀ i (h : i < 16), a[i] = b[i] := by
    simp [List.forall_mem_iff_getElem]
  rw [tagEqual, beq_iff_eq, foldl_or_eq_zero_iff, hbytes, Vector.ext_iff]
  simp

/-! ### Doubling and counting -/

theorem getLsbD_last_iff (v : BitVec 128) : v.getLsbD 127 = true ↔ 2 ^ 127 ≤ v.toNat := by
  rw [← BitVec.msb_eq_getLsbD_last v, BitVec.msb_eq_decide, decide_eq_true_iff]

theorem leNat_xtsDouble (b : Block) :
    leNat (bytesOf (xtsDouble b)) =
      if 2 ^ 127 ≤ leNat (bytesOf b) then (2 * leNat (bytesOf b) - 2 ^ 128) ^^^ 0x87 else 2 * leNat (bytesOf b) := by
  have hlt : leNat (bytesOf b) < 2 ^ 128 := toNat_blockLe b ▸ (blockLe b).isLt
  rw [xtsDouble, leNat_blockOfLe, BitVec.toNat_xor, BitVec.toNat_shiftLeft, Nat.shiftLeft_eq, toNat_blockLe]
  simp only [getLsbD_last_iff, toNat_blockLe]
  split
  · rw [show leNat (bytesOf b) * 2 ^ 1 % 2 ^ 128 = 2 * leNat (bytesOf b) - 2 ^ 128 by omega]
    rfl
  · rw [show leNat (bytesOf b) * 2 ^ 1 % 2 ^ 128 = 2 * leNat (bytesOf b) by omega]
    exact Nat.xor_zero _

theorem bytesOf_inc32 (b : Block) :
    bytesOf (inc32 b) =
      (bytesOf b).take 12 ++ beBytes 4 (beValue 32 ((bytesOf b).drop 12) + BitVec.ofNat 32 1).toNat :=
  bytesOf_ofBytes (by simp)

/-- Settles O46: doubling by the number it shifts, inc32 by the two parts of the block it makes. -/
theorem maskAndCounterSteps : Obligations.MaskAndCounterSteps := by
  intro b
  refine ⟨leNat_xtsDouble b, ?_, ?_⟩
  · rw [bytesOf_inc32, List.take_left' (by simp)]
  · rw [bytesOf_inc32, List.drop_left' (by simp), beNat_beBytes, BitVec.toNat_add, toNat_beValue 32 (by norm_num)]
    simp

/-! ### Blocks as big-endian numbers -/

/-- One byte more at the end of a big-endian number (R14). -/
def beStep (v : BitVec 128) (x : Byte) : BitVec 128 := (v <<< 8) ||| x.setWidth 128

theorem blockBe_eq_foldl (b : Block) : blockBe b = (bytesOf b).foldl beStep 0 := rfl

theorem beStep_eq_xor (v : BitVec 128) (x : Byte) : beStep v x = (v <<< 8) ^^^ x.setWidth 128 := by
  refine BitVec.eq_of_getLsbD_eq fun i hi => ?_
  rcases Nat.lt_or_ge i 8 with h8 | h8
  · simp [beStep, h8]
  · simp [beStep, BitVec.getLsbD_of_ge x i h8]

theorem beStep_xor (v v' : BitVec 128) (x x' : Byte) :
    beStep (v ^^^ v') (x ^^^ x') = beStep v x ^^^ beStep v' x' := by
  simp only [beStep_eq_xor, BitVec.shiftLeft_xor_distrib, BitVec.setWidth_xor]
  ac_rfl

theorem foldl_beStep_xorT {a b : Bytes} (h : a.length = b.length) (v v' : BitVec 128) :
    (xorT a b).foldl beStep (v ^^^ v') = a.foldl beStep v ^^^ b.foldl beStep v' := by
  induction a generalizing b v v' with
  | nil =>
    obtain rfl := List.length_eq_zero_iff.1 h.symm
    rfl
  | cons x a ih =>
    cases b with
    | nil => simp at h
    | cons y b =>
      rw [List.foldl_cons, List.foldl_cons, ← ih (by simpa using h), ← beStep_xor]
      rfl

theorem bytesOf_xorV (a b : Block) : bytesOf (xorV a b) = xorT (bytesOf a) (bytesOf b) :=
  List.ext_getElem (by simp) fun i _ _ => by simp [xorT]

@[simp] theorem blockBe_xorV (a b : Block) : blockBe (xorV a b) = blockBe a ^^^ blockBe b := by
  simpa [blockBe_eq_foldl, bytesOf_xorV] using
    foldl_beStep_xorT (show (bytesOf a).length = (bytesOf b).length by simp) 0 0

theorem blockOfBe_xor (v w : BitVec 128) : blockOfBe (v ^^^ w) = xorV (blockOfBe v) (blockOfBe w) := by
  rw [← blockOfBe_blockBe (xorV _ _), blockBe_xorV, blockBe_blockOfBe, blockBe_blockOfBe]

/-! ### The product -/

/-- The product by `x` in GCM's bit order, as a round of the multiplication loop computes it (R272). -/
def gcmMulX (v : BitVec 128) : BitVec 128 :=
  (v >>> 1) ^^^ (if v.getLsbD 0 then (0xE1 : BitVec 128) <<< 120 else 0)

theorem gcmMulX_xor (v v' : BitVec 128) : gcmMulX (v ^^^ v') = gcmMulX v ^^^ gcmMulX v' := by
  simp only [gcmMulX, BitVec.ushiftRight_xor_distrib, BitVec.getLsbD_xor, ite_boolXor_zero]
  ac_rfl

theorem gcmMulLoop_succ (n : Nat) (x z v : BitVec 128) :
    gcmMulLoop (n + 1) x z v =
      gcmMulLoop n (x <<< 1) (z ^^^ if x.getLsbD 127 then v else 0) (gcmMulX v) :=
  congrArg (gcmMulLoop n (x <<< 1) · (gcmMulX v)) (ite_xor_eq_xor_ite ..)

theorem gcmMulLoop_xor_left (n : Nat) (x x' z z' v : BitVec 128) :
    gcmMulLoop n (x ^^^ x') (z ^^^ z') v = gcmMulLoop n x z v ^^^ gcmMulLoop n x' z' v := by
  induction n generalizing x x' z z' v with
  | zero => rfl
  | succ n ih =>
    simp only [gcmMulLoop_succ, BitVec.shiftLeft_xor_distrib, BitVec.getLsbD_xor, ite_boolXor_zero, ← ih]
    ac_rfl

theorem gcmMulLoop_xor_right (n : Nat) (x z z' v v' : BitVec 128) :
    gcmMulLoop n x (z ^^^ z') (v ^^^ v') = gcmMulLoop n x z v ^^^ gcmMulLoop n x z' v' := by
  induction n generalizing x z z' v v' with
  | zero => rfl
  | succ n ih =>
    simp only [gcmMulLoop_succ, gcmMulX_xor, ite_xor_zero, ← ih]
    ac_rfl

/-- With no bit of the first factor left, nothing more is added. -/
theorem gcmMulLoop_zero_left (n : Nat) (z v : BitVec 128) : gcmMulLoop n 0 z v = z := by
  induction n generalizing z v with
  | zero => rfl
  | succ n ih => simpa [gcmMulLoop_succ] using ih z (gcmMulX v)

/-- The first factor 1, whose one bit is the next. -/
theorem gcmMulLoop_one_left (n : Nat) (v : BitVec 128) : gcmMulLoop (n + 1) (.twoPow 128 127) 0 v = v := by
  have hadd : (0 : BitVec 128) ^^^ (if (BitVec.twoPow 128 127).getLsbD 127 then v else 0) = v := by simp
  rw [gcmMulLoop_succ, hadd, show BitVec.twoPow 128 127 <<< 1 = 0 by decide, gcmMulLoop_zero_left]

theorem gcmMul_xorV_left (x y z : Block) : gcmMul (xorV x y) z = xorV (gcmMul x z) (gcmMul y z) := by
  simpa [gcmMul, blockOfBe_xor] using
    congrArg blockOfBe (gcmMulLoop_xor_left 128 (blockBe x) (blockBe y) 0 0 (blockBe z))

theorem gcmMul_xorV_right (x y z : Block) : gcmMul x (xorV y z) = xorV (gcmMul x y) (gcmMul x z) := by
  simpa [gcmMul, blockOfBe_xor] using
    congrArg blockOfBe (gcmMulLoop_xor_right 128 (blockBe x) 0 0 (blockBe y) (blockBe z))

/-- R272: `80 00…00` is the identity. -/
theorem gcmMul_one_left (y : Block) : gcmMul (ofBytes 16 [0x80]) y = y := by
  rw [gcmMul, show blockBe (ofBytes 16 [0x80]) = .twoPow 128 127 by decide, gcmMulLoop_one_left, blockOfBe_blockBe]

/-- R272: `40 00…00` is `x`. -/
theorem gcmMul_x_left (y : Block) : gcmMul (ofBytes 16 [0x40]) y = blockOfBe (gcmMulX (blockBe y)) := by
  have hfirst : (0 : BitVec 128) ^^^ (if (BitVec.twoPow 128 126).getLsbD 127 then blockBe y else 0) = 0 := by simp
  rw [gcmMul, show blockBe (ofBytes 16 [0x40]) = .twoPow 128 126 by decide, gcmMulLoop_succ, hfirst,
    show BitVec.twoPow 128 126 <<< 1 = .twoPow 128 127 by decide, gcmMulLoop_one_left]

theorem toNat_gcmMulX (v : BitVec 128) :
    (gcmMulX v).toNat = (v.toNat / 2) ^^^ (if v.toNat % 2 = 1 then 0xE1 * 2 ^ 120 else 0) := by
  have hbit : v.getLsbD 0 = true ↔ v.toNat % 2 = 1 := by simp [BitVec.getLsbD, Nat.testBit_zero]
  rw [gcmMulX, BitVec.toNat_xor, BitVec.toNat_ushiftRight, Nat.shiftRight_one, apply_ite BitVec.toNat]
  simp only [hbit]
  rfl

/-! ### GHASH -/

theorem blocks_append_bytesOf {v : Bytes} (h16 : v.length % 16 = 0) (b : Block) :
    blocks (v ++ bytesOf b) = blocks v ++ [b] := by
  have hv : v ++ bytesOf b = concat (blocks v ++ [b]) := by
    simpa [concat] using congrArg (· ++ bytesOf b) (concat_blocks h16).symm
  rw [hv, blocks_concat]

/-- R273: GHASH takes one block after the other. -/
theorem ghashFold_append_bytesOf {v : Bytes} (h16 : v.length % 16 = 0) (h b : Block) :
    ghashFold h (v ++ bytesOf b) = gcmMul (xorV (ghashFold h v) b) h := by
  rw [ghashFold, blocks_append_bytesOf h16, List.foldl_append]
  rfl

/-- Settles O45: the product's laws are those of its loop, GHASH's chain that of its fold. -/
theorem productAndGhashLaws : Obligations.ProductAndGhashLaws := by
  intro x y z h
  refine ⟨gcmMul_one_left y, gcmMul_xorV_left x y z, gcmMul_xorV_right x y z, ?_, rfl,
    fun v h16 => ghashFold_append_bytesOf h16 h x⟩
  rw [gcmMul_x_left, beNat_blockOfBe, toNat_gcmMulX, toNat_blockBe]

/-- Settles O44: the checks pass, and the padding of R273 is zeros up to a multiple of 16. -/
theorem ghashCompletes : Obligations.GhashCompletes := by
  intro s m hk hm
  have hp : firstError s (checks .ghash) = none :=
    firstError_of_passes (by simp [checks, (passes_keyLength s).2 hk, passes_msgFits hm])
  rw [exec, execGhash, withChecks_of_pass _ hp]
  simp only [State.bufRead_expand, State.bufRead_of_hasMessage hm]
  rfl

/-! ### XTS -/

section
variable {s : State} {m : Bytes}

/-- The checks of the XTS commands (R340). -/
theorem firstError_of_tweakLen {i : Instr}
    (hi : checks i = [.keyLength, .msgFits, .tweakPresent, .tweakIs16, .msgAligned]) (hk : s.KeyLegal)
    (hm : s.HasMessage m) (ht : s.tweakLen = 16) (h16 : m.length % 16 = 0) :
    firstError s (checks i) = none :=
  firstError_of_passes (by
    have htweak : Check.passes s .tweakPresent = true ∧ Check.passes s .tweakIs16 = true := by simp [Check.passes, ht]
    simp [hi, (passes_keyLength s).2 hk, passes_msgFits hm, htweak, passes_msgAligned hm h16])

theorem length_concat_xtsMode (C : Block → Block) (t : Block) (h16 : m.length % 16 = 0) :
    (concat (xtsMode C t (blocks m))).length = m.length := by
  rw [length_concat, length_xtsMode, length_blocks_of_aligned h16]
  omega

theorem blockAt_concat_xtsMode (C : Block → Block) (t : Block) {j : Nat} (hj : j < m.length / 16) :
    blockAt (concat (xtsMode C t (blocks m))) j =
      xorV (C (xorV (blockAt m j) (xtsDouble^[j] t))) (xtsDouble^[j] t) := by
  rw [blockAt_concat _ _ (by simp; omega), getElem_xtsMode, getElem_blocks_eq]

end

/-- Settles O40: both commands mask every block alike, around the cipher of their direction. -/
theorem xtsCommandsComplete : Obligations.XtsCommandsComplete := by
  intro s m hk hm ht h16
  rw [← xtsFirstMask_expand]
  have hlen (C : Block → Block) := length_concat_xtsMode C (xtsFirstMask s.expand) h16
  constructor
  · rw [exec, execXtsEnc]
    exact ⟨_, _, modeCommand_output_of_hasMessage (firstError_of_tweakLen rfl hk hm ht h16) hm rfl,
      stored_completeOut _ rfl, hlen _, fun j => blockAt_concat_xtsMode _ _, completeOut_expand hm (hlen _)⟩
  · rw [exec, execXtsDec]
    exact ⟨_, _, modeCommand_output_of_hasMessage (firstError_of_tweakLen rfl hk hm ht h16) hm rfl,
      stored_completeOut _ rfl, hlen _, fun j => blockAt_concat_xtsMode _ _, completeOut_expand hm (hlen _)⟩

/-! ### GCM -/

/-- A completion that writes as many bytes as the message, whatever else the state holds. -/
theorem completeOut_of_hasMessage {s t : State} {m out : Bytes} (hm : s.HasMessage m) (hlen : out.length = m.length) :
    t.completeOut out = { t.bufWrite .output out with outLen := s.msgLen }.complete := by
  rw [State.completeOut, State.setOutLen, hlen, State.msgLen_of_hasMessage hm]

theorem length_ivBytes {s : State} (h : s.ivLen.toNat ≤ 16) : s.ivBytes.length = s.ivLen.toNat := by
  simp [State.ivBytes, h]

theorem passes_auxFits {s : State} {a : Bytes} (ha : s.HasAux a) : Check.passes s .auxFits = true := by
  obtain ⟨-, hfits, -⟩ := ha
  simpa [Check.passes] using hfits

/-- R277: J0 of a nonce of 12 bytes. -/
theorem bytesOf_j0_of_ivLen_eq {s : State} (h : s.ivLen = 12) :
    bytesOf s.j0 = (bytesOf s.iv).take 12 ++ [0, 0, 0, 1] := by
  have hlen : s.ivBytes.length = 12 := by rw [length_ivBytes (by simp [h]), h]; rfl
  rw [State.j0, gcmJ0, if_pos hlen, bytesOf_ofBytes (by simp [hlen]), State.ivBytes, h]
  rfl

/-- R277: J0 of a nonce of another length. -/
theorem j0_of_ivLen_ne {s : State} (h16 : s.ivLen.toNat ≤ 16) (h : s.ivLen ≠ 12) :
    s.j0 = ghashFold (s.E zeroBlock)
      (zpad ((bytesOf s.iv).take s.ivLen.toNat) ++ zeros 8 ++ beBytes 8 (8 * s.ivLen.toNat)) := by
  have hlen := length_ivBytes h16
  rw [State.j0, gcmJ0, if_neg (by rw [hlen]; exact fun h12 => h (BitVec.eq_of_toNat_eq h12)), hlen]
  rfl

section
variable {s : State} {m a : Bytes} (hk : s.KeyLegal) (hm : s.HasMessage m) (ha : s.HasAux a) (h0 : s.ivLen ≠ 0)
  (h16 : s.ivLen.toNat ≤ 16)
include hk hm ha h0 h16

/-- The checks of the GCM commands (R340). -/
theorem firstError_of_hasAux {i : Instr} (hi : checks i = [.keyLength, .msgFits, .auxFits, .ivPresent, .ivAtMost16]) :
    firstError s (checks i) = none := by
  have hiv : Check.passes s .ivPresent = true ∧ Check.passes s .ivAtMost16 = true := by
    simpa [Check.passes] using ⟨h0, h16⟩
  exact firstError_of_passes (by simp [hi, (passes_keyLength s).2 hk, passes_msgFits hm, passes_auxFits ha, hiv])

/-- R280: the ciphertext goes to OUT and its tag to TAG. -/
theorem exec_gcmEnc :
    exec .gcmEnc s = .next (State.completeOut
      { s.expand with tag := gcmTag s.expand.E s.expand.j0 a (gctr s.expand.E (inc32 s.expand.j0) m) }
      (gctr s.expand.E (inc32 s.expand.j0) m)) := by
  rw [exec, execGcmEnc]
  refine modeCommand_output_of_hasMessage (firstError_of_hasAux hk hm ha h0 h16 rfl) hm ?_
  simp only [State.bufRead_expand, State.expand_auxLen, State.bufRead_of_hasAux ha]

/-- R281: TAG holds the tag of the message, and the decryption goes to OUT. -/
theorem exec_gcmDec_of_tag_eq (htag : s.tag = gcmTag s.expand.E s.expand.j0 a m) :
    exec .gcmDec s = .next (State.completeOut
      { s.expand with status := { s.expand.status with tagOk := true } } (gctr s.expand.E (inc32 s.expand.j0) m)) := by
  rw [exec, execGcmDec]
  refine modeCommand_output_of_hasMessage (firstError_of_hasAux hk hm ha h0 h16 rfl) hm ?_
  simp only [State.bufRead_expand, State.expand_auxLen, State.bufRead_of_hasAux ha]
  exact if_pos ((tagEqualIsEquality _ _).2 htag.symm)

/-- R281: TAG holds another tag, and the error leaves the expanded state. -/
theorem exec_gcmDec_of_tag_ne (htag : s.tag ≠ gcmTag s.expand.E s.expand.j0 a m) :
    exec .gcmDec s = .next (s.expand.raiseOut .authenticationFailed) := by
  rw [exec, execGcmDec]
  refine modeCommand_raised (firstError_of_hasAux hk hm ha h0 h16 rfl) (State.bufRead_of_hasMessage hm) ?_
  simp only [State.bufRead_expand, State.expand_auxLen, State.bufRead_of_hasAux ha]
  exact if_neg fun h => htag ((tagEqualIsEquality _ _).1 h).symm

end

/-- Settles O41: the result is GCTR from the block after J0, and J0 is by the nonce's length. -/
theorem gcmEncCompletes : Obligations.GcmEncCompletes := by
  intro s m a hk hm ha h0 h16
  refine ⟨_, _, s.expand.j0, exec_gcmEnc hk hm ha h0 h16, stored_completeOut _ rfl,
    bytesOf_j0_of_ivLen_eq (s := s.expand), j0_of_ivLen_ne (s := s.expand) h16, xoredWith_gctr _ _ m, ?_⟩
  rw [completeOut_of_hasMessage hm (length_gctr ..)]
  rfl

/-- Settles O42: the tags agree, so the result is GCTR from the block after J0. -/
theorem gcmDecCompletes : Obligations.GcmDecCompletes := by
  intro s m a hk hm ha h0 h16 htag
  refine ⟨_, _, exec_gcmDec_of_tag_eq hk hm ha h0 h16 htag, stored_completeOut _ rfl, xoredWith_gctr _ _ m, ?_⟩
  rw [completeOut_of_hasMessage hm (length_gctr ..)]
  rfl

/-- Settles O43: the tags differ, so the error is raised in the expanded state. -/
theorem gcmDecAuthenticationFailed : Obligations.GcmDecAuthenticationFailed := by
  intro s m a hk hm ha h0 h16 htag
  rw [exec_gcmDec_of_tag_ne hk hm ha h0 h16 htag]
  rfl

end Sys2Proof.Machine
end

section
/-! PROOF. HMAC and PBKDF2 (O48–O50). Each command completes with the machine's own digest or derived key, which is one in
the sense of Safety.lean (Laws/Sha256.lean); PBKDF2 runs from the state after salt generation, where the salt is read from
IN whether it was supplied or generated. -/

namespace Sys2Proof.Machine

/-- The state of a command that did not expand the key and wrote a result of length `n`. -/
theorem completeOut_of_length {s : State} {out : Bytes} {n : BitVec 16} (h : out.length = n.toNat) :
    s.completeOut out = { s.justDone with mem := (s.completeOut out).mem, outLen := n } := by
  rw [State.completeOut, State.setOutLen, h, BitVec.ofNat_toNat, BitVec.setWidth_eq]
  rfl

/-! ### HMAC_SHA256 -/

/-- R306: the HMAC of the message under the auxiliary string goes to OUT. -/
theorem exec_hmacSha256 {s : State} {m k : Bytes} (hm : s.HasMessage m) (hk : s.HasAux k) :
    exec .hmacSha256 s = .next (s.completeOut (hmac k m)) := by
  have hp : firstError s (checks .hmacSha256) = none :=
    firstError_of_passes (by simp [checks, passes_msgFits hm, passes_auxFits hk])
  rw [exec, execHmacSha256, withChecks_of_pass _ hp, State.bufRead_of_hasAux hk]
  simp only [State.bufRead_of_hasMessage hm]

/-- Settles O48: the result is the machine's HMAC, which is one by SHA-256's padding, schedule and rounds. -/
theorem hmacCompletes : Obligations.HmacCompletes := by
  intro s m k hm hk
  exact ⟨_, _, exec_hmacSha256 hm hk, hmacIs_hmac k m, stored_completeOut _ rfl,
    completeOut_of_length (length_hmac k m)⟩

/-! ### PBKDF2 -/

/-- The state of a PBKDF2 that stored a salt and wrote a result of length `n` (R311). -/
theorem completeOut_salted_of_length {s : State} {out : Bytes} {n : BitVec 16} (salt : Bytes)
    (h : out.length = n.toNat) :
    (s.salted salt).completeOut out = { s.justDone with
      mem := ((s.salted salt).completeOut out).mem
      msgLen := 16
      outLen := n
      draws := s.draws + 16
      status := { s.justDone.status with saltGen := true } } :=
  completeOut_of_length h

section
variable {s : State} {p : Bytes} (ha : s.HasAux p) (hc : s.iter ≠ 0) (h0 : s.dkLen ≠ 0)
  (hdk : s.dkLen.toNat ≤ s.config.nOut)

include hc h0 hdk in
theorem passes_kdfParameters : Check.passes s .kdfParameters = true := by
  have hiter : 1 ≤ s.iter.toNat := BitVec.toNat_pos_of_ne_zero hc
  have hlen : 1 ≤ s.dkLen.toNat := BitVec.toNat_pos_of_ne_zero h0
  simp [Check.passes, hiter, hlen, hdk]

include ha hc h0 hdk in
/-- R312: the key derived from the auxiliary string and the salt in IN, supplied or generated, goes to OUT. -/
theorem exec_pbkdf2 {salt : Bytes} (hfits : Check.passes s .msgFits = true)
    (hsalt : s.generateSalt.bufRead .input s.generateSalt.msgLen.toNat = .ok salt) :
    exec .pbkdf2 s = .next (s.generateSalt.completeOut (pbkdf2 p salt s.iter.toNat s.dkLen.toNat)) := by
  have hp : firstError s (checks .pbkdf2) = none :=
    firstError_of_passes (by simp [checks, hfits, passes_auxFits ha, passes_kdfParameters hc h0 hdk])
  rw [exec, execPbkdf2, withChecks_of_pass _ hp, State.bufRead_aux_generateSalt, State.bufRead_of_hasAux ha]
  simp only [hsalt]

end

/-- Settles O49: with a salt supplied none is generated, and the result is the machine's derived key. -/
theorem pbkdf2Completes : Obligations.Pbkdf2Completes := by
  intro s salt p hm ha hmsg hc h0 hdk
  have hg : s.generateSalt = s := State.generateSalt_of_ne hmsg
  have hrun := exec_pbkdf2 ha hc h0 hdk (passes_msgFits hm) (by rw [hg]; exact State.bufRead_of_hasMessage hm)
  rw [hg] at hrun
  exact ⟨_, _, hrun, stored_completeOut _ rfl, length_pbkdf2 ..,
    derivedKeyIs_pbkdf2 _ _ _ _ (BitVec.toNat_pos_of_ne_zero hc), completeOut_of_length (length_pbkdf2 ..)⟩

/-- Settles O50: the state between is the one after salt generation, from which the key is derived as with a supplied
salt. -/
theorem pbkdf2GeneratesItsSalt : Obligations.Pbkdf2GeneratesItsSalt := by
  intro s p ha hmsg hc h0 hdk
  have hg : s.generateSalt = s.salted s.draw16 := by rw [State.generateSalt, if_pos hmsg]
  have hrun := exec_pbkdf2 ha hc h0 hdk (by simp [Check.passes, hmsg]) (State.bufRead_input_generateSalt hmsg)
  rw [hg] at hrun
  exact ⟨_, s.salted s.draw16, s.draw16, _, hrun, by simp [State.draw16], rfl, stored_of_mem (s.salted_mem _),
    stored_completeOut _ rfl, length_pbkdf2 .., derivedKeyIs_pbkdf2 _ _ _ _ (BitVec.toNat_pos_of_ne_zero hc),
    completeOut_salted_of_length _ (length_pbkdf2 ..)⟩

end Sys2Proof.Machine
end

section
/-! PROOF. Accept, completion and errors (O8, O11–O14). A command's step is its meaning; a failed check is the whole of
a command that makes it; a completion is read off what a command can do (`Effect`), and a fault off what its outcome
tells (`exec_outcome`). -/

namespace Sys2Proof.Machine

/-! ### The sequencer's turn and accept -/

/-- Settles O8: the step is the sequencer's turn, with no host event left or with its event in front. -/
theorem stepRunsTheLatchedCommand : Obligations.StepRunsTheLatchedCommand := fun s _ _ hl hd =>
  ⟨fun hq => (step_of_nil hq).trans (coreTurn_command hl hd),
    fun rest hq => (step_coreTurn hq).trans (coreTurn_command (s := s.queued rest) hl hd)⟩

theorem busWrite_cmd (s : State) (v : Word) :
    s.busWrite 0x008 4 v = (s.issue v, { resp := .okay, data := none }) :=
  busWrite_ctrl s v (by decide) (by decide)

/-- In BUSY a command word is refused (R334). -/
theorem issue_busy {s : State} (hb : s.busy = true) (cmd : Word) :
    s.issue cmd = { s with status := s.status.refuse } :=
  if_pos hb

/-- In IDLE a command word is accepted (R334). -/
theorem issue_idle {s : State} (hb : s.busy = false) (cmd : Word) : s.issue cmd = s.accept cmd :=
  if_neg (by simp [hb])

/-- Settles O11: a CMD write issues its word, which is refused in BUSY and accepted in IDLE. -/
theorem acceptOfACommandWord : Obligations.AcceptOfACommandWord := by
  refine fun s cmd => ⟨fun hb => ?_, fun hb => ⟨s.accept cmd, ?_, rfl, rfl⟩⟩
  · rw [busWrite_cmd, issue_busy hb]
    rfl
  · rw [busWrite_cmd, issue_idle hb]

/-! ### Failed checks -/

/-- Every command is its checks and then an execution; the commands without checks execute at once (R340). -/
theorem exec_eq_withChecks (i : Instr) (s : State) : ∃ execute, exec i s = withChecks i s execute := by
  cases i <;> exact ⟨_, by rw [exec]; rfl⟩

/-- A command whose check fails does nothing but report its error (R340, R342). -/
theorem exec_of_failedCheck {i : Instr} {s : State} {e : ErrCode} (h : firstError s (checks i) = some e) :
    exec i s = .next (if writesOut i then s.raiseOut e else s.raise e) := by
  obtain ⟨execute, hexec⟩ := exec_eq_withChecks i s
  rw [hexec, withChecks_of_error execute h]

/-- Settles O14: the table's first failure is the machine's first failed check, and that is the whole of the command. -/
theorem failedCheckReportsItsError : Obligations.FailedCheckReportsItsError := by
  intro i s e h
  rw [exec_of_failedCheck ((firstError_checks i s).trans h), failedCheck_eq]
  simp only [writesOut_iff]
  rfl

/-! ### The STATUS of a completed command -/

@[simp] theorem State.generateSalt_err (s : State) : s.generateSalt.status.err = s.status.err := by
  unfold State.generateSalt; split <;> rfl
@[simp] theorem State.generateSalt_errCode (s : State) : s.generateSalt.status.errCode = s.status.errCode := by
  unfold State.generateSalt; split <;> rfl

/-- A command that completes leaves ERR and ERRCODE as they were, or sets ERR with a code (R335). -/
theorem Effect.error_kept_or_raised {s t : State} {i : Instr} (h : Effect s i t) :
    (t.status.err = s.status.err ∧ t.status.errCode = s.status.errCode) ∨
      (t.status.err = true ∧ t.status.errCode ≠ .none) := by
  cases h with
  | checkFailed _ he => rw [failedCheck_eq]; exact .inr ⟨rfl, he⟩
  | paddingError | authenticationFailed => exact .inr ⟨rfl, ErrCode.noConfusion⟩
  | pbkdf2 => exact .inl ⟨s.generateSalt_err, s.generateSalt_errCode⟩
  | gf | keyExpanded | round | block | mode | gcmEncrypted | gcmDecrypted | ghash | hmac => exact .inl ⟨rfl, rfl⟩

/-- Settles O12: from accept's flags, ERR = 0 and ERRCODE = 0, the error a command leaves is none or its own. -/
theorem completedCommandStatus : Obligations.CompletedCommandStatus := by
  intro i s t herr hcode ht
  obtain ⟨hlatch, hdone, -⟩ := exec_completes ht
  have herror := (exec_effect ht).error_kept_or_raised
  rw [herr, hcode] at herror
  exact ⟨hlatch, t.busy_of_none hlatch, hdone, herror⟩

/-! ### Faults -/

theorem exec_not_refused (i : Instr) (s : State) (r : Refusal) : exec i s ≠ .refused r := fun h => by
  have ho := exec_outcome i s
  rw [h] at ho
  exact ho

/-- A command faults with the fault of a buffer it reads. -/
theorem readFault_of_exec {i : Instr} {s : State} {f : Fault} (h : exec i s = .fault f) :
    firstError s (checks i) = none ∧ ReadFault s i f := by
  have ho := exec_outcome i s
  rwa [h] at ho

/-- A command faults exactly when its checks pass and a buffer it reads faults (R375). -/
theorem exec_fault_iff (i : Instr) (s : State) :
    (∃ f, exec i s = .fault f) ↔ firstError s (checks i) = none ∧ ∃ f, ReadFault s i f := by
  refine ⟨fun ⟨f, h⟩ => ⟨(readFault_of_exec h).1, f, (readFault_of_exec h).2⟩, fun ⟨hpass, f, hf⟩ => ?_⟩
  cases hexec : exec i s with
  | fault f => exact ⟨f, rfl⟩
  | refused r => exact absurd hexec (exec_not_refused i s r)
  | next t =>
    have ho := exec_outcome i s
    rw [hexec] at ho
    rcases ho with hfail | hread
    · exact absurd hpass hfail
    · exact absurd hf (hread f)

/-- A buffer the command reads faults exactly when it reads a byte of it that holds no value. -/
theorem exists_readFault_iff (i : Instr) (s : State) :
    (∃ f, ReadFault s i f) ↔
      (i ∈ inputCommands ∧ ∃ k < s.msgLen.toNat, s.mem.get? (0x2000 + k) = none) ∨
      (i ∈ auxCommands ∧ ∃ k < s.auxLen.toNat, s.mem.get? (0x4000 + k) = none) := by
  simp only [ReadFault, exists_or, exists_and_left, State.bufRead_error_iff, Buffer.base]

/-- Settles O13: when by `exec_fault_iff`, and the byte named by the buffer read that faulted. -/
theorem commandsFaultExactlyOnUnwrittenBytes : Obligations.CommandsFaultExactlyOnUnwrittenBytes := by
  refine fun i s => ⟨exec_not_refused i s, ?_, fun f hf => ?_⟩
  · rw [exec_fault_iff, exists_readFault_iff, firstError_checks]
  · rcases (readFault_of_exec hf).2 with ⟨hi, hread⟩ | ⟨hi, hread⟩
    · obtain ⟨k, rfl, hk, hbyte⟩ := s.bufRead_error _ _ _ hread
      exact ⟨.input, k, rfl, .inl ⟨rfl, hi, hk⟩, hbyte⟩
    · obtain ⟨k, rfl, hk, hbyte⟩ := s.bufRead_error _ _ _ hread
      exact ⟨.aux, k, rfl, .inr ⟨rfl, hi, hk⟩, hbyte⟩

end Sys2Proof.Machine
end

section
/-! PROOF. Reset (O5, O6) and the bus in BUSY (O57, O58). What a read gives while a command runs is decided once for
each kind of result: the commands that write it (`mem_results_iff`). -/

namespace Sys2Proof.Machine

/-! ### Reset -/

theorem readCtrl_resetWith (c : Config) (r : CtrlReg) :
    (State.resetWith c).readCtrl r = if r = .id then 0x41455331 else if r = .iter then 0x000186A0 else 0 := by
  cases r with
  | ctrl => exact (by decide : Ctrl.reset.word = 0)
  | status => exact (by decide : Status.reset.word false = 0)
  | id | cmd | keyLen | ivLen | nonceLen | tweakLen | msgLen | auxLen | outLen | iter | dkLen | gfA | gfB | gfR => rfl

/-- The reset state of every configuration has the values of R55. -/
theorem resetWith_atReset (c : Config) : (State.resetWith c).AtReset where
  registers := readCtrl_resetWith c
  key := rfl
  iv := rfl
  nonce := rfl
  tweak := rfl
  block := rfl
  tag := rfl
  rk := rfl
  buffers := fun _ _ => rfl
  latch := rfl
  schedule := ⟨rfl, rfl⟩
  irq := rfl

/-- Reset at a later step leaves the values of power-up; what it keeps is no register of the core (R370). -/
theorem hardReset_atReset (s : State) : s.hardReset.AtReset := { resetWith_atReset s.config with }

/-- Settles O5: the registers by the reset state, the records by what reset lets through of an abandoned command. -/
theorem resetLeavesResetValues : Obligations.ResetLeavesResetValues := by
  refine ⟨resetWith_atReset _, fun s rest hq => ?_⟩
  have hstep : step s = .next (s.queued rest).hardReset := step_of_cons hq
  refine ⟨_, hstep, hardReset_atReset _, rfl, rfl, (s.queued rest).recordsBeforeReset, rfl,
    fun hidle => recordsBeforeReset_idle hidle, fun l i u hl hd hu => ?_⟩
  exact recordsBeforeReset_command (s := s.queued rest) hl hd hu

/-- The reset state of a legal configuration is legal. -/
theorem resetWith_inv {c : Config} (hc : c.Legal) : (State.resetWith c).Inv where
  config := hc
  memory := .nil
  buffers := fun _ hx => nomatch hx
  schedule := ⟨rfl, rfl⟩
  outLen := Nat.zero_le _
  latched := fun _ hl => nomatch hl
  error := fun he => nomatch he
  tagOk := fun ht => nomatch ht
  saltGen := fun hs => nomatch hs

/-- Settles O6: the default configuration is legal. -/
theorem resetMeetsInvariant : Obligations.ResetMeetsInvariant := resetWith_inv (by decide)

/-! ### Writes in BUSY -/

/-- A write of an operand register is dropped while BUSY (R372). -/
theorem writeCtrl_busy {s : State} (hb : s.busy = true) (v : Word) {r : CtrlReg} (hr : r.operandBits ≠ 0) :
    s.writeCtrl v r = s := by
  cases r with
  | id | ctrl | cmd | status | outLen | gfR => exact absurd rfl hr
  | keyLen | ivLen | nonceLen | tweakLen | msgLen | auxLen | iter | dkLen | gfA | gfB => exact if_pos hb

/-- An aligned write of a writable region completes with OKAY and is dropped while BUSY (R372). -/
theorem busWrite_bytes_busy {s : State} (hc : s.config.Legal) (hb : s.busy = true) (v : Word) {a n : Nat}
    (hn : n = 1 ∨ n = 2 ∨ n = 4) (ha : a % n = 0) (hw : Writable s.config a) :
    s.busWrite a n v = (s, { resp := .okay, data := none }) := by
  obtain ⟨l, hl⟩ := byteLocAt_of_writable hc hw
  obtain ⟨ls, htarget, -⟩ := target_of_bytes hc hn ha hl
  rw [State.busWrite, htarget]
  exact congrArg (·, _) (if_pos hb)

/-- Settles O57: CTRL and STATUS by their writes, CMD by the refused word, every other write dropped. -/
theorem writesWhileBusy : Obligations.WritesWhileBusy := by
  refine fun s v hb => ⟨busWrite_control s v, busWrite_status s v, ?_, fun off hoff => ?_,
    fun a n hc hn ha hw => busWrite_bytes_busy hc hb v hn ha hw⟩
  · rw [busWrite_cmd, issue_busy hb]
    rfl
  · have h : off < 0x40 ∧ off % 4 = 0 ∧ (ctrlRegAt off).operandBits ≠ 0 := by revert off; decide
    obtain ⟨hlt, h4, hreg⟩ := h
    rw [busWrite_ctrl s v hlt h4, writeCtrl_busy hb v hreg]

/-! ### What a running command writes -/

/-- The commands that write a result (R56). -/
def Result.WrittenBy (i : Instr) : Result → Prop
  | .gfR => i ∈ gfCommands
  | .rk => i ∈ keyCommands
  | .block => i ∈ blockCommands ∨ isRoundCommand i = true
  | .out | .outLen => i ∈ outCommands
  | .tag => i = .gcmEnc ∨ i = .ghash
  | .salt | .msgLen => i = .pbkdf2

/-- The machine's row of R56 for a command lists the results that it is among the writers of. -/
theorem mem_results_iff (i : Instr) (r : Result) : r ∈ results i ↔ r.WrittenBy i := by
  cases i <;> cases r <;>
    simp [results, Result.WrittenBy, gfCommands, keyCommands, blockCommands, outCommands, modeCommands, ecbCommands,
      cbcCommands, ctrCommands, cfbCommands, ofbCommands, xtsCommands, gcmCommands, isRoundCommand]

section
variable {s : State} {l : Latch} {i : Instr} (hl : s.latch = some l) (hd : decode l.word = .ok i)
include hl hd

theorem mem_running_iff (r : Result) : r ∈ s.running ↔ r.WrittenBy i := by
  simp only [State.running, hl, hd, mem_results_iff]

/-- A register that the running command does not write is not free. -/
theorem unspecifiedCtrl_of_not_result {r : CtrlReg} (hr : ¬ ResultRegister i r) : s.unspecifiedCtrl r = 0 := by
  cases r with
  | gfR | outLen | msgLen =>
    refine if_neg fun hmem => hr ?_
    simpa [ResultRegister, Result.WrittenBy] using (mem_running_iff hl hd _).1 hmem
  | id | ctrl | cmd | status | keyLen | ivLen | nonceLen | tweakLen | auxLen | iter | dkLen | gfA | gfB => rfl

/-- The field of GF_R is one byte, those of OUT_LEN and MSG_LEN are two (R38, R40, R43). -/
theorem unspecifiedCtrl_of_result {r : CtrlReg} (hr : ResultRegister i r) :
    s.unspecifiedCtrl r = if r = .gfR then 1 else 2 := by
  rcases hr with ⟨rfl, hi⟩ | ⟨rfl, hi⟩ | ⟨rfl, hi⟩
  · exact if_pos ((mem_running_iff hl hd .gfR).2 hi)
  · exact if_pos ((mem_running_iff hl hd .outLen).2 hi)
  · exact if_pos ((mem_running_iff hl hd .msgLen).2 hi)

/-- A byte is free exactly when its offset is one of the running command's results (R56, R373). -/
theorem unspecifiedByte_iff (hc : s.config.Legal) {b : ByteLoc} (hb : b.Valid s.config) :
    s.unspecifiedByte b = true ↔ ResultOffset i b.offset := by
  obtain ⟨⟨-, hin, -⟩, ⟨-, haux, -⟩, -, hout, -⟩ := hc
  cases b with
  | buf b j =>
    cases b with
    | input | aux | output =>
      simp only [State.unspecifiedByte, Bool.and_eq_true, decide_eq_true_eq, mem_running_iff hl hd, Result.WrittenBy,
        ResultOffset, ByteLoc.offset, ByteLoc.Valid, Buffer.base, Buffer.size] at hb ⊢
      grind
  | key j | iv j | nonce j | tweak j | block j | tag j | rk j =>
    simp only [State.unspecifiedByte, decide_eq_true_eq, mem_running_iff hl hd, Result.WrittenBy, ResultOffset,
      ByteLoc.offset]
    grind

/-! ### Reads in BUSY -/

/-- A register that the running command does not write reads as it is (R373). -/
theorem busRead_ctrl_of_not_result {a : Nat} (ha : a < 0x40) (h4 : a % 4 = 0)
    (hr : ¬ ResultRegister i (ctrlRegAt a)) :
    s.busRead a 4 = (s, { resp := .okay, data := some (s.readCtrl (ctrlRegAt a)) }) := by
  rw [busRead_ctrl s ha h4, State.readReg, unspecifiedCtrl_of_not_result hl hd hr, State.drew_zero, if_pos rfl]

/-- A byte that the running command does not write reads as it is (R373). -/
theorem busRead_of_not_resultOffset (hc : s.config.Legal) {a : Nat} {b : Byte} (hr : ¬ ResultOffset i a)
    (hb : s.byteAtOffset a = some b) : s.busRead a 1 = (s, { resp := .okay, data := some (b.setWidth 32) }) := by
  obtain ⟨loc, hloc, hbyte⟩ := Option.bind_eq_some_iff.1 hb
  obtain ⟨rfl, hvalid⟩ := byteLocAt_some hloc
  refine busRead_byte hc hvalid ?_
  rw [State.hostByte, if_neg (mt (unspecifiedByte_iff hl hd hc hvalid).1 hr), hbyte]

/-- A byte that the running command writes reads as the next free value (R373). -/
theorem busRead_of_resultOffset (hc : s.config.Legal) {a : Nat} (hr : ResultOffset i a)
    (hres : ¬ Reserved s.config a) :
    s.busRead a 1 = (s.drew 1, { resp := .okay, data := some ((s.draw 0).setWidth 32) }) := by
  obtain ⟨loc, hloc⟩ :=
    byteLocAt_of_not_reserved (by unfold ResultOffset at hr; omega) (by unfold ResultOffset at hr; omega) hres
  obtain ⟨rfl, hvalid⟩ := byteLocAt_some hloc
  refine busRead_free hc hvalid ?_
  rw [State.hostByte, if_pos ((unspecifiedByte_iff hl hd hc hvalid).2 hr)]

end

/-- The free field of a control register reads as the next free values, its reserved bits as 0 (R53, R373). -/
theorem busRead_ctrl_unspecified {s : State} {a n : Nat} (ha : a < 0x40) (h4 : a % 4 = 0) (hn : n ≠ 0)
    (h : s.unspecifiedCtrl (ctrlRegAt a) = n) :
    s.busRead a 4 = (s.drew n, { resp := .okay, data := some (lanesValue ((List.range n).map s.draw)) }) := by
  rw [busRead_ctrl s ha h4, State.readReg, h, if_neg hn]

theorem lanesValue_two (b0 b1 : Byte) : lanesValue [b0, b1] = BitVec.ofNat 32 (b0.toNat + 2 ^ 8 * b1.toNat) :=
  lanesValue_eq _

/-- Settles O58: each register and each byte by whether the running command writes it. -/
theorem readsWhileBusy : Obligations.ReadsWhileBusy := by
  refine fun s l i hl hd hc => ⟨fun a ha h4 hr => busRead_ctrl_of_not_result hl hd ha h4 hr, fun a ha hr => ?_,
    fun hr => ?_, fun a b hr hb => busRead_of_not_resultOffset hl hd hc hr hb,
    fun a hr hres => busRead_of_resultOffset hl hd hc hr hres⟩
  · have h : a < 0x40 ∧ a % 4 = 0 ∧ ctrlRegAt a ≠ .gfR := by clear hr; revert a; decide
    obtain ⟨hlt, h4, hreg⟩ := h
    have hfree := unspecifiedCtrl_of_result hl hd hr
    rw [if_neg hreg] at hfree
    rw [busRead_ctrl_unspecified hlt h4 two_ne_zero hfree]
    show (s.drew 2, ({ resp := .okay, data := some (lanesValue [s.draw 0, s.draw 1]) } : Reply)) = _
    rw [lanesValue_two]
    rfl
  · rw [busRead_ctrl_unspecified (by decide) (by decide) one_ne_zero (unspecifiedCtrl_of_result hl hd hr)]
    show (s.drew 1, ({ resp := .okay, data := some (lanesValue [s.draw 0]) } : Reply)) = _
    rw [lanesValue_one]
    rfl

end Sys2Proof.Machine
end
